-- ==== Sys2Proof/Word.lean ====
section
/-! DEFINITION. The word types of the block: byte, command word, colour entry, LED word (R11, R15, R18, R50). -/

namespace Sys2Proof

/-- One framebuffer, glyph, string or bus byte, and every 8-bit operand field (R15, R50). -/
abbrev Byte := BitVec 8

/-- One 40-bit command word, bit 39 the most significant (R50). -/
abbrev CmdWord := BitVec 40

/-- One 48-bit entry of `CBUF`: red 47:32, green 31:16, blue 15:0 (R17). -/
abbrev ColourEntry := BitVec 48

/-- One 16-bit colour component with 15 fraction bits (R144). -/
abbrev Component := BitVec 16

/-- One 32-bit word of the `LED` trace (R18, R143). -/
abbrev LedWord := BitVec 32

end Sys2Proof
end

