-- ==== Sys2Proof/Machine/Working.lean ====
section
/-! DEFINITION. The working registers of R20: the progress of the command in execution, invisible to the host.
Widths are those R20 calls sufficient; the widths it does not give are named in log entry 6. -/

namespace Sys2Proof.Machine

/-- The line unit's registers (R20, R95): cursor `lx`, `ly` (10 bits, signed), differences `ldx`, `ldy` (8 bits),
steps `lsx`, `lsy` (+1 or -1 in two's complement), error term `lerr` and its double `le2` (11 bits, signed). -/
structure LineRegs where
  lx : BitVec 10
  ly : BitVec 10
  ldx : BitVec 8
  ldy : BitVec 8
  lsx : BitVec 2
  lsy : BitVec 2
  lerr : BitVec 11
  le2 : BitVec 11
  deriving DecidableEq, Repr, Inhabited

/-- The font unit's registers (R20): column counter `gi` (0 to 7), running trimmed width `gw` (0 to 7), glyph
index `gidx` (0 to 65). -/
structure FontRegs where
  gi : BitVec 3
  gw : BitVec 3
  gidx : BitVec 7
  deriving DecidableEq, Repr, Inhabited

/-- The text unit's registers (R20): cursor `tx`, `ty` (10 bits, signed) and character index `ti` (0 to 255). -/
structure TextRegs where
  tx : BitVec 10
  ty : BitVec 10
  ti : BitVec 8
  deriving DecidableEq, Repr, Inhabited

/-- The loop counters of the rectangle and fill unit (R20), as the column and row of the latest pixel write; the model
lets HLINE and VLINE use them too (log entry 6). -/
structure LoopRegs where
  cx : BitVec 9
  cy : BitVec 9
  deriving DecidableEq, Repr, Inhabited

/-- All working registers (R20); `mp` is the matrix unit's physical position (0 to 24). -/
structure Working where
  line : LineRegs
  font : FontRegs
  text : TextRegs
  loop : LoopRegs
  mp : BitVec 5
  deriving DecidableEq, Repr, Inhabited

/-- The unit that runs a drawing command, which says whose working registers it uses (R20). R20 names none for HLINE
and VLINE. That they use the loop counters is the model's choice. DESIGN CHOICE (log entry 6). -/
inductive DrawUnit where
  /-- FILL and RECT, by R20, and HLINE and VLINE, by log entry 6: the loop counters. -/
  | loops
  /-- LINE: the line unit. -/
  | line
  /-- CHAR: the font unit. -/
  | font
  /-- STRING: the text unit and, through `DRAWCHAR`, the font unit. -/
  | text
  deriving DecidableEq, Repr

end Sys2Proof.Machine
end

