-- ==== Sys2Proof/Config.lean ====
section
/-! DEFINITION. The build-time parameters of R6, and what the spec leaves free.
`Params` is an argument of the model: every state of the block carries the parameters of its build. The opaque
constants are the values the spec leaves open: nothing in Lean can evaluate one, so whatever is proved holds for every
choice of them (93_implementation_defined.md). -/

namespace Sys2Proof

/-- The build-time parameters of R6 (92_eei_decisions.md section 6), as plain data. -/
structure Params where
  /-- `FB_CAPACITY`: bytes of framebuffer RAM. -/
  fbCapacity : Nat
  /-- `GLYPH`: the 528 column bytes, byte `8 * g + i` for column `i` of glyph `g` (R40, R111). -/
  glyphs : List Byte
  /-- `INIT_CMDS`: the command bytes of the power-on sequence (R70). -/
  initCmds : List Byte
  /-- `FLUSH_CMDS`: for each `WIDTH` and `PAGES` a row with the command bytes of the address-range commands (R73). -/
  flushRows : List ((Byte × BitVec 5) × List Byte)
  deriving DecidableEq, Repr

/-- Byte `n` of `GLYPH` (R40). -/
def Params.glyph (P : Params) (n : Nat) : Byte := P.glyphs.getD n 0#8

/-- `FLUSH_CMDS(WIDTH, PAGES)` (R73). -/
def Params.flushCmds (P : Params) (width : Byte) (pages : BitVec 5) : List Byte :=
  (P.flushRows.lookup (width, pages)).getD []

namespace Config

/-- `STR_MAX`, fixed by the 8-bit length field (R6, R42, D22). -/
def strMax : Nat := 255

/-- `COMP_FRAC`, the fraction bits of a colour component (R6, R144, D24). -/
def compFrac : Nat := 15

/-- The glyph bitmaps of the default build, which no source gives (R6, N1). Free value (log entry 10). -/
opaque glyphs : List Byte

/-- The power-on command bytes of the default build, which no source gives (R6, N3). Free value (log entry 10). -/
opaque initCmds : List Byte

/-- The address-range command bytes of the default build, which no source gives (R6, N3). Free value (log entry 10). -/
opaque flushRows : List ((Byte × BitVec 5) × List Byte)

/-- The default build: `FB_CAPACITY` = 1025 by R6 and D2, which give no default for the other three. -/
def params : Params :=
  { fbCapacity := 1025, glyphs := glyphs, initCmds := initCmds, flushRows := flushRows }

/-- Framebuffer byte nothing has written since reset number `epoch` (R16, R185, U8). Free value (log entry 5). -/
opaque freeFb : (epoch index : Nat) → Byte

/-- `STRBUF` entry nothing has written since reset number `epoch` (R17, U9). Free value (log entry 5). -/
opaque freeStrbuf : (epoch index : Nat) → Byte

/-- `CBUF` entry nothing has written since reset number `epoch` (R17, U9). Free value (log entry 5). -/
opaque freeCbuf : (epoch index : Nat) → ColourEntry

/-- `STATUS.ERR` after a fault (R165, U10). Free value (log entry 7). -/
opaque freeErr : (draw : Nat) → BitVec 2

/-- `RESULT` after a fault (R165, U10). Free value (log entry 7). -/
opaque freeResult : (draw : Nat) → BitVec 16

/-- Whether the faulting drawing command carried out its pixel write number `index` (R38, R165). Free value
(log entry 8). -/
opaque freeWritten : (draw index : Nat) → Bool

/-- Which offending pixel of a FILL or RECT is reported (R167, U18). Free value (log entry 9). -/
opaque freeOffender : (draw : Nat) → Nat

/-- The working registers after a reset or a fault in mid-drawing (R20, R185). Free value (log entry 6). -/
opaque freeWorking : (draw : Nat) → Machine.Working

/-- The byte of a component above 1.0; `slot` is `3 * p` plus 0 for green, 1 for red, 2 for blue, at physical
position `p` (R145, U5). Free value (log entry 14). -/
opaque freeLedByte : (draw slot : Nat) → Byte

/-- The colour bits 31:8 of a word of a frame the host tore (R169, U7). Free value (log entry 13). -/
opaque freeTorn : (draw index : Nat) → BitVec 24

end Config

end Sys2Proof
end

