-- ==== Sys2Proof/Syntax.lean ====
section
/-! DEFINITION. The twelve commands, one constructor per row of the opcode table, operands in the order of R52. -/

namespace Sys2Proof

/-- A command (R52, R53). An operand of 8 bits is the field of the command word as it stands; `on` is field `V`
and `filled` field `F`. -/
inductive Instr where
  /-- DINIT (R70): `A` width, `B` height, `C` bus address (bit 7 must be 0), `D` bus selector. -/
  | dinit (width height busAddr busSel : Byte)
  /-- SETPIX (R71): `A` x, `B` y, `V` on. -/
  | setpix (x y : Byte) (on : Bool)
  /-- FILL (R72): `V` on. -/
  | fill (on : Bool)
  /-- RECT (R90): `A` top, `B` left, `C` width, `D` height, `V` on, `F` filled. -/
  | rect (top left width height : Byte) (on filled : Bool)
  /-- LINE (R91): `A` x0, `B` y0, `C` x1, `D` y1, `V` on. -/
  | line (x0 y0 x1 y1 : Byte) (on : Bool)
  /-- HLINE (R92): `A` x0, `B` x1, `C` y, `V` on. -/
  | hline (x0 x1 y : Byte) (on : Bool)
  /-- VLINE (R93): `A` x, `B` y0, `C` y1, `V` on. -/
  | vline (x y0 y1 : Byte) (on : Bool)
  /-- CHAR (R112): `A` character code, `B` x, `C` y. -/
  | char (code x y : Byte)
  /-- STRING (R125): `A` x, `B` y, `C` length; the text stands in `STRBUF`. -/
  | string (x y len : Byte)
  /-- FLUSH (R73). -/
  | flush
  /-- MINIT (R140): `A` channel, `B` pin. -/
  | minit (channel pin : Byte)
  /-- MDRAW (R142); the colours stand in `CBUF`. -/
  | mdraw
  deriving DecidableEq, Repr

end Sys2Proof
end

