-- ==== Sys2Proof/Machine/State.lean ====
section
/-! DEFINITION. The state of the block (10_state.md), its reset value (R185), and the reasons a step can stop. -/

namespace Sys2Proof.Machine

/-- The bytes written to a byte memory since reset, by index: `FB` and `STRBUF` (R15). -/
abbrev Memory := List Host.Cell

/-- The entries written to `CBUF` since reset, by index (R17). -/
abbrev ColourMemory := List (Nat × ColourEntry)

/-- One call `PIXEL(x, y, on)` (R32); coordinates are mathematical integers. -/
structure Pixel where
  x : Int
  y : Int
  on : Bool
  deriving DecidableEq, Repr

/-- The fault causes of R164. -/
inductive FaultCause where
  /-- The command word matches no row of R53. -/
  | illegal
  /-- A half is used before, or initialised twice after, its initialisation. -/
  | state
  /-- A pixel outside the display or outside the buffer. -/
  | coord
  /-- An empty rectangle or a reversed range. -/
  | range
  /-- A character without a glyph. -/
  | char
  /-- A display height that is not a multiple of 8. -/
  | config
  deriving DecidableEq, Repr

/-- `raise F_x(info)` of the pseudocode (R8): a cause and its `INFO` value. -/
structure Raise where
  cause : FaultCause
  info : BitVec 16
  deriving DecidableEq, Repr

/-- One write transaction of the `BUS` trace: `BUS_SEL`, `BUS_ADDR` and the bytes (R18). -/
structure BusWrite where
  sel : Byte
  addr : BitVec 7
  bytes : List Byte
  deriving DecidableEq, Repr

/-- What is left to do after the last bus write of a command: DINIT still sets `DISP_READY` (R70), FLUSH
nothing (R73). -/
inductive BusEnd where
  | dinit
  | flush
  deriving DecidableEq, Repr

/-- The output of a command that waits for a sink (R19, R21). -/
inductive Pending where
  /-- A bus command: of the transaction in flight the bytes `sent` are accepted and the bytes `todo` are not; the
  transactions `rest` follow. -/
  | bus (sent todo : List Byte) (rest : List (List Byte)) (done : BusEnd)
  /-- MDRAW: the words not yet accepted, the first one offered to the queue. -/
  | led (words : List LedWord)
  deriving DecidableEq, Repr

/-- How many more items a sink accepts before it refuses (R19). -/
inductive Room where
  /-- The sink is ready for every item. -/
  | unlimited
  /-- The sink accepts `n` more items and then refuses. -/
  | limited (n : Nat)
  deriving DecidableEq, Repr

/-- One action of the host or event of the environment (R10, R19, R174), taken between commands or while a command
waits. -/
inductive Input where
  /-- The host writes a register of the map of R14. -/
  | write (address : Nat) (data : BitVec 48)
  /-- The host reads a register of the map of R14. -/
  | read (address : Nat)
  /-- The `rst` input (R185). -/
  | reset
  /-- `bus_ready` (R19): the bus sink now accepts this many bytes. -/
  | busRoom (r : Room)
  /-- `led_ready` (R19): the LED queue now accepts this many words. -/
  | ledRoom (r : Room)
  /-- `clk_ok` (R19). -/
  | clk (ok : Bool)
  /-- `slot_avail` (R19). -/
  | slot (free : Bool)
  /-- The protocol hardware shifts `n` words out of the LED output queue (R21). -/
  | ledShift (n : Nat)
  deriving DecidableEq, Repr

/-- Why a step stops the machine with a fault. No constructor: every contract violation of this hardware has the
fault entry of R165, which is a next state, and a hang (R170) is a state that steps to itself. -/
inductive Fault where
  deriving DecidableEq, Repr

/-- Why an instruction has no meaning. -/
inductive Refusal where
  /-- Raised by an arm of `exec` whose instruction is not modelled. Safe. No arm does so. -/
  | notModelled (mnemonic : String)
  deriving DecidableEq, Repr

/-- The state of the block, of the model's view of its environment, and the model's own counters (INVENTORY.md,
heading State). -/
structure State where
  /-- The build-time parameters of the block (R6). No step changes them (log entry 10). -/
  build : Params
  /-- `WIDTH` (R11). -/
  width : BitVec 8
  /-- `HEIGHT` (R11). -/
  height : BitVec 8
  /-- `PAGES` (R11). -/
  pages : BitVec 5
  /-- `BUFSIZE` (R11). -/
  bufsize : BitVec 13
  /-- `BUS_ADDR` (R11). -/
  busAddr : BitVec 7
  /-- `BUS_SEL` (R11). -/
  busSel : BitVec 8
  /-- `MTX_CHAN` (R11). -/
  mtxChan : BitVec 8
  /-- `MTX_PIN` (R11). -/
  mtxPin : BitVec 8
  /-- `CMD`, the command word accepted last (R14, log entry 4). -/
  cmd : CmdWord
  /-- `STATUS.BUSY` (R13). -/
  busy : Bool
  /-- `STATUS.DISP_READY` (R13). -/
  dispReady : Bool
  /-- `STATUS.MTX_READY` (R13). -/
  mtxReady : Bool
  /-- `STATUS.FAULT` (R13). -/
  fault : Bool
  /-- `STATUS.ERR` (R13). -/
  err : BitVec 2
  /-- `RESULT.RV0` (R13). -/
  rv0 : BitVec 8
  /-- `RESULT.RV1` (R13). -/
  rv1 : BitVec 8
  /-- `FCAUSE.CAUSE` (R13). -/
  cause : BitVec 4
  /-- `FCAUSE.OP` (R13). -/
  op : BitVec 4
  /-- `FCAUSE.INFO` (R13). -/
  info : BitVec 16
  /-- `FB` (R16). -/
  fb : Memory
  /-- `CBUF` (R17). -/
  cbuf : ColourMemory
  /-- `STRBUF` (R17). -/
  strbuf : Memory
  /-- The working registers (R20). -/
  work : Working
  /-- The `BUS` trace, oldest write first (R18). -/
  bus : List BusWrite
  /-- The bus writes a reset cut short, with the bytes the sink had accepted (R185, log entry 12). -/
  busCut : List BusWrite
  /-- The `LED` trace, oldest word first (R18). -/
  led : List LedWord
  /-- The LED output queue between the block and the wire (R21). -/
  ledQueue : List LedWord
  /-- The output of a command that waits for a sink (R19, R21). -/
  pending : Option Pending
  /-- `bus_ready` (R19). -/
  busRoom : Room
  /-- `led_ready` (R19). -/
  ledRoom : Room
  /-- `clk_ok` (R19). -/
  clkOk : Bool
  /-- `slot_avail` (R19). -/
  slotAvail : Bool
  /-- The host actions and environment events to come (R174, log entry 1). -/
  inputs : List Input
  /-- What the host's latest register read returned (R14, log entry 3). -/
  hostData : BitVec 48
  /-- The number of resets; selects the contents of unwritten memory (log entry 17). -/
  epoch : Nat
  /-- The number of free draws made (log entry 17). -/
  fresh : Nat
  deriving DecidableEq, Repr

/-- The working registers at reset. The spec gives no value (R20, R185). DESIGN CHOICE (log entry 6). -/
def Working.reset : Working :=
  { line := ⟨0, 0, 0, 0, 0, 0, 0, 0⟩, font := ⟨0, 0, 0⟩, text := ⟨0, 0, 0⟩, loop := ⟨0, 0⟩, mp := 0 }

/-- The block of the build `P` right after reset (R185): every register 0, no memory entry written, both traces empty.
The fields R185 does not name are DESIGN CHOICE (log entries 1, 2, 3, 4, 6, 12, 17). -/
def State.resetOf (P : Params) : State :=
  { build := P
    width := 0, height := 0, pages := 0, bufsize := 0, busAddr := 0, busSel := 0, mtxChan := 0, mtxPin := 0
    cmd := 0
    busy := false, dispReady := false, mtxReady := false, fault := false, err := 0
    rv0 := 0, rv1 := 0
    cause := 0, op := 0, info := 0
    fb := [], cbuf := [], strbuf := []
    work := Working.reset
    bus := [], busCut := [], led := [], ledQueue := [], pending := none
    busRoom := .unlimited, ledRoom := .unlimited, clkOk := true, slotAvail := true
    inputs := [], hostData := 0, epoch := 0, fresh := 0 }

/-- The block of the default build right after reset (R6, R185). -/
def State.reset : State := State.resetOf Config.params

end Sys2Proof.Machine
end

