-- ==== Sys2Proof/Machine/Flags.lean ====
section
/-! DEFINITION. The host's views of the registers (R13, R14), the codes of errors and causes (R13, R164), and the
completion of a command (R160). There are no arithmetic flags (R23). -/

namespace Sys2Proof.Machine

/-- The code of a fault cause in `FCAUSE.CAUSE` (R164). -/
def FaultCause.code : FaultCause → BitVec 4
  | .illegal => 1
  | .state => 2
  | .coord => 3
  | .range => 4
  | .char => 5
  | .config => 6

/-- `OK` (R13, R160). -/
def errOk : BitVec 2 := 0

/-- `AllocationError` (R161). -/
def errAllocation : BitVec 2 := 1

/-- `InitError` (R162). -/
def errInit : BitVec 2 := 2

/-- `STATUS`: `ERR` in 5:4, `FAULT` 3, `MTX_READY` 2, `DISP_READY` 1, `BUSY` 0, bits 7:6 read as 0 (R13). -/
def statusWord (s : State) : BitVec 8 :=
  0#2 ++ s.err ++ BitVec.ofBool s.fault ++ BitVec.ofBool s.mtxReady ++ BitVec.ofBool s.dispReady ++
    BitVec.ofBool s.busy

/-- `RESULT`: `RV1` in 15:8, `RV0` in 7:0 (R13). -/
def resultWord (s : State) : BitVec 16 := s.rv1 ++ s.rv0

/-- `FCAUSE`: `INFO` in 23:8, `OP` in 7:4, `CAUSE` in 3:0 (R13). -/
def fcauseWord (s : State) : BitVec 24 := s.info ++ s.op ++ s.cause

/-- `CFG0`: `BUS_ADDR` in 30:24, `PAGES` in 20:16, `HEIGHT` in 15:8, `WIDTH` in 7:0, the rest 0 (R14). -/
def cfg0 (s : State) : BitVec 32 := 0#1 ++ s.busAddr ++ 0#3 ++ s.pages ++ s.height ++ s.width

/-- `CFG1`: `MTX_PIN` in 23:16, `MTX_CHAN` in 15:8, `BUS_SEL` in 7:0, the rest 0 (R14). -/
def cfg1 (s : State) : BitVec 32 := 0#8 ++ s.mtxPin ++ s.mtxChan ++ s.busSel

/-- `CFG2`: `BUFSIZE` in 12:0, the rest 0 (R14). -/
def cfg2 (s : State) : BitVec 16 := 0#3 ++ s.bufsize

/-- `return <code>`: `ERR` is written and `BUSY` cleared (R160). -/
def complete (code : BitVec 2) (s : State) : State :=
  { s with err := code, busy := false, pending := none }

end Sys2Proof.Machine
end

