-- ==== Sys2Proof/Machine/Operands.lean ====
section
/-! DEFINITION. Operand forms: fields as integers (R51), integer ranges (R8), pixel addresses (R30, R31), `INFO`
values (R164), colour components (R17). -/

namespace Sys2Proof.Machine

/-- `zext`: an operand field as a mathematical integer (R51). -/
def zext (b : Byte) : Int := (b.toNat : Int)

/-- The integers of `for i in a..b`, in increasing order, none when `a > b` (R8). -/
def span (a b : Int) : List Int := (List.range (b + 1 - a).toNat).map fun (i : Nat) => a + (i : Int)

/-- `(hi << 8) | lo`, the form of the two-operand `INFO` values (R164). -/
def infoPair (hi lo : Byte) : BitVec 16 := hi ++ lo

/-- `addr(x, y) = (y >> 3) + (x << 3) + 1`, with the stride 8 for every height (R30). -/
def pixelAddr (x y : Int) : Int := y / 8 + x * 8 + 1

/-- `bit(y) = y & 7` (R31). -/
def pixelBit (y : Int) : Nat := (y % 8).toNat

/-- The mask `1 << (y & 7)` of R32. -/
def pixelMask (y : Int) : Byte := 1#8 <<< pixelBit y

/-- The `INFO` of `F_COORD`: `(y[7:0] << 8) | x[7:0]` (R32, R164). -/
def coordInfo (x y : Int) : BitVec 16 := infoPair (BitVec.ofInt 8 y) (BitVec.ofInt 8 x)

/-- The red component of a `CBUF` entry, bits 47:32 (R17). -/
def redOf (e : ColourEntry) : Component := e.extractLsb' 32 16

/-- The green component of a `CBUF` entry, bits 31:16 (R17). -/
def greenOf (e : ColourEntry) : Component := e.extractLsb' 16 16

/-- The blue component of a `CBUF` entry, bits 15:0 (R17). -/
def blueOf (e : ColourEntry) : Component := e.extractLsb' 0 16

end Sys2Proof.Machine
end

