-- ==== Sys2Proof/Machine/Ops.lean ====
section
/-! DEFINITION. The operations every command shares: memory entries and their unwritten contents, the pixel write
of R32, drawing, fault entry (R165), output to the two sinks (R18, R19), reset (R185). -/

namespace Sys2Proof.Machine

/-! ## Memory entries -/

/-- The entry written at index `a` since reset, if any. -/
def cellRead {w : Nat} : List (Nat × BitVec w) → Nat → Option (BitVec w)
  | [], _ => none
  | (k, v) :: m, a => if a = k then some v else cellRead m a

/-- Write `v` at index `a`, keeping the indices rising. -/
def cellWrite {w : Nat} : List (Nat × BitVec w) → Nat → BitVec w → List (Nat × BitVec w)
  | [], a, v => [(a, v)]
  | (k, x) :: m, a, v =>
    if a < k then (a, v) :: (k, x) :: m
    else if a = k then (a, v) :: m
    else (k, x) :: cellWrite m a v

/-- The indices rise strictly, from `lo` on. -/
def cellsRiseFrom {w : Nat} : Nat → List (Nat × BitVec w) → Bool
  | _, [] => true
  | lo, (k, _) :: m => decide (lo ≤ k) && cellsRiseFrom (k + 1) m

/-- Every index is below `n`. -/
def cellsBelow {w : Nat} (n : Nat) (m : List (Nat × BitVec w)) : Bool := m.all fun c => decide (c.1 < n)

/-- The canonical form of a byte memory: indices strictly rising. An unlisted index holds no written value, and no
entry can equal that (log entry 5). -/
def Memory.wf (m : Memory) : Bool := cellsRiseFrom 0 m

/-- The canonical form of `CBUF`, as `Memory.wf`. -/
def ColourMemory.wf (m : ColourMemory) : Bool := cellsRiseFrom 0 m

/-- `MemRead(FB:a, 1)` (R8). A byte nothing has written since reset holds a free value (R185, log entry 5). -/
def fbByte (s : State) (a : Nat) : Byte := (cellRead s.fb a).getD (Config.freeFb s.epoch a)

/-- `MemRead(STRBUF:i, 1)` (R42). An entry nothing has written since reset holds a free value (R17). -/
def strbufByte (s : State) (i : Nat) : Byte := (cellRead s.strbuf i).getD (Config.freeStrbuf s.epoch i)

/-- `MemRead(CBUF:k, 1)` (R41). An entry nothing has written since reset holds a free value (R17). -/
def cbufEntry (s : State) (k : Nat) : ColourEntry := (cellRead s.cbuf k).getD (Config.freeCbuf s.epoch k)

/-- `MemWrite(FB:a, 1, v)` (R8). -/
def writeFb (a : Nat) (v : Byte) (s : State) : State := { s with fb := cellWrite s.fb a v }

/-- Bit `b` of framebuffer byte `a`. -/
def fbBit (s : State) (a b : Nat) : Bool := (fbByte s a).getLsbD b

/-- Whether pixel `(x, y)` is on (R31). -/
def pixelOn (s : State) (x y : Int) : Bool := fbBit s (pixelAddr x y).toNat (pixelBit y)

/-! ## The pixel write -/

/-- The pixel is inside the display (R32, first test). -/
def inDisplay (s : State) (p : Pixel) : Bool :=
  decide (0 ≤ p.x) && decide (0 ≤ p.y) && decide (p.x < zext s.width) && decide (p.y < zext s.height)

/-- The pixel's byte is inside the buffer (R32, second test). -/
def inBuffer (s : State) (p : Pixel) : Bool := decide (pixelAddr p.x p.y < (s.bufsize.toNat : Int))

/-- Both tests of R32 pass. -/
def pixelOk (s : State) (p : Pixel) : Bool := inDisplay s p && inBuffer s p

/-- The read-modify-write of R32: one bit of one byte set or cleared, whatever it was. -/
def writePixel (p : Pixel) (s : State) : State :=
  let a := (pixelAddr p.x p.y).toNat
  let old := fbByte s a
  writeFb a (if p.on then old ||| pixelMask p.y else old &&& ~~~(pixelMask p.y)) s

/-- `F_COORD` for a pixel (R32). -/
def coordRaise (p : Pixel) : Raise := ⟨.coord, coordInfo p.x p.y⟩

/-- `PIXEL(x, y, on)` (R32). -/
def pixel (p : Pixel) (s : State) : Except Raise State :=
  if pixelOk s p then .ok (writePixel p s) else .error (coordRaise p)

/-- A sequence of `PIXEL` calls, ended by the first that raises. -/
def pixels : List Pixel → State → Except Raise State
  | [], s => .ok s
  | p :: ps, s =>
    match pixel p s with
    | .ok s' => pixels ps s'
    | .error r => .error r

/-! ## Fault entry -/

/-- Fault entry (R165): `FAULT` and `FCAUSE` are written, `BUSY` is cleared, `ERR` and `RESULT` become unspecified
(log entry 7). Nothing is vectored, and no command returns from it (R166). -/
def faultEntry (opc : BitVec 4) (r : Raise) (s : State) : State :=
  { s with
    fault := true, cause := r.cause.code, op := opc, info := r.info, busy := false, pending := none
    err := Config.freeErr s.fresh
    rv0 := (Config.freeResult s.fresh).extractLsb' 0 8
    rv1 := (Config.freeResult s.fresh).extractLsb' 8 8
    fresh := s.fresh + 1 }

/-- Those of the pixel writes `ps` that pass the tests of R32 and that the free choice `draw` carried out; `i`
numbers the first of them. -/
def someWrites (draw : Nat) : Nat → List Pixel → State → State
  | _, [], s => s
  | i, p :: ps, s =>
    someWrites draw (i + 1) ps (if pixelOk s p && Config.freeWritten draw i then writePixel p s else s)

/-- `old` with the registers of the unit `u` taken from `new`. -/
def scratch (u : DrawUnit) (new old : Working) : Working :=
  match u with
  | .loops => { old with loop := new.loop }
  | .line => { old with line := new.line }
  | .font => { old with font := new.font }
  | .text => { old with font := new.font, text := new.text }

/-- A fault in the middle of a drawing command: any subset of its pixel writes may have happened (R38, R165, log
entry 8), and the working registers of its unit hold values of no meaning (R20, log entry 6). -/
def faultMidway (u : DrawUnit) (opc : BitVec 4) (r : Raise) (ps : List Pixel) (s : State) : State :=
  faultEntry opc r { someWrites s.fresh 0 ps s with work := scratch u (Config.freeWorking s.fresh) s.work }

/-- The offending pixels of a command whose loop order is not observable: the reported one is a free choice among
them (R167, U18, log entry 9). -/
def anyOffender (ps : List Pixel) (s : State) (r : Raise) : Raise :=
  let bad := ps.filter fun p => !pixelOk s p
  { cause := .coord
    info :=
      match bad[Config.freeOffender s.fresh % bad.length]? with
      | some p => coordInfo p.x p.y
      | none => r.info }

/-- A drawing command: its pixel writes `ps` in order, then the fault `stop` if there is one, else the completion
`fin`. A coordinate fault reports the first offending pixel (R167). -/
def draw (u : DrawUnit) (opc : BitVec 4) (ps : List Pixel) (stop : Option Raise) (fin : State → State)
    (s : State) : State :=
  match pixels ps s with
  | .error r => faultMidway u opc r ps s
  | .ok s' =>
    match stop with
    | some r => faultMidway u opc r ps s
    | none => fin s'

/-- A drawing command whose loop order is not observable (FILL, RECT): as `draw`, and a coordinate fault reports
any offending pixel (R167, U18). -/
def drawAnyOrder (u : DrawUnit) (opc : BitVec 4) (ps : List Pixel) (fin : State → State) (s : State) : State :=
  match pixels ps s with
  | .error r => faultMidway u opc (anyOffender ps s r) ps s
  | .ok s' => fin s'

/-- The loop counters after the writes `ps`: the last pixel written (R20, log entry 6). -/
def setLoop (ps : List Pixel) (s : State) : State :=
  match ps.getLast? with
  | some p => { s with work := { s.work with loop := ⟨BitVec.ofInt 9 p.x, BitVec.ofInt 9 p.y⟩ } }
  | none => s

/-- `if DISP_READY == 0: raise F_STATE(0)`, the first line of every display command but DINIT (R164, R167). -/
def whenDisplayReady (opc : BitVec 4) (body : State → State) (s : State) : State :=
  if s.dispReady then body s else faultEntry opc ⟨.state, 0⟩ s

/-! ## Output -/

/-- The sink takes `n` more items without refusing one. -/
def Room.covers (r : Room) (n : Nat) : Bool :=
  match r with
  | .unlimited => true
  | .limited k => decide (n ≤ k)

/-- How many of `n` items the sink takes. -/
def Room.takes (r : Room) (n : Nat) : Nat :=
  match r with
  | .unlimited => n
  | .limited k => min n k

/-- The room left after `n` items, of which the sink takes those it can. -/
def Room.after (r : Room) (n : Nat) : Room :=
  match r with
  | .unlimited => .unlimited
  | .limited k => .limited (k - n)

/-- The end of a bus command, once its last byte is accepted. -/
def busDone (d : BusEnd) (s : State) : State :=
  match d with
  | .dinit => complete errOk { s with dispReady := true }
  | .flush => complete errOk s

/-- Offer the transaction `sent ++ todo`, of which `sent` is accepted, and then the transactions `rest`, byte by
byte, to the bus sink. A whole transaction joins the `BUS` trace when its last byte is accepted (R18). When the sink
refuses a byte the command waits with `BUSY = 1` (R19, R170). -/
def sendBus (d : BusEnd) (sent todo : List Byte) (rest : List (List Byte)) (s : State) : State :=
  if s.busRoom.covers todo.length then
    let s' :=
      { s with
        busRoom := s.busRoom.after todo.length
        bus := s.bus ++ [⟨s.busSel, s.busAddr, sent ++ todo⟩] }
    match rest with
    | [] => busDone d s'
    | t :: ts => sendBus d [] t ts s'
  else
    { s with
      busRoom := s.busRoom.after todo.length
      busy := true
      pending := some (.bus (sent ++ todo.take (s.busRoom.takes todo.length))
        (todo.drop (s.busRoom.takes todo.length)) rest d) }

/-- `emit BUS(...)` for each of the transactions, then the end of the command (R70, R73). -/
def emitBus (d : BusEnd) (ts : List (List Byte)) (s : State) : State :=
  match ts with
  | [] => busDone d s
  | t :: rest => sendBus d [] t rest s

/-- The command write `[0x80, b]` (R74). -/
def commandWrite (b : Byte) : List Byte := [0x80#8, b]

/-- Offer LED words to the queue (R142). An accepted word joins the `LED` trace and the output queue (R18, R21);
`mp` is the position of the word offered last (R20). When the queue refuses a word the command waits with
`BUSY = 1` (R19, R170). -/
def sendLed (ws : List LedWord) (s : State) : State :=
  let n := s.ledRoom.takes ws.length
  let s' :=
    { s with
      ledRoom := s.ledRoom.after ws.length
      led := s.led ++ ws.take n
      ledQueue := s.ledQueue ++ ws.take n
      work := { s.work with mp := BitVec.ofNat 5 (min 24 (25 - (ws.length - n))) } }
  if s.ledRoom.covers ws.length then complete errOk s'
  else { s' with busy := true, pending := some (.led (ws.drop n)) }

/-- The command that waits for a sink, if there is one, goes on as far as the sink lets it (R19). -/
def resume (s : State) : State :=
  match s.pending with
  | none => s
  | some (.bus sent todo rest d) => sendBus d sent todo rest s
  | some (.led ws) => sendLed ws s

/-! ## Reset -/

/-- The bytes of a bus transaction in flight that the sink has accepted, as a cut write (log entry 12). -/
def cutWrites (s : State) : List BusWrite :=
  match s.pending with
  | some (.bus (b :: bs) _ _ _) => [⟨s.busSel, s.busAddr, b :: bs⟩]
  | _ => []

/-- The `rst` input (R185): every piece of state takes its reset value; a command in progress is abandoned; items
already accepted stay accepted. The build stays as it is (R6). The contents of unwritten memory and the working registers are new free values. The
environment, the host's script and the host's copy of read data are not the block's state (R22, R186). -/
def resetInput (s : State) : State :=
  { State.resetOf s.build with
    work := Config.freeWorking s.fresh
    bus := s.bus, busCut := s.busCut ++ cutWrites s, led := s.led
    busRoom := s.busRoom, ledRoom := s.ledRoom, clkOk := s.clkOk, slotAvail := s.slotAvail
    inputs := s.inputs, hostData := s.hostData
    epoch := s.epoch + 1, fresh := s.fresh + 1 }

end Sys2Proof.Machine
end

