-- ==== Sys2Proof/Machine/Font.lean ====
section
/-! DEFINITION. The glyph table, `DRAWCHAR` and CHAR (42_font.md). -/

namespace Sys2Proof.Machine

/-- `GIDX(c)` (R110): the glyph index of a character code, none for an unsupported one. -/
def glyphIndex (c : Byte) : Option Nat :=
  let n := c.toNat
  if 0x30 ≤ n ∧ n ≤ 0x39 then some (n - 0x30)
  else if 0x41 ≤ n ∧ n ≤ 0x5A then some (n - 0x41 + 10)
  else if 0x61 ≤ n ∧ n ≤ 0x7A then some (n - 0x61 + 36)
  else if n = 0x2E then some 62
  else if n = 0x2D then some 63
  else if n = 0x23 then some 64
  else if n = 0x20 then some 65
  else none

/-- `MemRead(GLYPH:(g << 3) + i, 1)` (R40). -/
def glyphColumn (P : Params) (g i : Nat) : Byte := P.glyph (8 * g + i)

/-- The running trimmed width after the columns `is` (R112): `if col != 0: gw <- gi` for each. -/
def trimmedWidthFrom (P : Params) (g : Nat) : List Nat → Nat → Nat
  | [], gw => gw
  | i :: is, gw => trimmedWidthFrom P g is (if glyphColumn P g i ≠ 0#8 then i else gw)

/-- The trimmed width of a glyph: the last non-empty column, 0 for an empty glyph (R114). -/
def trimmedWidth (P : Params) (g : Nat) : Nat := trimmedWidthFrom P g (List.range 8) 0

/-- The 64 pixel writes of a cell with top-left corner `(x, y)`, column by column (R112). -/
def cellPixels (P : Params) (g : Nat) (x y : Int) : List Pixel :=
  (List.range 8).flatMap fun (i : Nat) =>
    (List.range 8).map fun (j : Nat) => ⟨x + (i : Int), y + (j : Int), (glyphColumn P g i).getLsbD j⟩

/-- `DRAWCHAR(c, x, y)` (R112, R113, R115): its width and its pixel writes, or the fault it raises first. -/
def drawChar (P : Params) (c : Byte) (x y : Int) : Except Raise (Nat × List Pixel) :=
  if c = 0x20#8 then .ok (3, [])
  else
    match glyphIndex c with
    | none => .error ⟨.char, c.setWidth 16⟩
    | some g => .ok (trimmedWidth P g, cellPixels P g x y)

/-- The font unit's registers after `DRAWCHAR(c, ..)`: a space leaves them as they were (R20, R113). -/
def fontAfter (P : Params) (c : Byte) (f : FontRegs) : FontRegs :=
  if c = 0x20#8 then f
  else
    match glyphIndex c with
    | none => f
    | some g => { gi := 7, gw := BitVec.ofNat 3 (trimmedWidth P g), gidx := BitVec.ofNat 7 g }

/-- CHAR once the display is ready (R112): the cell, then `RV0` = width, `RV1` = 0. -/
def char (c x y : Byte) (s : State) : State :=
  match drawChar s.build c (zext x) (zext y) with
  | .error r => draw .font 8#4 [] (some r) id s
  | .ok (w, ps) =>
    draw .font 8#4 ps none
      (fun s' =>
        complete errOk
          { s' with rv0 := BitVec.ofNat 8 w, rv1 := 0, work := { s'.work with font := fontAfter s.build c s'.work.font } })
      s

/-- The meaning of CHAR (R112). -/
def execChar (c x y : Byte) (s : State) : Host.Outcome State Fault Refusal :=
  .next (whenDisplayReady 8#4 (char c x y) s)

end Sys2Proof.Machine
end

