-- ==== Sys2Proof/WellFormed.lean ====
section
/-! DEFINITION. Which terms of `Instr` the encoding of R53 can express. -/

namespace Sys2Proof

/-- A command word exists for the term. The one operand a field cannot hold in full is DINIT's bus address, whose
bit 7 must be 0 (R52, R54). -/
def WellFormed : Instr → Bool
  | .dinit _ _ busAddr _ => !busAddr.msb
  | .setpix _ _ _ => true
  | .fill _ => true
  | .rect _ _ _ _ _ _ => true
  | .line _ _ _ _ _ => true
  | .hline _ _ _ _ => true
  | .vline _ _ _ _ => true
  | .char _ _ _ => true
  | .string _ _ _ => true
  | .flush => true
  | .minit _ _ => true
  | .mdraw => true

end Sys2Proof
end

