-- ==== Sys2Proof/Decode.lean ====
section
/-! DEFINITION. Decoding and encoding of command words (R50 to R54). `decode` is total: every 40-bit word is one of
the twelve commands or is rejected by name. `encode` is written from the same field table. -/

namespace Sys2Proof

/-- Field `OP`, bits 39:36 (R50). -/
def opField (w : CmdWord) : BitVec 4 := w.extractLsb' 36 4

/-- Field `Z`, bits 35:34, reserved (R50). -/
def zField (w : CmdWord) : BitVec 2 := w.extractLsb' 34 2

/-- Field `F`, bit 33 (R50). -/
def fField (w : CmdWord) : Bool := w.getLsbD 33

/-- Field `V`, bit 32 (R50). -/
def vField (w : CmdWord) : Bool := w.getLsbD 32

/-- Field `A`, bits 31:24 (R50). -/
def aField (w : CmdWord) : Byte := w.extractLsb' 24 8

/-- Field `B`, bits 23:16 (R50). -/
def bField (w : CmdWord) : Byte := w.extractLsb' 16 8

/-- Field `C`, bits 15:8 (R50). -/
def cField (w : CmdWord) : Byte := w.extractLsb' 8 8

/-- Field `D`, bits 7:0 (R50). -/
def dField (w : CmdWord) : Byte := w.extractLsb' 0 8

/-- Bits 39:24 of a word, the `INFO` of `F_ILLEGAL` (R54). -/
def illegalInfo (w : CmdWord) : BitVec 16 := w.extractLsb' 24 16

/-- Why a word is illegal (R54). Every reason takes the same fault, `F_ILLEGAL`. -/
inductive Reject where
  /-- `OP` is 0, 13, 14 or 15. -/
  | reservedOpcode
  /-- `Z` is not 0. -/
  | reservedZ
  /-- `F = 1` on a command other than RECT. -/
  | strayF
  /-- `V = 1` on a command without an `on` operand. -/
  | strayV
  /-- A field the command does not use is not 0. -/
  | unusedField
  /-- Bit 7 of `C` is set on DINIT. -/
  | busAddressBit7
  deriving DecidableEq, Repr

/-- `i`, unless the condition `bad` holds, which rejects the word for the reason `r`. -/
def rejectIf (bad : Bool) (r : Reject) (i : Except Reject Instr) : Except Reject Instr :=
  if bad then .error r else i

/-- The decoder (R53, R54): the command a word is, or why it is illegal. -/
def decode (w : CmdWord) : Except Reject Instr :=
  rejectIf (zField w != 0#2) .reservedZ <|
  match (opField w).toNat with
  | 1 => rejectIf (fField w) .strayF <| rejectIf (vField w) .strayV <|
      rejectIf (cField w).msb .busAddressBit7 <|
      .ok (.dinit (aField w) (bField w) (cField w) (dField w))
  | 2 => rejectIf (fField w) .strayF <| rejectIf (cField w != 0#8 || dField w != 0#8) .unusedField <|
      .ok (.setpix (aField w) (bField w) (vField w))
  | 3 => rejectIf (fField w) .strayF <|
      rejectIf (aField w != 0#8 || bField w != 0#8 || cField w != 0#8 || dField w != 0#8) .unusedField <|
      .ok (.fill (vField w))
  | 4 => .ok (.rect (aField w) (bField w) (cField w) (dField w) (vField w) (fField w))
  | 5 => rejectIf (fField w) .strayF <|
      .ok (.line (aField w) (bField w) (cField w) (dField w) (vField w))
  | 6 => rejectIf (fField w) .strayF <| rejectIf (dField w != 0#8) .unusedField <|
      .ok (.hline (aField w) (bField w) (cField w) (vField w))
  | 7 => rejectIf (fField w) .strayF <| rejectIf (dField w != 0#8) .unusedField <|
      .ok (.vline (aField w) (bField w) (cField w) (vField w))
  | 8 => rejectIf (fField w) .strayF <| rejectIf (vField w) .strayV <| rejectIf (dField w != 0#8) .unusedField <|
      .ok (.char (aField w) (bField w) (cField w))
  | 9 => rejectIf (fField w) .strayF <| rejectIf (vField w) .strayV <| rejectIf (dField w != 0#8) .unusedField <|
      .ok (.string (aField w) (bField w) (cField w))
  | 10 => rejectIf (fField w) .strayF <| rejectIf (vField w) .strayV <|
      rejectIf (aField w != 0#8 || bField w != 0#8 || cField w != 0#8 || dField w != 0#8) .unusedField <|
      .ok .flush
  | 11 => rejectIf (fField w) .strayF <| rejectIf (vField w) .strayV <|
      rejectIf (cField w != 0#8 || dField w != 0#8) .unusedField <|
      .ok (.minit (aField w) (bField w))
  | 12 => rejectIf (fField w) .strayF <| rejectIf (vField w) .strayV <|
      rejectIf (aField w != 0#8 || bField w != 0#8 || cField w != 0#8 || dField w != 0#8) .unusedField <|
      .ok .mdraw
  | _ => .error .reservedOpcode

/-- The command word with the given fields and `Z = 0` (R50). -/
def cmdWord (op : BitVec 4) (f v : Bool) (a b c d : Byte) : CmdWord :=
  op ++ 0#2 ++ BitVec.ofBool f ++ BitVec.ofBool v ++ a ++ b ++ c ++ d

/-- The opcode of a command, the `OP` column of R52. -/
def opcode : Instr → BitVec 4
  | .dinit _ _ _ _ => 1#4
  | .setpix _ _ _ => 2#4
  | .fill _ => 3#4
  | .rect _ _ _ _ _ _ => 4#4
  | .line _ _ _ _ _ => 5#4
  | .hline _ _ _ _ => 6#4
  | .vline _ _ _ _ => 7#4
  | .char _ _ _ => 8#4
  | .string _ _ _ => 9#4
  | .flush => 10#4
  | .minit _ _ => 11#4
  | .mdraw => 12#4

/-- The command word of a command (R52, R53). -/
def encode : Instr → CmdWord
  | .dinit w h a s => cmdWord 1#4 false false w h a s
  | .setpix x y on => cmdWord 2#4 false on x y 0#8 0#8
  | .fill on => cmdWord 3#4 false on 0#8 0#8 0#8 0#8
  | .rect t l w h on filled => cmdWord 4#4 filled on t l w h
  | .line x0 y0 x1 y1 on => cmdWord 5#4 false on x0 y0 x1 y1
  | .hline x0 x1 y on => cmdWord 6#4 false on x0 x1 y 0#8
  | .vline x y0 y1 on => cmdWord 7#4 false on x y0 y1 0#8
  | .char c x y => cmdWord 8#4 false false c x y 0#8
  | .string x y n => cmdWord 9#4 false false x y n 0#8
  | .flush => cmdWord 10#4 false false 0#8 0#8 0#8 0#8
  | .minit ch pin => cmdWord 11#4 false false ch pin 0#8 0#8
  | .mdraw => cmdWord 12#4 false false 0#8 0#8 0#8 0#8

/-- One row of the opcode map of R53: a word `w` is the command when `w &&& mask = pattern`. -/
structure OpcodeRow where
  pattern : CmdWord
  mask : CmdWord
  deriving DecidableEq, Repr

/-- The `match` and `mask` columns of R53, rows DINIT to MDRAW. -/
def opcodeRows : List OpcodeRow :=
  [⟨0x1000000000#40, 0xFF00008000#40⟩, ⟨0x2000000000#40, 0xFE0000FFFF#40⟩, ⟨0x3000000000#40, 0xFEFFFFFFFF#40⟩,
   ⟨0x4000000000#40, 0xFC00000000#40⟩, ⟨0x5000000000#40, 0xFE00000000#40⟩, ⟨0x6000000000#40, 0xFE000000FF#40⟩,
   ⟨0x7000000000#40, 0xFE000000FF#40⟩, ⟨0x8000000000#40, 0xFF000000FF#40⟩, ⟨0x9000000000#40, 0xFF000000FF#40⟩,
   ⟨0xA000000000#40, 0xFFFFFFFFFF#40⟩, ⟨0xB000000000#40, 0xFF0000FFFF#40⟩, ⟨0xC000000000#40, 0xFFFFFFFFFF#40⟩]

/-- The word is an instance of the row (R53). -/
def OpcodeRow.fits (r : OpcodeRow) (w : CmdWord) : Bool := w &&& r.mask == r.pattern

/-- The command whose `nbits` lowest bits are those of `w` and whose other bits are 0, as the decoder reads it. -/
def decodeTableWord (nbits w : Nat) : Option Instr :=
  match decode (BitVec.ofNat 40 (w % 2 ^ nbits)) with
  | .ok i => some i
  | .error _ => none

end Sys2Proof
end

