-- ==== Sys2Proof/Machine/Framebuffer.lean ====
section
/-! DEFINITION. DINIT, SETPIX, FILL and FLUSH (40_framebuffer.md). -/

namespace Sys2Proof.Machine

/-- `(B >> 3) * A + 1`, the buffer size DINIT asks for (R70). -/
def bufferSize (width height : Byte) : Nat := (height >>> 3).toNat * width.toNat + 1

/-- DINIT (R70) in a block of any build (R6): the checks in the order of R167, then the display registers, the header
byte, the power-on writes, `DISP_READY`. -/
def dinit (width height busAddr busSel : Byte) (s : State) : State :=
  if s.dispReady then faultEntry 1#4 ⟨.state, 0⟩ s
  else if height &&& 7#8 ≠ 0#8 then faultEntry 1#4 ⟨.config, height.setWidth 16⟩ s
  else if s.build.fbCapacity < bufferSize width height then complete errAllocation s
  else
    emitBus .dinit (s.build.initCmds.map commandWrite) <| writeFb 0 0x40#8
      { s with
        width := width, height := height, pages := (height >>> 3).setWidth 5
        bufsize := BitVec.ofNat 13 (bufferSize width height)
        busAddr := busAddr.setWidth 7, busSel := busSel }

/-- The meaning of DINIT (R70). -/
def execDinit (width height busAddr busSel : Byte) (s : State) : Host.Outcome State Fault Refusal :=
  .next (dinit width height busAddr busSel s)

/-- The meaning of SETPIX (R71). The one pixel write either happens or faults, so a fault leaves `FB` as it was. -/
def execSetpix (x y : Byte) (on : Bool) (s : State) : Host.Outcome State Fault Refusal :=
  .next <| whenDisplayReady 2#4 (fun s =>
    match pixel ⟨zext x, zext y, on⟩ s with
    | .ok s' => complete errOk s'
    | .error r => faultEntry 2#4 r s) s

/-- The pixel writes of FILL, columns outside, rows inside (R72). -/
def fillPixels (width height : Byte) (on : Bool) : List Pixel :=
  (span 0 (zext width - 1)).flatMap fun x => (span 0 (zext height - 1)).map fun y => ⟨x, y, on⟩

/-- The meaning of FILL (R72). -/
def execFill (on : Bool) (s : State) : Host.Outcome State Fault Refusal :=
  .next <| whenDisplayReady 3#4 (fun s =>
    let ps := fillPixels s.width s.height on
    drawAnyOrder .loops 3#4 ps (fun s' => complete errOk (setLoop ps s')) s) s

/-- The bytes of the bulk write: `FB[0]` to `FB[BUFSIZE - 1]` in increasing order (R73, R36). -/
def bulkBytes (s : State) : List Byte := (List.range s.bufsize.toNat).map (fbByte s)

/-- FLUSH (R73): the address-range command writes, then the whole buffer as one write. -/
def flush (s : State) : State :=
  emitBus .flush ((s.build.flushCmds s.width s.pages).map commandWrite ++ [bulkBytes s]) s

/-- The meaning of FLUSH (R73). -/
def execFlush (s : State) : Host.Outcome State Fault Refusal :=
  .next (whenDisplayReady 10#4 flush s)

end Sys2Proof.Machine
end

