-- ==== Sys2Proof/Machine/Matrix.lean ====
section
/-! DEFINITION. MINIT, MDRAW, the table `SERP` and `ENCODE` (44_led_matrix.md). -/

namespace Sys2Proof.Machine

/-- The meaning of MINIT (R140): state check, clock, slot, then the two registers and `MTX_READY`. -/
def execMinit (channel pin : Byte) (s : State) : Host.Outcome State Fault Refusal :=
  .next <|
    if s.mtxReady then faultEntry 11#4 ⟨.state, 1⟩ s
    else if !s.clkOk then complete errInit s
    else if !s.slotAvail then complete errInit s
    else complete errOk { s with mtxChan := channel, mtxPin := pin, mtxReady := true }

/-- The constant table `SERP`: the logical index emitted at each physical position (R141). -/
def serpTable : List Nat :=
  [24, 23, 22, 21, 20, 15, 16, 17, 18, 19, 14, 13, 12, 11, 10, 5, 6, 7, 8, 9, 4, 3, 2, 1, 0]

/-- `BYTE(v)` (R143): `floor(v * 255 / 32768)` for `v` up to 1.0, the unspecified byte `free` above it (R145). -/
def componentByte (free : Byte) (v : Component) : Byte :=
  if v.toNat ≤ 0x8000 then BitVec.ofNat 8 (v.toNat * 255 / 32768) else free

/-- `ENCODE` (R143): green 31:24, red 23:16, blue 15:8, zero 7:0; `free` gives the byte of an out-of-range green (0),
red (1) or blue (2). -/
def encodeColour (free : Nat → Byte) (e : ColourEntry) : LedWord :=
  componentByte (free 0) (greenOf e) ++ componentByte (free 1) (redOf e) ++ componentByte (free 2) (blueOf e) ++ 0#8

/-- The word of physical position `p` (R142), its out-of-range bytes drawn freely (R145, log entry 14). -/
def ledWordAt (s : State) (p : Nat) : LedWord :=
  encodeColour (fun c => Config.freeLedByte s.fresh (3 * p + c)) (cbufEntry s (serpTable.getD p 0))

/-- The 25 words of a frame in the order of emission (R142). -/
def frameWords (s : State) : List LedWord := (List.range 25).map (ledWordAt s)

/-- The meaning of MDRAW (R142). -/
def execMdraw (s : State) : Host.Outcome State Fault Refusal :=
  .next <|
    if s.mtxReady then sendLed (frameWords s) { s with fresh := s.fresh + 1 }
    else faultEntry 12#4 ⟨.state, 1⟩ s

/-- A host write to `CBUF` or `STRBUF` while MDRAW waits: each colour not yet read may be any (U7, log entry 13). The
word offered to the queue is read already. -/
def tearFrame (s : State) : State :=
  match s.pending with
  | some (.led (w :: ws)) =>
    { s with
      pending := some (.led (w :: (List.range ws.length).map fun i => Config.freeTorn s.fresh i ++ 0#8))
      fresh := s.fresh + 1 }
  | _ => s

end Sys2Proof.Machine
end

