-- ==== Sys2Proof/Machine/Shapes.lean ====
section
/-! DEFINITION. RECT, LINE, HLINE and VLINE (41_shapes_line.md). All coordinate arithmetic is on integers. -/

namespace Sys2Proof.Machine

/-- The pixel writes of RECT in the loop order of R90, with last column `x1` and last row `y1`. -/
def rectPixels (top left x1 y1 : Int) (on filled : Bool) : List Pixel :=
  ((span left x1).flatMap fun x => [⟨x, top, on⟩, ⟨x, y1, on⟩]) ++
  ((span top y1).flatMap fun y => [⟨left, y, on⟩, ⟨x1, y, on⟩]) ++
  if filled then
    (span (left + 1) (x1 - 1)).flatMap fun x => (span (top + 1) (y1 - 1)).map fun y => ⟨x, y, on⟩
  else []

/-- The meaning of RECT (R90). -/
def execRect (top left width height : Byte) (on filled : Bool) (s : State) : Host.Outcome State Fault Refusal :=
  .next <| whenDisplayReady 4#4 (fun s =>
    if width = 0#8 ∨ height = 0#8 then faultEntry 4#4 ⟨.range, infoPair height width⟩ s
    else
      let x1 := zext left + zext width - 1
      let y1 := zext top + zext height - 1
      let ps := rectPixels (zext top) (zext left) x1 y1 on filled
      drawAnyOrder .loops 4#4 ps (fun s' => complete errOk (setLoop ps s')) s) s

/-- The variables of the line loop, as mathematical integers (R91, R95). -/
structure LineVars where
  lx : Int
  ly : Int
  ldx : Int
  ldy : Int
  lsx : Int
  lsy : Int
  lerr : Int
  le2 : Int
  deriving DecidableEq, Repr

/-- The variables before the loop (R91); `le2` keeps what the register held, since the loop writes it before
reading it. -/
def lineStart (x0 y0 x1 y1 le2 : Int) : LineVars :=
  { lx := x0, ly := y0
    ldx := |x1 - x0|, ldy := |y1 - y0|
    lsx := if x0 < x1 then 1 else -1
    lsy := if y0 < y1 then 1 else -1
    lerr := |x1 - x0| - |y1 - y0|
    le2 := le2 }

/-- One iteration after the end test (R91): the doubled error once, then the x branch, then the y branch. -/
def lineStep (v : LineVars) : LineVars :=
  let e2 := 2 * v.lerr
  let xs := if e2 > -v.ldy then { v with lerr := v.lerr - v.ldy, lx := v.lx + v.lsx } else v
  let ys := if e2 < v.ldx then { xs with lerr := xs.lerr + v.ldx, ly := xs.ly + v.lsy } else xs
  { ys with le2 := e2 }

/-- The variables at each pixel of the loop of R91, first to last, with end point `(x1, y1)`; at most `n` steps. -/
def lineVisits (x1 y1 : Int) : (n : Nat) → LineVars → List LineVars
  | 0, v => [v]
  | n + 1, v => if v.lx = x1 ∧ v.ly = y1 then [v] else v :: lineVisits x1 y1 n (lineStep v)

/-- The visits of LINE. The loop ends after `max(ldx, ldy)` steps (R94 (b), log entry 16). -/
def lineRun (x0 y0 x1 y1 le2 : Int) : List LineVars :=
  let v := lineStart x0 y0 x1 y1 le2
  lineVisits x1 y1 (max v.ldx v.ldy).toNat v

/-- The pixel writes of LINE in the order of the loop (R91). -/
def linePixels (x0 y0 x1 y1 : Int) (on : Bool) : List Pixel :=
  (lineRun x0 y0 x1 y1 0).map fun v => ⟨v.lx, v.ly, on⟩

/-- The variables as the registers of the line unit hold them (R20, R95). -/
def LineVars.regs (v : LineVars) : LineRegs :=
  { lx := BitVec.ofInt 10 v.lx, ly := BitVec.ofInt 10 v.ly
    ldx := BitVec.ofInt 8 v.ldx, ldy := BitVec.ofInt 8 v.ldy
    lsx := BitVec.ofInt 2 v.lsx, lsy := BitVec.ofInt 2 v.lsy
    lerr := BitVec.ofInt 11 v.lerr, le2 := BitVec.ofInt 11 v.le2 }

/-- The line unit's registers after the visits `vs` (R20). -/
def setLine (vs : List LineVars) (s : State) : State :=
  match vs.getLast? with
  | some v => { s with work := { s.work with line := v.regs } }
  | none => s

/-- The meaning of LINE (R91). -/
def execLine (x0 y0 x1 y1 : Byte) (on : Bool) (s : State) : Host.Outcome State Fault Refusal :=
  .next <| whenDisplayReady 5#4 (fun s =>
    draw .line 5#4 (linePixels (zext x0) (zext y0) (zext x1) (zext y1) on) none
      (fun s' =>
        complete errOk (setLine (lineRun (zext x0) (zext y0) (zext x1) (zext y1) s.work.line.le2.toInt) s')) s) s

/-- The pixel writes of HLINE (R92). -/
def hlinePixels (x0 x1 y : Int) (on : Bool) : List Pixel := (span x0 x1).map fun x => ⟨x, y, on⟩

/-- The meaning of HLINE (R92). -/
def execHline (x0 x1 y : Byte) (on : Bool) (s : State) : Host.Outcome State Fault Refusal :=
  .next <| whenDisplayReady 6#4 (fun s =>
    if x1 < x0 then faultEntry 6#4 ⟨.range, infoPair x1 x0⟩ s
    else
      let ps := hlinePixels (zext x0) (zext x1) (zext y) on
      draw .loops 6#4 ps none (fun s' => complete errOk (setLoop ps s')) s) s

/-- The pixel writes of VLINE (R93). -/
def vlinePixels (x y0 y1 : Int) (on : Bool) : List Pixel := (span y0 y1).map fun y => ⟨x, y, on⟩

/-- The meaning of VLINE (R93). -/
def execVline (x y0 y1 : Byte) (on : Bool) (s : State) : Host.Outcome State Fault Refusal :=
  .next <| whenDisplayReady 7#4 (fun s =>
    if y1 < y0 then faultEntry 7#4 ⟨.range, infoPair y1 y0⟩ s
    else
      let ps := vlinePixels (zext x) (zext y0) (zext y1) on
      draw .loops 7#4 ps none (fun s' => complete errOk (setLoop ps s')) s) s

end Sys2Proof.Machine
end

