-- ==== Sys2Proof/Machine/Text.lean ====
section
/-! DEFINITION. STRING (43_text.md): layout with wrap and truncation. -/

namespace Sys2Proof.Machine

/-- The text cursor `tx`, `ty`, the character index `ti` and the font unit's registers (R20, R125). -/
structure TextVars where
  tx : Int
  ty : Int
  ti : Nat
  font : FontRegs
  deriving DecidableEq, Repr

/-- What STRING draws: the pixel writes in order, the `F_CHAR` that ends them if there is one, and the variables at
the end (R125). -/
structure TextPlan where
  writes : List Pixel
  stop : Option Raise
  vars : TextVars
  deriving DecidableEq, Repr

/-- The loop guard `ty + 8 < HEIGHT` (R127). -/
def rowFits (s : State) (ty : Int) : Bool := decide (ty + 8 < zext s.height)

/-- The advance by `w + 2` and the wrap test after it (R125, R126). -/
def advance (s : State) (w : Nat) (v : TextVars) : TextVars :=
  let tx := v.tx + (w : Int) + 2
  if tx > zext s.width - 8 then { v with tx := 0, ty := v.ty + 8, ti := v.ti + 1 }
  else { v with tx := tx, ti := v.ti + 1 }

/-- The loop of STRING with `n` characters left (R125). Which pixels it writes does not depend on `FB`, so the layout
is computed first and drawn after. -/
def layout (s : State) : (n : Nat) → TextVars → TextPlan
  | 0, v => ⟨[], none, v⟩
  | n + 1, v =>
    if rowFits s v.ty then
      let c := strbufByte s v.ti
      match drawChar s.build c v.tx v.ty with
      | .error r => ⟨[], some r, v⟩
      | .ok (w, ps) =>
        let rest := layout s n (advance s w { v with font := fontAfter s.build c v.font })
        { rest with writes := ps ++ rest.writes }
    else ⟨[], none, v⟩

/-- The layout of `STRING x, y, len` (R125). -/
def stringPlan (x y len : Byte) (s : State) : TextPlan :=
  layout s len.toNat ⟨zext x, zext y, 0, s.work.font⟩

/-- STRING once the display is ready (R125): the characters, then `RV0` = `tx`, `RV1` = `ty`. -/
def string (x y len : Byte) (s : State) : State :=
  let plan := stringPlan x y len s
  let v := plan.vars
  draw .text 9#4 plan.writes plan.stop
    (fun s' =>
      complete errOk
        { s' with
          rv0 := BitVec.ofInt 8 v.tx, rv1 := BitVec.ofInt 8 v.ty
          work :=
            { s'.work with
              font := v.font
              text := ⟨BitVec.ofInt 10 v.tx, BitVec.ofInt 10 v.ty, BitVec.ofNat 8 v.ti⟩ } })
    s

/-- The meaning of STRING (R125). -/
def execString (x y len : Byte) (s : State) : Host.Outcome State Fault Refusal :=
  .next (whenDisplayReady 9#4 (string x y len) s)

end Sys2Proof.Machine
end

