-- ==== Sys2Proof/Machine/Dispatch.lean ====
section
/-! DEFINITION. `exec`: the meaning of each command, run once it is accepted (R160). One arm per constructor. -/

namespace Sys2Proof.Machine

def exec (i : Instr) (s : State) : Host.Outcome State Fault Refusal :=
  match i with
  | .dinit width height busAddr busSel => Sys2Proof.Machine.execDinit width height busAddr busSel s
  | .setpix x y on => Sys2Proof.Machine.execSetpix x y on s
  | .fill on => Sys2Proof.Machine.execFill on s
  | .rect top left width height on filled => Sys2Proof.Machine.execRect top left width height on filled s
  | .line x0 y0 x1 y1 on => Sys2Proof.Machine.execLine x0 y0 x1 y1 on s
  | .hline x0 x1 y on => Sys2Proof.Machine.execHline x0 x1 y on s
  | .vline x y0 y1 on => Sys2Proof.Machine.execVline x y0 y1 on s
  | .char code x y => Sys2Proof.Machine.execChar code x y s
  | .string x y len => Sys2Proof.Machine.execString x y len s
  | .flush => Sys2Proof.Machine.execFlush s
  | .minit channel pin => Sys2Proof.Machine.execMinit channel pin s
  | .mdraw => Sys2Proof.Machine.execMdraw s

end Sys2Proof.Machine
end

