-- ==== Sys2Proof/Machine/HostPort.lean ====
section
/-! DEFINITION. The host's port: acceptance of a command word (R160), the register map (R14), and the effect of each
input of the model (R10, R19, R174). -/

namespace Sys2Proof.Machine

/-- A write of the word `w` to `CMD` (R160): ignored while `BUSY` or `FAULT`, else accepted, decoded and run, or
faulted as illegal (R54). -/
def issue (w : CmdWord) (s : State) : Host.Outcome State Fault Refusal :=
  if s.busy || s.fault then .next s
  else
    let s' := { s with busy := true, cmd := w }
    match decode w with
    | .ok i => exec i s'
    | .error _ => .next (faultEntry (opField w) ⟨.illegal, illegalInfo w⟩ s')

/-- The address of `CMD` (R14). -/
def cmdAddress : Nat := 0x00

/-- The address of `CBUF[k]` (R14). -/
def cbufAddress (k : Nat) : Nat := 0x40 + k

/-- The address of `STRBUF[i]` (R14). -/
def strbufAddress (i : Nat) : Nat := 0x100 + i

/-- A host write to `CBUF[k]` (R14, R17); while MDRAW waits it tears the frame (U7). -/
def writeCbuf (k : Nat) (v : ColourEntry) (s : State) : State :=
  let s' := if s.busy then tearFrame s else s
  { s' with cbuf := cellWrite s'.cbuf k v }

/-- A host write to `STRBUF[i]` (R14, R17); while MDRAW waits it too tears the frame (R169, R196, U7). STRING, which
reads `STRBUF`, never waits (R191). -/
def writeStrbuf (i : Nat) (v : Byte) (s : State) : State :=
  let s' := if s.busy then tearFrame s else s
  { s' with strbuf := cellWrite s'.strbuf i v }

/-- A host write of the register map (R14). A write to a read-only register or to an address not in the map has no
effect. Each register takes the low bits of its width (log entry 3). -/
def hostWrite (a : Nat) (v : BitVec 48) (s : State) : Host.Outcome State Fault Refusal :=
  if a = cmdAddress then issue (v.setWidth 40) s
  else if cbufAddress 0 ≤ a ∧ a ≤ cbufAddress 24 then .next (writeCbuf (a - cbufAddress 0) v s)
  else if strbufAddress 0 ≤ a ∧ a ≤ strbufAddress 254 then
    .next (writeStrbuf (a - strbufAddress 0) (v.setWidth 8) s)
  else .next s

/-- The value a host read of the register map returns (R14): 0 for `CMD` and for an address not in the map. -/
def hostRead (a : Nat) (s : State) : BitVec 48 :=
  if a = 0x01 then (statusWord s).setWidth 48
  else if a = 0x02 then (resultWord s).setWidth 48
  else if a = 0x03 then (fcauseWord s).setWidth 48
  else if a = 0x04 then (cfg0 s).setWidth 48
  else if a = 0x05 then (cfg1 s).setWidth 48
  else if a = 0x06 then (cfg2 s).setWidth 48
  else if cbufAddress 0 ≤ a ∧ a ≤ cbufAddress 24 then cbufEntry s (a - cbufAddress 0)
  else if strbufAddress 0 ≤ a ∧ a ≤ strbufAddress 254 then (strbufByte s (a - strbufAddress 0)).setWidth 48
  else 0

/-- The effect of one input. A change of a sink lets a waiting command go on (R19). -/
def react (e : Input) (s : State) : Host.Outcome State Fault Refusal :=
  match e with
  | .write a v => hostWrite a v s
  | .read a => .next { s with hostData := hostRead a s }
  | .reset => .next (resetInput s)
  | .busRoom r => .next (resume { s with busRoom := r })
  | .ledRoom r => .next (resume { s with ledRoom := r })
  | .clk ok => .next { s with clkOk := ok }
  | .slot free => .next { s with slotAvail := free }
  | .ledShift n => .next { s with ledQueue := s.ledQueue.drop n }

/-- With no input left the block does nothing, but a waiting command goes on as far as its sink lets it (R10, R19). -/
def idle (s : State) : Host.Outcome State Fault Refusal := .next (resume s)

/-- The input that writes the command whose `nbits` lowest bits are those of `w` and whose other bits are 0. -/
def fetchInput (nbits w : Nat) : Input := .write cmdAddress (BitVec.ofNat 48 (w % 2 ^ nbits % 2 ^ 40))

end Sys2Proof.Machine
end

