-- ==== Sys2Proof/Machine/Step.lean ====
section
/-! DEFINITION. One step of the machine: the next host action or environment event takes effect (R160, R174). The
block fetches nothing (R12): a command comes from the host, as the head of `inputs` (log entry 1). -/

namespace Sys2Proof.Machine

/-- One step: the head of `inputs`, or, when none is left, a step without one. -/
def step (s : State) : Host.Outcome State Fault Refusal :=
  match s.inputs with
  | [] => idle s
  | e :: es => react e { s with inputs := es }

/-- `s` with the host about to write the given command to `CMD`, so that the very next step runs it. -/
def State.withFetchWord (s : State) (nbits w : Nat) : State :=
  { s with inputs := fetchInput nbits w :: s.inputs }

end Sys2Proof.Machine
end

