-- ==== Sys2Proof/Safety.lean ====
section
/-! DEFINITION. Runs and their ends (R174), the invariant of the block, and the terms the statements are written in. -/

namespace Sys2Proof.Machine

/-! ## The block of a build (R6) -/

/-- The machine of a block of build `P`: `Sys2Proof.core`, which is that of the default build, from the reset state of
`P`. -/
def coreOf (P : Params) : Host.Core := { Sys2Proof.core with reset := State.resetOf P }

/-! ## Runs and their ends (R174)

`step` also answers for a host that acts while `BUSY = 1` and for `rst`. A run of R174 has neither. -/

/-- A host action of a run (R174). -/
inductive HostAction where
  /-- A write of a command word to `CMD`. -/
  | command (w : CmdWord)
  /-- A write of `CBUF[k]`. -/
  | colour (k : Fin 25) (v : ColourEntry)
  /-- A write of `STRBUF[i]`. -/
  | character (i : Fin 255) (c : Byte)
  /-- A read of `STATUS`. -/
  | readStatus
  /-- A read of `RESULT`. -/
  | readResult
  /-- A read of `FCAUSE`. -/
  | readFcause
  deriving DecidableEq, Repr

/-- The access of the register map that a host action is (R14). -/
def HostAction.input : HostAction → Input
  | .command w => .write cmdAddress (w.setWidth 48)
  | .colour k v => .write (cbufAddress k) v
  | .character i c => .write (strbufAddress i) (c.setWidth 48)
  | .readStatus => .read 0x01
  | .readResult => .read 0x02
  | .readFcause => .read 0x03

/-- A change of an environment input (R19), or words leaving the LED output queue (R21). -/
inductive EnvEvent where
  | busRoom (r : Room)
  | ledRoom (r : Room)
  | clk (ok : Bool)
  | slot (free : Bool)
  | ledShift (n : Nat)
  deriving DecidableEq, Repr

/-- The input of `step` that an environment event is. -/
def EnvEvent.input : EnvEvent → Input
  | .busRoom r => .busRoom r
  | .ledRoom r => .ledRoom r
  | .clk ok => .clk ok
  | .slot free => .slot free
  | .ledShift n => .ledShift n

/-- The environment inputs for a whole run: the events before each of its ticks. -/
abbrev Environment := Nat → List EnvEvent

/-- A run so far: the block, and the host actions not yet issued. -/
structure RunState where
  state : State
  rest : List HostAction
  deriving DecidableEq, Repr

/-- The state one step leads to from `s` with the inputs `es` before it. -/
def stepped (es : List Input) (s : State) : State :=
  match step { s with inputs := es } with
  | .next t => t
  | .fault _ => s
  | .refused _ => s

/-- One tick of a run: the environment's events, and then, while `BUSY = 1`, a wait, else the host's next action. -/
def tick (events : List EnvEvent) (c : RunState) : RunState :=
  let s := events.foldl (fun s e => stepped [e.input] s) c.state
  if s.busy then { c with state := stepped [] s }
  else
    match c.rest with
    | [] => { c with state := s }
    | a :: rest => ⟨stepped [a.input] s, rest⟩

/-- The run of the host actions `as` in the environment `env`, from the reset state of the block of build `P`, after
`n` ticks. -/
def runAt (P : Params) (env : Environment) (as : List HostAction) : Nat → RunState
  | 0 => ⟨State.resetOf P, as⟩
  | n + 1 => tick (env n) (runAt P env as n)

/-- A completed run: every action issued, `BUSY = 0` and `FAULT = 0`. The only final state. -/
def RunState.completed (c : RunState) : Prop := c.rest = [] ∧ c.state.busy = false ∧ c.state.fault = false

/-- End (a): the run comes to its final state. Each action was issued with `BUSY = 0` and `FAULT = 0`, so each command
was accepted and ended in `OK` or a reported error. -/
def Completed (P : Params) (env : Environment) (as : List HostAction) : Prop := ∃ n, (runAt P env as n).completed

/-- End (b): some command raised a fault. Never final. -/
def Faulted (P : Params) (env : Environment) (as : List HostAction) : Prop := ∃ n, (runAt P env as n).state.fault = true

/-- End (c): from some tick on a command waits for ever. The rest of the list is never issued. -/
def Hung (P : Params) (env : Environment) (as : List HostAction) : Prop :=
  ∃ n, ∀ m, n ≤ m → (runAt P env as m).state.busy = true

/-- What can be observed of a completed run. -/
structure Observation where
  fb : List Byte
  cfg0 : BitVec 32
  cfg1 : BitVec 32
  cfg2 : BitVec 16
  status : BitVec 8
  result : BitVec 16
  bus : List BusWrite
  led : List LedWord
  deriving DecidableEq, Repr

/-- The observation of R174: `FB[0]` to `FB[BUFSIZE - 1]`, the configuration, `STATUS`, `RESULT` and both traces. -/
def observe (s : State) : Observation :=
  { fb := bulkBytes s, cfg0 := cfg0 s, cfg1 := cfg1 s, cfg2 := cfg2 s, status := statusWord s, result := resultWord s
    bus := s.bus, led := s.led }

/-! ## The invariant -/

/-- The display registers as a successful DINIT leaves them (R5, R70), and the header byte (R16, R34). -/
structure Geometry (s : State) : Prop where
  height_multiple : s.height.toNat % 8 = 0
  pages_eq : s.pages.toNat = s.height.toNat / 8
  bufsize_eq : s.bufsize.toNat = s.pages.toNat * s.width.toNat + 1
  fits : s.bufsize.toNat ≤ s.build.fbCapacity
  header : cellRead s.fb 0 = some 0x40#8

/-- One of the two shapes of a bus transaction (R74): a command write `[0x80, b]` or a data write that begins with
`0x40`. -/
def Framed (bytes : List Byte) : Prop := (∃ b, bytes = commandWrite b) ∨ bytes.head? = some 0x40#8

/-- The waiting output is that of a command that may be waiting: framed transactions of DINIT before, or FLUSH after,
`DISP_READY`; LED words with bits 7:0 zero of a ready matrix. -/
def PendingOk (s : State) : Pending → Prop
  | .bus sent todo rest d =>
    Geometry s ∧ Framed (sent ++ todo) ∧ (∀ t ∈ rest, Framed t) ∧ s.dispReady = (d == .flush)
  | .led words => s.mtxReady = true ∧ ∀ w ∈ words, w.extractLsb' 0 8 = 0#8

/-- The invariant of the block: what holds between any two inputs. -/
structure BlockInv (s : State) : Prop where
  /-- The memories keep their canonical form, within their spaces (R15). -/
  fb_wf : s.fb.wf = true ∧ cellsBelow s.build.fbCapacity s.fb = true
  cbuf_wf : s.cbuf.wf = true ∧ cellsBelow 25 s.cbuf = true
  strbuf_wf : s.strbuf.wf = true ∧ cellsBelow Config.strMax s.strbuf = true
  /-- A ready display has the geometry DINIT gave it, header byte included (R16, R70). -/
  ready_geometry : s.dispReady = true → Geometry s
  /-- `BUSY` is 1 exactly while a command waits for a sink (R13, R19). -/
  busy_iff : s.busy = s.pending.isSome
  pending_ok : ∀ p, s.pending = some p → PendingOk s p
  /-- `FCAUSE` is 0 and `ERR` is not 3 while `FAULT = 0` (R13, R164). -/
  clean : s.fault = false → s.cause = 0#4 ∧ s.op = 0#4 ∧ s.info = 0#16 ∧ s.err ≠ 3#2
  /-- A faulted block is not busy, and its cause is one of the six (R164, R165). -/
  faulted : s.fault = true → s.busy = false ∧ 1 ≤ s.cause.toNat ∧ s.cause.toNat ≤ 6
  /-- Every bus transaction has one of the two shapes (R74). -/
  bus_framed : ∀ t ∈ s.bus, Framed t.bytes
  /-- Bits 7:0 of every LED word are 0 (R143, R148). -/
  led_low : ∀ w ∈ s.led, w.extractLsb' 0 8 = 0#8
  /-- The words in the output queue are the latest of the `LED` trace (R21). -/
  queue_suffix : s.ledQueue <:+ s.led

/-! ## Terms of the statements -/

/-- Pixel `(x, y)` is bit `b` of byte `a` (R30, R31). -/
def hits (x y : Int) (a b : Nat) : Prop := pixelAddr x y = (a : Int) ∧ pixelBit y = b

/-- From `s` to `t` exactly the framebuffer bits of the pixels in `S` take the value `on`; every other bit of every
byte is as it was. -/
def paints (s t : State) (on : Bool) (S : Int → Int → Prop) : Prop :=
  ∀ a b : Nat, b < 8 →
    ((∃ x y, S x y ∧ hits x y a b) → fbBit t a b = on) ∧
    ((¬ ∃ x y, S x y ∧ hits x y a b) → fbBit t a b = fbBit s a b)

/-- The display has the source's geometry: `HEIGHT = 64` and a buffer of 8 bytes a column (R5, R35). -/
def Height64 (s : State) : Prop := s.height = 64#8 ∧ s.bufsize.toNat = 8 * s.width.toNat + 1

/-- The columns and rows of a RECT that its pixel writes cover (R90): the whole rectangle when filled, else its
border. -/
def inRect (top left width height : Int) (filled : Bool) (x y : Int) : Prop :=
  left ≤ x ∧ x < left + width ∧ top ≤ y ∧ y < top + height ∧
    (filled = true ∨ x = left ∨ x = left + width - 1 ∨ y = top ∨ y = top + height - 1)

/-- The pixels a LINE visits (R91). -/
def onLine (x0 y0 x1 y1 : Int) (x y : Int) : Prop := ∃ v ∈ lineRun x0 y0 x1 y1 0, v.lx = x ∧ v.ly = y

/-- From `s` to `t` the fault `r` is taken by a command with opcode `opc` before it had any effect (R165): `FAULT` and
`FCAUSE` are written, `BUSY` cleared, `ERR` and `RESULT` hold some value, and everything else of the block is as it
was. -/
def entersFault (opc : BitVec 4) (r : Raise) (s t : State) : Prop :=
  ∃ e v0 v1, t =
    { s with
      fault := true, cause := r.cause.code, op := opc, info := r.info, busy := false, pending := none
      err := e, rv0 := v0, rv1 := v1, fresh := s.fresh + 1 }

/-- From `s` to `t` the fault `r` is taken by a drawing command with pixel writes `ps` (R165): as `entersFault`, but
each framebuffer bit is as it was or as one of those writes that is in range leaves it, and the working registers of
the drawing units hold some value. -/
def entersFaultMidway (opc : BitVec 4) (r : Raise) (ps : List Pixel) (s t : State) : Prop :=
  (∃ m wk, wk.mp = s.work.mp ∧ entersFault opc r { s with fb := m, work := wk } t) ∧
  ∀ a b : Nat, b < 8 →
    fbBit t a b = fbBit s a b ∨
      ∃ p ∈ ps, pixelOk s p = true ∧ hits p.x p.y a b ∧ fbBit t a b = p.on

/-- A command of the display half (R2). -/
def isDisplayCommand : Instr → Bool
  | .minit _ _ => false
  | .mdraw => false
  | .dinit _ _ _ _ | .setpix _ _ _ | .fill _ | .rect _ _ _ _ _ _ | .line _ _ _ _ _ | .hline _ _ _ _
  | .vline _ _ _ _ | .char _ _ _ | .string _ _ _ | .flush => true

/-- A command that draws into `FB` and emits nothing (R75 (c)). -/
def isDrawing : Instr → Bool
  | .dinit _ _ _ _ => false
  | .flush => false
  | .minit _ _ => false
  | .mdraw => false
  | .setpix _ _ _ | .fill _ | .rect _ _ _ _ _ _ | .line _ _ _ _ _ | .hline _ _ _ _ | .vline _ _ _ _
  | .char _ _ _ | .string _ _ _ => true

/-- The pixel writes of a drawing command in state `s`, in the order of its pseudocode; none where an operand check
ends it first. -/
def commandPixels : Instr → State → List Pixel
  | .setpix x y on, _ => [⟨zext x, zext y, on⟩]
  | .fill on, s => fillPixels s.width s.height on
  | .rect top left width height on filled, _ =>
    if width = 0#8 ∨ height = 0#8 then []
    else
      rectPixels (zext top) (zext left) (zext left + zext width - 1) (zext top + zext height - 1) on filled
  | .line x0 y0 x1 y1 on, _ => linePixels (zext x0) (zext y0) (zext x1) (zext y1) on
  | .hline x0 x1 y on, _ => hlinePixels (zext x0) (zext x1) (zext y) on
  | .vline x y0 y1 on, _ => vlinePixels (zext x) (zext y0) (zext y1) on
  | .char c x y, s =>
    match drawChar s.build c (zext x) (zext y) with
    | .ok (_, ps) => ps
    | .error _ => []
  | .string x y len, s => (stringPlan x y len s).writes
  | .dinit _ _ _ _, _ | .flush, _ | .minit _ _, _ | .mdraw, _ => []

end Sys2Proof.Machine
end

