-- ==== Sys2Proof/Certificates/Slice0/Obligations.lean ====
section
/-! DEFINITION. The statements for the provers, each a proposition about the machine. Free values (Config) occur only
where a statement says that a value is one of them; no statement rests on what one is. -/

open Sys2Proof Sys2Proof.Machine

/-! ## Encoding -/

/-- R53: words written out from the patterns of the opcode map decode to the commands they stand for. -/
def Obligations.SpecWordsDecode : Prop :=
  decode 0x1080403C00#40 = .ok (.dinit 128 64 0x3C 0) ∧
  decode 0x217F3F0000#40 = .ok (.setpix 127 63 true) ∧
  decode 0x3100000000#40 = .ok (.fill true) ∧
  decode 0x4302010403#40 = .ok (.rect 2 1 4 3 true true) ∧
  decode 0x5100000502#40 = .ok (.line 0 0 5 2 true) ∧
  decode 0x6103060900#40 = .ok (.hline 3 6 9 true) ∧
  decode 0x7103070900#40 = .ok (.vline 3 7 9 true) ∧
  decode 0x8041030400#40 = .ok (.char 0x41 3 4) ∧
  decode 0x9076000200#40 = .ok (.string 118 0 2) ∧
  decode 0xA000000000#40 = .ok .flush ∧
  decode 0xB000070000#40 = .ok (.minit 0 7) ∧
  decode 0xC000000000#40 = .ok .mdraw

/-- R52, R53: every well-formed command decodes from its word with every operand as it was. -/
def Obligations.DecodeOfEncodeIsTheCommand : Prop :=
  ∀ i : Instr, WellFormed i = true → decode (encode i) = .ok i

/-- R53, R54: a word that decodes is the word of a well-formed command, so no two words are one command. -/
def Obligations.EncodeOfDecodeIsTheWord : Prop :=
  ∀ (w : CmdWord) (i : Instr), decode w = .ok i → WellFormed i = true ∧ encode i = w

/-- R53, R54: the decoder accepts exactly the words that fit a row of the opcode map, and no word fits two rows. -/
def Obligations.DecoderAcceptsExactlyTheOpcodeMap : Prop :=
  (∀ w : CmdWord, (∃ i, decode w = .ok i) ↔ ∃ r ∈ opcodeRows, r.fits w = true) ∧
  ∀ w : CmdWord, ∀ r₁ ∈ opcodeRows, ∀ r₂ ∈ opcodeRows, r₁.fits w = true → r₂.fits w = true → r₁ = r₂

/-! ## Reset -/

/-- R6, R11, R13, R18, R185: the state after reset of a block of any build, where the spec gives it. `State.reset` is
that of the default build, whose `FB_CAPACITY` is 1025. The state carries the build (log entry 10). An entry of `FB`,
`CBUF` or `STRBUF` that nothing has written holds a free value (log entry 5). -/
def Obligations.ResetStateIsAsSpecified : Prop :=
  (State.reset = State.resetOf Config.params ∧ State.reset.build.fbCapacity = 1025) ∧ ∀ P : Params,
  let s := State.resetOf P
  s.build = P ∧ s.width = 0 ∧ s.height = 0 ∧ s.pages = 0 ∧ s.bufsize = 0 ∧ s.busAddr = 0 ∧ s.busSel = 0 ∧
  s.mtxChan = 0 ∧ s.mtxPin = 0 ∧ statusWord s = 0 ∧ resultWord s = 0 ∧ fcauseWord s = 0 ∧
  s.bus = [] ∧ s.led = [] ∧ s.ledQueue = [] ∧ s.pending = none ∧
  (∀ a, fbByte s a = Config.freeFb s.epoch a) ∧ (∀ k, cbufEntry s k = Config.freeCbuf s.epoch k) ∧
  ∀ i, strbufByte s i = Config.freeStrbuf s.epoch i

/-- R185, R21: the `rst` input in any state, a command in progress included, gives the block its reset values and
empties the LED output queue. The build stays as it is (log entry 10). By the model's choice both traces, the other
inputs to come and the accepted bytes of a bus write that the reset cuts short, held apart from the trace, are kept
(log entries 12 and 20); the working registers (log entry 6) and unwritten memory (log entry 5) hold new free values. -/
def Obligations.RstInputResetsTheBlock : Prop :=
  ∀ (s : State) (es : List Input), s.inputs = .reset :: es →
    ∃ t, step s = .next t ∧
      t.build = s.build ∧ t.width = 0 ∧ t.height = 0 ∧ t.pages = 0 ∧ t.bufsize = 0 ∧ t.busAddr = 0 ∧ t.busSel = 0 ∧
      t.mtxChan = 0 ∧ t.mtxPin = 0 ∧ statusWord t = 0 ∧ resultWord t = 0 ∧ fcauseWord t = 0 ∧
      t.bus = s.bus ∧ t.led = s.led ∧ t.pending = none ∧ t.ledQueue = [] ∧ t.inputs = es ∧
      t.work = Config.freeWorking s.fresh ∧
      (∀ sent todo rest d, s.pending = some (.bus sent todo rest d) → sent ≠ [] →
        t.busCut = s.busCut ++ [⟨s.busSel, s.busAddr, sent⟩]) ∧
      ((¬ ∃ sent todo rest d, s.pending = some (.bus sent todo rest d) ∧ sent ≠ []) → t.busCut = s.busCut) ∧
      (∀ a, fbByte t a = Config.freeFb (s.epoch + 1) a) ∧ (∀ k, cbufEntry t k = Config.freeCbuf (s.epoch + 1) k) ∧
      ∀ i, strbufByte t i = Config.freeStrbuf (s.epoch + 1) i

/-! ## Acceptance, completion, hangs -/

/-- R160: a command word written to `CMD` while the block is neither busy nor faulted runs as the command it decodes
to. By the model's choice the word is the low 40 of the 48 bits written (log entry 3), `CMD` latches it (log entry 4),
and the command runs on the state with `BUSY` = 1 (log entry 19). -/
def Obligations.StepRunsTheDecodedCommand : Prop :=
  ∀ (s : State) (v : BitVec 48) (es : List Input) (i : Instr),
    s.inputs = .write cmdAddress v :: es → s.busy = false → s.fault = false → decode (v.setWidth 40) = .ok i →
    step s = exec i { s with inputs := es, busy := true, cmd := v.setWidth 40 }

/-- R54, R164, R165: an illegal word takes `F_ILLEGAL` with `INFO = w[39:24]`. By the model's choice the word is the
low 40 of the 48 bits written (log entry 3), `CMD` latches it (log entry 4), and `ERR` and `RESULT` hold free values as
after any fault (log entry 7). Nothing else changes. -/
def Obligations.IllegalWordTakesFault : Prop :=
  ∀ (s : State) (v : BitVec 48) (es : List Input) (r : Reject),
    s.inputs = .write cmdAddress v :: es → s.busy = false → s.fault = false → decode (v.setWidth 40) = .error r →
    ∃ t, step s = .next t ∧
      entersFault ((v.setWidth 40 : CmdWord).extractLsb' 36 4) ⟨.illegal, (v.setWidth 40 : CmdWord).extractLsb' 24 16⟩
        { s with inputs := es, cmd := v.setWidth 40 } t

/-- R14, R160: a command word written while the block is busy or faulted is ignored. -/
def Obligations.CommandIgnoredWhileBusyOrFaulted : Prop :=
  ∀ (s : State) (v : BitVec 48) (es : List Input),
    s.inputs = .write cmdAddress v :: es → s.busy = true ∨ s.fault = true →
    step s = .next { s with inputs := es }

/-- R160, R167: from an accepted state every command ends in exactly one of: waiting for a sink, an error code of
0, 1 or 2 with no fault, or a fault. No command stops the machine. -/
def Obligations.EveryCommandHasExactlyOneOutcome : Prop :=
  ∀ (i : Instr) (s : State), s.fault = false →
    ∃ t, exec i s = .next t ∧
      ((t.busy = true ∧ t.fault = false ∧ t.pending.isSome = true) ∨
       (t.busy = false ∧ t.fault = false ∧ t.pending = none ∧ (t.err = 0 ∨ t.err = 1 ∨ t.err = 2)) ∨
       (t.busy = false ∧ t.fault = true ∧ t.pending = none ∧ t.op = opcode i ∧
        2 ≤ t.cause.toNat ∧ t.cause.toNat ≤ 6))

/-- R191, R75 (c): a drawing command never waits on a sink and emits nothing. -/
def Obligations.DrawingCommandsNeverWaitOrEmit : Prop :=
  ∀ (i : Instr) (s t : State), isDrawing i = true → exec i s = .next t →
    t.busy = false ∧ t.bus = s.bus ∧ t.led = s.led ∧ t.ledQueue = s.ledQueue ∧ t.busRoom = s.busRoom ∧
    t.ledRoom = s.ledRoom

/-- R170, R19: a command whose sink refuses waits for ever, whatever the inputs are, if none of them is `rst` or
changes that sink: nothing times out, nothing is emitted, no fault is taken. What waits stays the same for the bus.
For MDRAW the word on offer and the number of words stay the same; a host write to `CBUF` or `STRBUF` may spoil the
words after it (log entry 13). -/
def Obligations.StalledCommandHangsForEver : Prop :=
  ∀ s : State, s.busy = true →
    (∀ sent todo rest d, s.pending = some (.bus sent todo rest d) → todo ≠ [] → s.busRoom = .limited 0 →
      (∀ e ∈ s.inputs, e ≠ .reset ∧ ∀ r, e ≠ .busRoom r) →
      ∀ n, ∃ t, Host.Core.run Sys2Proof.core n s = .next t ∧ t.busy = true ∧ t.pending = s.pending ∧ t.bus = s.bus ∧
        t.led = s.led ∧ t.fault = s.fault) ∧
    (∀ w ws, s.pending = some (.led (w :: ws)) → s.ledRoom = .limited 0 →
      (∀ e ∈ s.inputs, e ≠ .reset ∧ ∀ r, e ≠ .ledRoom r) →
      ∀ n, ∃ t ws', Host.Core.run Sys2Proof.core n s = .next t ∧ t.busy = true ∧ t.pending = some (.led (w :: ws')) ∧
        ws'.length = ws.length ∧ t.bus = s.bus ∧ t.led = s.led ∧ t.fault = s.fault)

/-- R19, R38: a bus command that stalls after `j` bytes and goes on when the sink takes `k` more has the outcome it
has with a sink that takes `j + k` at once: however its output is sliced, nothing is lost, doubled or reordered (log
entry 11). -/
def Obligations.BusStallLosesNothing : Prop :=
  ∀ (i : Instr) (s t u : State) (j k : Nat) (es : List Input),
    isDisplayCommand i = true → exec i { s with busRoom := .limited j } = .next t → t.pending.isSome = true →
    step { t with inputs := .busRoom (.limited k) :: es } = .next u →
    exec i { s with busRoom := .limited (j + k) } = .next { u with inputs := s.inputs }

/-- R19, R142: the same for MDRAW and the LED queue (log entry 11). -/
def Obligations.LedStallLosesNothing : Prop :=
  ∀ (s t u : State) (j k : Nat) (es : List Input),
    exec .mdraw { s with ledRoom := .limited j } = .next t → t.pending.isSome = true →
    step { t with inputs := .ledRoom (.limited k) :: es } = .next u →
    exec .mdraw { s with ledRoom := .limited (j + k) } = .next { u with inputs := s.inputs }

/-! ## Faults -/

/-- R164: the `F_STATE` row. `INFO` is 0 for the display half and 1 for the matrix half. -/
def Obligations.UninitialisedOrReinitialisedHalfFaults : Prop :=
  (∀ (i : Instr) (s : State), isDisplayCommand i = true → opcode i ≠ 1#4 → s.dispReady = false →
    ∃ t, exec i s = .next t ∧ entersFault (opcode i) ⟨.state, 0⟩ s t) ∧
  (∀ (w h a b : Byte) (s : State), s.dispReady = true →
    ∃ t, exec (.dinit w h a b) s = .next t ∧ entersFault 1#4 ⟨.state, 0⟩ s t) ∧
  (∀ s : State, s.mtxReady = false → ∃ t, exec .mdraw s = .next t ∧ entersFault 12#4 ⟨.state, 1⟩ s t) ∧
  (∀ (ch pin : Byte) (s : State), s.mtxReady = true →
    ∃ t, exec (.minit ch pin) s = .next t ∧ entersFault 11#4 ⟨.state, 1⟩ s t)

/-- R90, R92, R93, R164: the `F_RANGE` row. -/
def Obligations.EmptyOrReversedRangeFaults : Prop :=
  ∀ s : State, s.dispReady = true →
    (∀ (top left w h : Byte) (on filled : Bool), w = 0 ∨ h = 0 →
      ∃ t, exec (.rect top left w h on filled) s = .next t ∧ entersFault 4#4 ⟨.range, h ++ w⟩ s t) ∧
    (∀ (x0 x1 y : Byte) (on : Bool), x1.toNat < x0.toNat →
      ∃ t, exec (.hline x0 x1 y on) s = .next t ∧ entersFault 6#4 ⟨.range, x1 ++ x0⟩ s t) ∧
    (∀ (x y0 y1 : Byte) (on : Bool), y1.toNat < y0.toNat →
      ∃ t, exec (.vline x y0 y1 on) s = .next t ∧ entersFault 7#4 ⟨.range, y1 ++ y0⟩ s t)

/-- R70, R164: the `F_CONFIG` row, which comes before `AllocationError`. -/
def Obligations.HeightNotMultipleOf8Faults : Prop :=
  ∀ (w h a b : Byte) (s : State), s.dispReady = false → h.toNat % 8 ≠ 0 →
    ∃ t, exec (.dinit w h a b) s = .next t ∧ entersFault 1#4 ⟨.config, h.setWidth 16⟩ s t

/-- R32, R33, R164, R167: SETPIX, LINE, HLINE, VLINE, CHAR and STRING with an offending pixel take `F_COORD` with the
coordinates of the first one in pseudocode order. Only framebuffer bits of the command's own in-range pixel writes may
differ, each of which may have happened or not (log entry 8). -/
def Obligations.FirstOffendingPixelFaults : Prop :=
  ∀ (i : Instr) (s : State) (p : Pixel), isDrawing i = true → opcode i ≠ 3#4 → opcode i ≠ 4#4 →
    s.dispReady = true → (commandPixels i s).find? (fun q => !pixelOk s q) = some p →
    ∃ t, exec i s = .next t ∧
      entersFaultMidway (opcode i) ⟨.coord, BitVec.ofInt 8 p.y ++ BitVec.ofInt 8 p.x⟩ (commandPixels i s) s t

/-- R72, R90, R167: FILL and RECT with an offending pixel take `F_COORD` with the coordinates of some offending
pixel (log entry 9). Only framebuffer bits of the command's own in-range pixel writes may differ, each of which may have
happened or not (log entry 8). -/
def Obligations.FillOrRectOffendingPixelFaults : Prop :=
  ∀ (i : Instr) (s : State), opcode i = 3#4 ∨ opcode i = 4#4 → s.dispReady = true →
    (∃ p ∈ commandPixels i s, pixelOk s p = false) →
    ∃ t, ∃ p ∈ commandPixels i s, exec i s = .next t ∧ pixelOk s p = false ∧
      entersFaultMidway (opcode i) ⟨.coord, BitVec.ofInt 8 p.y ++ BitVec.ofInt 8 p.x⟩ (commandPixels i s) s t

/-- R32, R33: a SETPIX outside the display or the buffer faults and writes nothing. -/
def Obligations.SetpixOutsideWritesNothing : Prop :=
  ∀ (x y : Byte) (on : Bool) (s : State), s.dispReady = true →
    (s.width.toNat ≤ x.toNat ∨ s.height.toNat ≤ y.toNat ∨ s.bufsize.toNat ≤ y.toNat / 8 + x.toNat * 8 + 1) →
    ∃ t, exec (.setpix x y on) s = .next t ∧ entersFault 2#4 ⟨.coord, y ++ x⟩ s t

/-- R115: an unsupported character takes `F_CHAR` with its code before any of its pixels is painted, in CHAR and, if
no pixel before it offends, in STRING, whose layout stops at the first unsupported character it reaches. Of the pixels
of the characters before it each may have been painted or not (log entry 8). -/
def Obligations.UnsupportedCharacterFaults : Prop :=
  (∀ (c x y : Byte) (s : State), s.dispReady = true → glyphIndex c = none →
    ∃ t wk, exec (.char c x y) s = .next t ∧ wk.mp = s.work.mp ∧
      entersFault 8#4 ⟨.char, c.setWidth 16⟩ { s with work := wk } t) ∧
  (∀ (x y len : Byte) (s : State) (r : Raise), s.dispReady = true →
    (stringPlan x y len s).stop = some r →
    (∀ p ∈ (stringPlan x y len s).writes, pixelOk s p = true) →
    ∃ t, exec (.string x y len) s = .next t ∧
      entersFaultMidway 9#4 r (stringPlan x y len s).writes s t ∧
      ∃ i, i < len.toNat ∧ glyphIndex (strbufByte s i) = none ∧ r = ⟨.char, (strbufByte s i).setWidth 16⟩) ∧
  ∀ (s : State) (n : Nat) (v : TextVars), v.ty + 8 < zext s.height →
    glyphIndex (strbufByte s v.ti) = none →
    layout s (n + 1) v = ⟨[], some ⟨.char, (strbufByte s v.ti).setWidth 16⟩, v⟩

/-- R165: whatever command takes a fault, the build, the configuration, the ready bits, the host's buffers and both
traces are as they were before it. -/
def Obligations.FaultKeepsConfigurationAndTraces : Prop :=
  ∀ (i : Instr) (s t : State), s.fault = false → exec i s = .next t → t.fault = true →
    t.busy = false ∧ t.op = opcode i ∧ t.build = s.build ∧ t.width = s.width ∧ t.height = s.height ∧ t.pages = s.pages ∧
    t.bufsize = s.bufsize ∧ t.busAddr = s.busAddr ∧ t.busSel = s.busSel ∧ t.mtxChan = s.mtxChan ∧
    t.mtxPin = s.mtxPin ∧ t.dispReady = s.dispReady ∧ t.mtxReady = s.mtxReady ∧ t.cbuf = s.cbuf ∧
    t.strbuf = s.strbuf ∧ t.bus = s.bus ∧ t.led = s.led ∧ t.ledQueue = s.ledQueue

/-- R166: `FAULT` is sticky. Commands are ignored, no step and no input but `rst` changes `FAULT` or `FCAUSE`, and `rst`
clears them. -/
def Obligations.OnlyResetClearsAFault : Prop :=
  ∀ s : State, s.fault = true →
    (s.inputs = [] → ∃ t, step s = .next t ∧ t.fault = true ∧ fcauseWord t = fcauseWord s) ∧
    ∀ (e : Input) (es : List Input), s.inputs = e :: es →
      (e ≠ .reset → ∃ t, step s = .next t ∧ t.fault = true ∧ fcauseWord t = fcauseWord s) ∧
      (∀ v, e = .write cmdAddress v → step s = .next { s with inputs := es }) ∧
      (e = .reset → ∃ t, step s = .next t ∧ t.fault = false ∧ fcauseWord t = 0)

/-! ## The display: initialisation and output -/

/-- R70: DINIT that fits, with a sink that takes the power-on writes. `FB_CAPACITY` and `INIT_CMDS` are those of the
build the state carries (R6, log entry 10). -/
def Obligations.DinitCompletes : Prop :=
  ∀ (w h a b : Byte) (s : State), s.dispReady = false → h.toNat % 8 = 0 →
    h.toNat / 8 * w.toNat + 1 ≤ s.build.fbCapacity → s.busRoom.covers (2 * s.build.initCmds.length) = true →
    ∃ t, exec (.dinit w h a b) s = .next t ∧
      t =
        { s with
          width := w, height := h, pages := BitVec.ofNat 5 (h.toNat / 8)
          bufsize := BitVec.ofNat 13 (h.toNat / 8 * w.toNat + 1), busAddr := a.setWidth 7, busSel := b
          fb := cellWrite s.fb 0 0x40#8
          bus := s.bus ++ s.build.initCmds.map fun c => ⟨b, a.setWidth 7, [0x80#8, c]⟩
          busRoom := s.busRoom.after (2 * s.build.initCmds.length)
          dispReady := true, err := 0, busy := false, pending := none } ∧
      fbByte t 0 = 0x40#8 ∧ ∀ i, i ≠ 0 → fbByte t i = fbByte s i

/-- R161: `AllocationError` is returned by DINIT only, exactly when the buffer does not fit, after the two checks and
before anything is changed; it is no fault. `FB_CAPACITY` is that of the build the state carries (R6, log entry 10). -/
def Obligations.AllocationErrorExactlyWhenTooLarge : Prop :=
  (∀ (w h a b : Byte) (s t : State), s.fault = false → exec (.dinit w h a b) s = .next t →
    ((t.busy = false ∧ t.fault = false ∧ t.err = 1) ↔
      (s.dispReady = false ∧ h.toNat % 8 = 0 ∧ s.build.fbCapacity < h.toNat / 8 * w.toNat + 1))) ∧
  (∀ (w h a b : Byte) (s : State), s.dispReady = false → h.toNat % 8 = 0 →
    s.build.fbCapacity < h.toNat / 8 * w.toNat + 1 →
    exec (.dinit w h a b) s = .next { s with err := 1, busy := false, pending := none }) ∧
  (∀ (i : Instr) (s t : State), s.fault = false → opcode i ≠ 1#4 → exec i s = .next t → t.busy = false →
    t.fault = false → t.err ≠ 1)

/-- R73: FLUSH with a sink that takes its output: the address-range command writes, then one write of the `BUFSIZE`
bytes of `FB` in increasing order. -/
def Obligations.FlushCompletes : Prop :=
  ∀ s : State, s.dispReady = true →
    s.busRoom.covers (2 * (s.build.flushCmds s.width s.pages).length + s.bufsize.toNat) = true →
    exec .flush s = .next
      { s with
        bus := s.bus ++ (s.build.flushCmds s.width s.pages).map (fun c => ⟨s.busSel, s.busAddr, [0x80#8, c]⟩) ++
          [⟨s.busSel, s.busAddr, (List.range s.bufsize.toNat).map (fbByte s)⟩]
        busRoom := s.busRoom.after (2 * (s.build.flushCmds s.width s.pages).length + s.bufsize.toNat)
        err := 0, busy := false, pending := none }

/-- R34: no command but DINIT changes the header byte, a DINIT that is not refused writes `0x40` there, and FLUSH sends
it as the first byte of the bulk write. -/
def Obligations.HeaderByteIsDinitsAlone : Prop :=
  (∀ (i : Instr) (s t : State), opcode i ≠ 1#4 → exec i s = .next t → fbByte t 0 = fbByte s 0) ∧
  (∀ (w h a b : Byte) (s t : State), s.dispReady = false → h.toNat % 8 = 0 →
    h.toNat / 8 * w.toNat + 1 ≤ s.build.fbCapacity → exec (.dinit w h a b) s = .next t → fbByte t 0 = 0x40#8) ∧
  (∀ (s t : State), s.dispReady = true → s.bufsize ≠ 0 → exec .flush s = .next t → t.busy = false →
    ∃ w, t.bus.getLast? = some w ∧ w.bytes.head? = some (fbByte s 0) ∧ w.bytes.length = s.bufsize.toNat)

/-! ## Pixels and shapes -/

/-- R32, R71: SETPIX inside the display and the buffer sets or clears the one bit of its pixel. -/
def Obligations.SetpixCompletes : Prop :=
  ∀ (x y : Byte) (on : Bool) (s : State), s.dispReady = true → x.toNat < s.width.toNat → y.toNat < s.height.toNat →
    y.toNat / 8 + x.toNat * 8 + 1 < s.bufsize.toNat →
    ∃ m, exec (.setpix x y on) s = .next { s with fb := m, err := 0, busy := false, pending := none } ∧
      m = cellWrite s.fb (y.toNat / 8 + x.toNat * 8 + 1)
        (if on then fbByte s (y.toNat / 8 + x.toNat * 8 + 1) ||| (1#8 <<< (y.toNat % 8))
          else fbByte s (y.toNat / 8 + x.toNat * 8 + 1) &&& ~~~(1#8 <<< (y.toNat % 8))) ∧
      paints s { s with fb := m } on (fun x' y' => x' = zext x ∧ y' = zext y)

/-- R75 (a): after setting and then clearing a pixel it is off and every other bit is as it was; a SETPIX done twice
leaves what it leaves done once. -/
def Obligations.SetThenClearAndRepeatedSetpix : Prop :=
  ∀ (x y : Byte) (on : Bool) (s t u : State), s.dispReady = true →
    pixelOk s ⟨zext x, zext y, on⟩ = true →
    (exec (.setpix x y true) s = .next t → exec (.setpix x y false) t = .next u →
      paints s u false (fun x' y' => x' = zext x ∧ y' = zext y)) ∧
    (exec (.setpix x y on) s = .next t → exec (.setpix x y on) t = .next u → u = t)

/-- R72: FILL gives every pixel of the display the value `on` and changes no other bit. -/
def Obligations.FillCompletes : Prop :=
  ∀ (on : Bool) (s : State), s.dispReady = true →
    (∀ x y : Int, 0 ≤ x → x < zext s.width → 0 ≤ y → y < zext s.height → pixelOk s ⟨x, y, on⟩ = true) →
    ∃ m lp, exec (.fill on) s = .next
        { s with fb := m, work := { s.work with loop := lp }, err := 0, busy := false, pending := none } ∧
      paints s { s with fb := m } on (fun x y => 0 ≤ x ∧ x < zext s.width ∧ 0 ≤ y ∧ y < zext s.height)

/-- R72: at `HEIGHT = 64` FILL completes and makes every pixel byte `0xFF` or `0x00`, header unchanged. -/
def Obligations.FillAtHeight64WritesEveryPixelByte : Prop :=
  ∀ (on : Bool) (s : State), s.dispReady = true → Height64 s →
    ∃ t, exec (.fill on) s = .next t ∧ t.fault = s.fault ∧ t.err = 0 ∧ t.busy = false ∧ fbByte t 0 = fbByte s 0 ∧
      ∀ a, 1 ≤ a → a < s.bufsize.toNat → fbByte t a = if on then 0xFF#8 else 0x00#8

/-- R72, R35: with 1 to 7 pages and at least two columns FILL takes `F_COORD`. -/
def Obligations.FillFaultsOnLowDisplays : Prop :=
  ∀ (on : Bool) (s : State), s.dispReady = true → Geometry s → 1 ≤ s.pages.toNat → s.pages.toNat ≤ 7 →
    2 ≤ s.width.toNat →
    ∃ t, exec (.fill on) s = .next t ∧ t.fault = true ∧ t.cause = 3 ∧ t.op = 3

/-- R90: RECT inside the display paints its border, or all of it when filled, and nothing else. -/
def Obligations.RectCompletes : Prop :=
  ∀ (top left w h : Byte) (on filled : Bool) (s : State), s.dispReady = true → w ≠ 0 → h ≠ 0 →
    (∀ x y, inRect (zext top) (zext left) (zext w) (zext h) filled x y → pixelOk s ⟨x, y, on⟩ = true) →
    ∃ m lp, exec (.rect top left w h on filled) s = .next
        { s with fb := m, work := { s.work with loop := lp }, err := 0, busy := false, pending := none } ∧
      paints s { s with fb := m } on (inRect (zext top) (zext left) (zext w) (zext h) filled)

/-- R92, R93: HLINE inside the display paints the pixels `(x, y)` with `x0 ≤ x ≤ x1`, VLINE those with `y0 ≤ y ≤ y1`,
and nothing else. Of the working registers only the loop counters may differ, which is the model's choice (log
entry 6). -/
def Obligations.HlineAndVlineComplete : Prop :=
  (∀ (x0 x1 y : Byte) (on : Bool) (s : State), s.dispReady = true → x0.toNat ≤ x1.toNat →
    (∀ x, zext x0 ≤ x → x ≤ zext x1 → pixelOk s ⟨x, zext y, on⟩ = true) →
    ∃ m lp, exec (.hline x0 x1 y on) s = .next
        { s with fb := m, work := { s.work with loop := lp }, err := 0, busy := false, pending := none } ∧
      paints s { s with fb := m } on (fun x' y' => zext x0 ≤ x' ∧ x' ≤ zext x1 ∧ y' = zext y)) ∧
  (∀ (x y0 y1 : Byte) (on : Bool) (s : State), s.dispReady = true → y0.toNat ≤ y1.toNat →
    (∀ y, zext y0 ≤ y → y ≤ zext y1 → pixelOk s ⟨zext x, y, on⟩ = true) →
    ∃ m lp, exec (.vline x y0 y1 on) s = .next
        { s with fb := m, work := { s.work with loop := lp }, err := 0, busy := false, pending := none } ∧
      paints s { s with fb := m } on (fun x' y' => x' = zext x ∧ zext y0 ≤ y' ∧ y' ≤ zext y1))

/-- R91: the line loop, and LINE all of whose pixels pass, which paints exactly the pixels the loop visits. The loop
starts at the first endpoint with the differences, the steps and the error `ldx - ldy`. Each iteration doubles the error
once; then, if it exceeds `-ldy`, `ldy` is taken from the error and x steps; then, if it is below `ldx`, `ldx` is added
to the error and y steps. An iteration follows exactly from a visit that is not at the second endpoint (log
entry 16). -/
def Obligations.LineCompletes : Prop :=
  (∀ x0 y0 x1 y1 le2 : Int,
    (∃ v, (lineRun x0 y0 x1 y1 le2).head? = some v ∧ v.lx = x0 ∧ v.ly = y0 ∧ v.ldx = |x1 - x0| ∧
      v.ldy = |y1 - y0| ∧ v.lsx = (if x0 < x1 then 1 else -1) ∧ v.lsy = (if y0 < y1 then 1 else -1) ∧
      v.lerr = v.ldx - v.ldy) ∧
    (∃ v, (lineRun x0 y0 x1 y1 le2).getLast? = some v ∧ v.lx = x1 ∧ v.ly = y1) ∧
    List.IsChain
      (fun u v : LineVars =>
        ¬(u.lx = x1 ∧ u.ly = y1) ∧ v.le2 = 2 * u.lerr ∧
        v.ldx = u.ldx ∧ v.ldy = u.ldy ∧ v.lsx = u.lsx ∧ v.lsy = u.lsy ∧
        v.lx = u.lx + (if 2 * u.lerr > -u.ldy then u.lsx else 0) ∧
        v.ly = u.ly + (if 2 * u.lerr < u.ldx then u.lsy else 0) ∧
        v.lerr = u.lerr - (if 2 * u.lerr > -u.ldy then u.ldy else 0) + (if 2 * u.lerr < u.ldx then u.ldx else 0))
      (lineRun x0 y0 x1 y1 le2)) ∧
  ∀ (x0 y0 x1 y1 : Byte) (on : Bool) (s : State), s.dispReady = true →
    (∀ x y, onLine (zext x0) (zext y0) (zext x1) (zext y1) x y → pixelOk s ⟨x, y, on⟩ = true) →
    ∃ m ln, exec (.line x0 y0 x1 y1 on) s = .next
        { s with fb := m, work := { s.work with line := ln }, err := 0, busy := false, pending := none } ∧
      paints s { s with fb := m } on (onLine (zext x0) (zext y0) (zext x1) (zext y1))

/-- R91, R94: at `HEIGHT = 64` a LINE with both endpoints inside the display completes and gives both endpoints the
value `on`. -/
def Obligations.LineInsideDisplayPaintsBothEndpoints : Prop :=
  ∀ (x0 y0 x1 y1 : Byte) (on : Bool) (s : State), s.dispReady = true → Height64 s →
    x0.toNat < s.width.toNat → x1.toNat < s.width.toNat → y0.toNat < 64 → y1.toNat < 64 →
    ∃ t, exec (.line x0 y0 x1 y1 on) s = .next t ∧ t.fault = s.fault ∧ t.err = 0 ∧ t.busy = false ∧
      pixelOn t (zext x0) (zext y0) = on ∧ pixelOn t (zext x1) (zext y1) = on

/-- R91, R94 (a), (b): for all endpoints the line loop starts at the first endpoint, ends at the second, and visits
`max(ldx, ldy) + 1` pixels (log entry 16). -/
def Obligations.LineLoopEndsAtTheSecondEndpoint : Prop :=
  ∀ x0 y0 x1 y1 le2 : Int, ∃ first last, (lineRun x0 y0 x1 y1 le2).head? = some first ∧
    (lineRun x0 y0 x1 y1 le2).getLast? = some last ∧
    first.lx = x0 ∧ first.ly = y0 ∧ last.lx = x1 ∧ last.ly = y1 ∧
    ((lineRun x0 y0 x1 y1 le2).length : Int) = max |x1 - x0| |y1 - y0| + 1

/-- R91, R94 (c): every visited pixel lies between the endpoints, and each is one of the eight neighbours of the one
before it. -/
def Obligations.LineStaysBetweenItsEndpointsAndIsConnected : Prop :=
  ∀ x0 y0 x1 y1 le2 : Int,
    (∀ v ∈ lineRun x0 y0 x1 y1 le2, min x0 x1 ≤ v.lx ∧ v.lx ≤ max x0 x1 ∧ min y0 y1 ≤ v.ly ∧ v.ly ≤ max y0 y1) ∧
    List.IsChain (fun u v : LineVars => |v.lx - u.lx| ≤ 1 ∧ |v.ly - u.ly| ≤ 1 ∧ ¬(v.lx = u.lx ∧ v.ly = u.ly))
      (lineRun x0 y0 x1 y1 le2)

/-- R95, R20: with 8-bit operands the error term of the line unit stays within -381 to 381, so its 11-bit registers
hold it and its double exactly. -/
def Obligations.LineErrorFitsItsRegister : Prop :=
  ∀ (x0 y0 x1 y1 : Byte), ∀ v ∈ lineRun (zext x0) (zext y0) (zext x1) (zext y1) 0,
    -381 ≤ v.lerr ∧ v.lerr ≤ 381 ∧ v.regs.lerr.toInt = v.lerr ∧ v.regs.le2.toInt = v.le2 ∧
    v.regs.lx.toInt = v.lx ∧ v.regs.ly.toInt = v.ly

/-- R57, R94 (d): HLINE and VLINE write the pixels of the LINE with the same endpoints, in the same order. -/
def Obligations.AxisAlignedLinesAgree : Prop :=
  (∀ (x0 x1 y : Int) (on : Bool), x0 ≤ x1 → hlinePixels x0 x1 y on = linePixels x0 y x1 y on) ∧
  (∀ (x y0 y1 : Int) (on : Bool), y0 ≤ y1 → vlinePixels x y0 y1 on = linePixels x y0 x y1 on)

/-! ## Characters and strings -/

/-- R110: the supported characters and their glyph indices. -/
def Obligations.GlyphIndexTable : Prop :=
  (∀ n : Nat, n < 10 → glyphIndex (BitVec.ofNat 8 (0x30 + n)) = some n) ∧
  (∀ n : Nat, n < 26 → glyphIndex (BitVec.ofNat 8 (0x41 + n)) = some (10 + n) ∧
    glyphIndex (BitVec.ofNat 8 (0x61 + n)) = some (36 + n)) ∧
  glyphIndex 0x2E#8 = some 62 ∧ glyphIndex 0x2D#8 = some 63 ∧ glyphIndex 0x23#8 = some 64 ∧
  glyphIndex 0x20#8 = some 65 ∧
  ∀ c : Byte, glyphIndex c = none ↔
    ¬(0x30 ≤ c.toNat ∧ c.toNat ≤ 0x39) ∧ ¬(0x41 ≤ c.toNat ∧ c.toNat ≤ 0x5A) ∧
    ¬(0x61 ≤ c.toNat ∧ c.toNat ≤ 0x7A) ∧ c ≠ 0x2E#8 ∧ c ≠ 0x2D#8 ∧ c ≠ 0x23#8 ∧ c ≠ 0x20#8

/-- R114: the trimmed width of a glyph is the index of its last non-empty column, 0 for an empty glyph; `DRAWCHAR`
returns it whatever the coordinates are. -/
def Obligations.TrimmedWidthIsLastNonEmptyColumn : Prop :=
  (∀ (P : Params) (g : Nat), trimmedWidth P g ≤ 7 ∧
    ((∀ i, i < 8 → P.glyph (8 * g + i) = 0#8) → trimmedWidth P g = 0) ∧
    ((∃ i, i < 8 ∧ P.glyph (8 * g + i) ≠ 0#8) →
      P.glyph (8 * g + trimmedWidth P g) ≠ 0#8 ∧
      ∀ i, trimmedWidth P g < i → i < 8 → P.glyph (8 * g + i) = 0#8)) ∧
  ∀ (P : Params) (c : Byte) (g : Nat) (x y : Int), c ≠ 0x20#8 → glyphIndex c = some g →
    ∃ ps, drawChar P c x y = .ok (trimmedWidth P g, ps)

/-- R112: CHAR of a glyph whose cell lies inside the display paints the cell opaquely, changes no other bit, and
returns the trimmed width. -/
def Obligations.CharCompletes : Prop :=
  ∀ (c x y : Byte) (g : Nat) (s : State), s.dispReady = true → c ≠ 0x20#8 → glyphIndex c = some g →
    (∀ i j : Nat, i < 8 → j < 8 → pixelOk s ⟨zext x + i, zext y + j, true⟩ = true) →
    ∃ m f, exec (.char c x y) s = .next
        { s with
          fb := m, rv0 := BitVec.ofNat 8 (trimmedWidth s.build g), rv1 := 0
          work := { s.work with font := f }, err := 0, busy := false, pending := none } ∧
      (∀ i j : Nat, i < 8 → j < 8 →
        pixelOn { s with fb := m } (zext x + i) (zext y + j) = (s.build.glyph (8 * g + i)).getLsbD j) ∧
      ∀ a b : Nat, b < 8 → (¬ ∃ i j : Nat, i < 8 ∧ j < 8 ∧ hits (zext x + i) (zext y + j) a b) →
        fbBit { s with fb := m } a b = fbBit s a b

/-- R113: a space returns width 3, paints nothing and checks no coordinate, in `DRAWCHAR` wherever it is called and so
in CHAR. -/
def Obligations.SpaceIsAFastPath : Prop :=
  (∀ (P : Params) (x y : Int), drawChar P 0x20#8 x y = .ok (3, [])) ∧
  ∀ (x y : Byte) (s : State), s.dispReady = true →
    exec (.char 0x20#8 x y) s = .next { s with rv0 := 3, rv1 := 0, err := 0, busy := false, pending := none }

/-- R125, R126, R128 (b): in every geometry, STRING whose layout reaches no unsupported character and whose pixel
writes all pass completes: it makes the writes of its layout in order, changes no other framebuffer bit, and returns
the cursor. The layout is that of `len` characters from `(x, y)`. It stops nowhere if the characters are all
supported, and at `HEIGHT = 64` from a start `x ≤ WIDTH - 8` all its writes pass. What the working registers hold at
its end is the model's choice (log entry 6). -/
def Obligations.StringCompletes : Prop :=
  (∀ (x y len : Byte) (s : State), s.dispReady = true → (stringPlan x y len s).stop = none →
    (∀ p ∈ (stringPlan x y len s).writes, pixelOk s p = true) →
    ∃ m, pixels (stringPlan x y len s).writes s = .ok { s with fb := m } ∧
      exec (.string x y len) s = .next
        { s with
          fb := m
          rv0 := BitVec.ofInt 8 (stringPlan x y len s).vars.tx
          rv1 := BitVec.ofInt 8 (stringPlan x y len s).vars.ty
          work :=
            { s.work with
              font := (stringPlan x y len s).vars.font
              text :=
                ⟨BitVec.ofInt 10 (stringPlan x y len s).vars.tx,
                  BitVec.ofInt 10 (stringPlan x y len s).vars.ty,
                  BitVec.ofNat 8 (stringPlan x y len s).vars.ti⟩ }
          err := 0, busy := false, pending := none } ∧
      ∀ a b : Nat, b < 8 → (¬ ∃ p ∈ (stringPlan x y len s).writes, hits p.x p.y a b) →
        fbBit { s with fb := m } a b = fbBit s a b) ∧
  (∀ (x y len : Byte) (s : State),
    stringPlan x y len s = layout s len.toNat ⟨zext x, zext y, 0, s.work.font⟩) ∧
  (∀ (x y len : Byte) (s : State), (∀ i, i < len.toNat → glyphIndex (strbufByte s i) ≠ none) →
    (stringPlan x y len s).stop = none) ∧
  ∀ (x y len : Byte) (s : State), Height64 s → x.toNat + 8 ≤ s.width.toNat →
    ∀ p ∈ (stringPlan x y len s).writes, pixelOk s p = true

/-- R125, R127: STRING whose first row does not pass the guard, or with length 0, draws nothing, reads no character
and returns its operands. At any later character too the layout ends, with the variables as they are, where the row
does not pass the guard or no character is left: an unsupported character in the truncated tail is not reached. What
the working registers hold at its end is the model's choice (log entry 6). -/
def Obligations.StringOutsideTheGuardDrawsNothing : Prop :=
  (∀ (x y len : Byte) (s : State), s.dispReady = true → (s.height.toNat ≤ y.toNat + 8 ∨ len = 0) →
    exec (.string x y len) s = .next
      { s with
        rv0 := x, rv1 := y
        work := { s.work with text := ⟨x.setWidth 10, y.setWidth 10, 0⟩ }
        err := 0, busy := false, pending := none }) ∧
  ∀ (s : State) (n : Nat) (v : TextVars), (zext s.height ≤ v.ty + 8 ∨ n = 0) → layout s n v = ⟨[], none, v⟩

/-- R125, R126, R127: one character of the layout. Inside the guard a supported character is drawn at the cursor, the
cursor advances by its width plus 2, and wraps when it is beyond `WIDTH - 8`; the rest is laid out from there. -/
def Obligations.LayoutAdvancesByWidthPlusTwoAndWraps : Prop :=
  ∀ (s : State) (n : Nat) (v : TextVars) (w : Nat) (ps : List Pixel), v.ty + 8 < zext s.height →
    drawChar s.build (strbufByte s v.ti) v.tx v.ty = .ok (w, ps) →
    ∃ v', v'.ti = v.ti + 1 ∧
      (v.tx + w + 2 ≤ zext s.width - 8 → v'.tx = v.tx + w + 2 ∧ v'.ty = v.ty) ∧
      (zext s.width - 8 < v.tx + w + 2 → v'.tx = 0 ∧ v'.ty = v.ty + 8) ∧
      (layout s (n + 1) v).writes = ps ++ (layout s n v').writes ∧
      (layout s (n + 1) v).stop = (layout s n v').stop ∧
      (layout s (n + 1) v).vars = (layout s n v').vars

/-- R128 (c), (d): the cursor STRING returns fits 8 bits, and its row differs from the start row by a multiple of 8. -/
def Obligations.StringCursorFitsAndRowsAreEightApart : Prop :=
  ∀ (x y len : Byte) (s : State),
    let v := (stringPlan x y len s).vars
    0 ≤ v.tx ∧ v.tx ≤ 255 ∧ 0 ≤ v.ty ∧ v.ty ≤ 255 ∧ (v.ty - zext y) % 8 = 0 ∧ zext y ≤ v.ty ∧ v.ti ≤ len.toNat

/-! ## The LED matrix -/

/-- R141: the table `SERP` is the order of the wiring: rows 4 down to 0, even rows from column 4, odd rows from
column 0; a permutation of 0 to 24 with the given inverse; bottom-right first, top-left last. -/
def Obligations.SerpTableIsTheSerpentine : Prop :=
  serpTable.length = 25 ∧
  (∀ p, p < 25 → serpTable.getD p 0 =
    5 * (4 - p / 5) + if (4 - p / 5) % 2 = 0 then 4 - p % 5 else p % 5) ∧
  serpTable.Perm (List.range 25) ∧
  (∀ row col, row < 5 → col < 5 →
    serpTable.getD (5 * (4 - row) + if row % 2 = 0 then 4 - col else col) 0 = row * 5 + col) ∧
  serpTable.head? = some 24 ∧ serpTable.getLast? = some 0

/-- R143: a colour in range is encoded with green in 31:24, red in 23:16, blue in 15:8, each `floor(v * 255 / 32768)`;
bits 7:0 are 0. The byte of a component above 1.0 is the free one given for it. -/
def Obligations.ColourEncoding : Prop :=
  (∀ (free : Nat → Byte) (r g b : BitVec 16), r.toNat ≤ 0x8000 → g.toNat ≤ 0x8000 → b.toNat ≤ 0x8000 →
    (encodeColour free (r ++ g ++ b)).toNat =
      g.toNat * 255 / 32768 * 2 ^ 24 + r.toNat * 255 / 32768 * 2 ^ 16 + b.toNat * 255 / 32768 * 2 ^ 8) ∧
  (∀ (free : Nat → Byte) (r g b : BitVec 16),
    (0x8000 < g.toNat → (encodeColour free (r ++ g ++ b)).extractLsb' 24 8 = free 0) ∧
    (0x8000 < r.toNat → (encodeColour free (r ++ g ++ b)).extractLsb' 16 8 = free 1) ∧
    (0x8000 < b.toNat → (encodeColour free (r ++ g ++ b)).extractLsb' 8 8 = free 2)) ∧
  (∀ free : Nat → Byte, encodeColour free (0x0000#16 ++ 0x0000#16 ++ 0x0000#16) = 0x00000000#32 ∧
    encodeColour free (0x8000#16 ++ 0x8000#16 ++ 0x8000#16) = 0xFFFFFF00#32 ∧
    encodeColour free (0x8000#16 ++ 0x0000#16 ++ 0x0000#16) = 0x00FF0000#32)

/-- R145: an out-of-range component leaves the other bytes of its word as they are, and bits 7:0 stay 0. -/
def Obligations.OutOfRangeComponentSpoilsOnlyItsByte : Prop :=
  ∀ (free : Nat → Byte) (r g b : BitVec 16),
    (encodeColour free (r ++ g ++ b)).extractLsb' 0 8 = 0#8 ∧
    (g.toNat ≤ 0x8000 → ((encodeColour free (r ++ g ++ b)).extractLsb' 24 8).toNat = g.toNat * 255 / 32768) ∧
    (r.toNat ≤ 0x8000 → ((encodeColour free (r ++ g ++ b)).extractLsb' 16 8).toNat = r.toNat * 255 / 32768) ∧
    (b.toNat ≤ 0x8000 → ((encodeColour free (r ++ g ++ b)).extractLsb' 8 8).toNat = b.toNat * 255 / 32768)

/-- R140: MINIT with the clock set and a slot free. -/
def Obligations.MinitCompletes : Prop :=
  ∀ (ch pin : Byte) (s : State), s.mtxReady = false → s.clkOk = true → s.slotAvail = true →
    exec (.minit ch pin) s = .next
      { s with mtxChan := ch, mtxPin := pin, mtxReady := true, err := 0, busy := false, pending := none }

/-- R162: `InitError` is returned by MINIT only, exactly when the clock could not be set or no slot is free; nothing
else changes and no fault is taken. -/
def Obligations.InitErrorExactlyWhenClockOrSlotFails : Prop :=
  (∀ (ch pin : Byte) (s t : State), s.fault = false → exec (.minit ch pin) s = .next t →
    ((t.fault = false ∧ t.err = 2) ↔ (s.mtxReady = false ∧ (s.clkOk = false ∨ s.slotAvail = false)))) ∧
  (∀ (ch pin : Byte) (s : State), s.mtxReady = false → s.clkOk = false ∨ s.slotAvail = false →
    exec (.minit ch pin) s = .next { s with err := 2, busy := false, pending := none }) ∧
  (∀ (i : Instr) (s t : State), s.fault = false → opcode i ≠ 11#4 → exec i s = .next t → t.busy = false →
    t.fault = false → t.err ≠ 2)

/-- R142: MDRAW with a queue that takes the frame appends exactly 25 words, word `p` the colour of the cell `SERP[p]`,
and changes nothing else of the block but the position counter, whose last value is the model's choice (log entry 6).
The byte of a component above 1.0 is free (log entry 14). -/
def Obligations.MdrawCompletes : Prop :=
  ∀ s : State, s.mtxReady = true → s.ledRoom.covers 25 = true →
    ∃ (ws : List LedWord) (free : Nat → Nat → Byte), exec .mdraw s = .next
        { s with
          led := s.led ++ ws, ledQueue := s.ledQueue ++ ws, ledRoom := s.ledRoom.after 25
          work := { s.work with mp := 24 }, fresh := s.fresh + 1, err := 0, busy := false, pending := none } ∧
      ws.length = 25 ∧
      ∀ p, p < 25 → ws[p]? = some (encodeColour (free p) (cbufEntry s (serpTable.getD p 0)))

/-! ## The two halves, the host and the invariant -/

/-- R2: a command of one half changes no state of the other half, working registers included. A faulting command of
the matrix half leaves `RESULT`, which R165 makes unspecified, free (log entry 7). -/
def Obligations.HalvesChangeOnlyTheirOwnState : Prop :=
  ∀ (i : Instr) (s t : State), exec i s = .next t →
    (isDisplayCommand i = true →
      t.mtxChan = s.mtxChan ∧ t.mtxPin = s.mtxPin ∧ t.mtxReady = s.mtxReady ∧ t.cbuf = s.cbuf ∧ t.led = s.led ∧
      t.ledQueue = s.ledQueue ∧ t.ledRoom = s.ledRoom ∧ t.work.mp = s.work.mp) ∧
    (isDisplayCommand i = false →
      t.width = s.width ∧ t.height = s.height ∧ t.pages = s.pages ∧ t.bufsize = s.bufsize ∧ t.busAddr = s.busAddr ∧
      t.busSel = s.busSel ∧ t.dispReady = s.dispReady ∧ t.fb = s.fb ∧ t.strbuf = s.strbuf ∧ t.bus = s.bus ∧
      t.busRoom = s.busRoom ∧ t.work.line = s.work.line ∧ t.work.font = s.work.font ∧ t.work.text = s.work.text ∧
      t.work.loop = s.work.loop ∧ (t.fault = false → t.rv0 = s.rv0 ∧ t.rv1 = s.rv1))

/-- R2: a command of one half reads no state of the other half. Run with other state of that half, working registers
and traces included, it does the same to the rest and leaves that state as it is. -/
def Obligations.HalvesReadOnlyTheirOwnState : Prop :=
  (∀ (i : Instr) (s : State) (c : ColourMemory) (ch pin : Byte) (rdy : Bool) (l q : List LedWord) (mp : BitVec 5),
    isDisplayCommand i = true →
    ∃ t, exec i s = .next t ∧
      exec i
          { s with
            cbuf := c, mtxChan := ch, mtxPin := pin, mtxReady := rdy, led := l, ledQueue := q
            work := { s.work with mp := mp } } =
        .next
          { t with
            cbuf := c, mtxChan := ch, mtxPin := pin, mtxReady := rdy, led := l, ledQueue := q
            work := { t.work with mp := mp } }) ∧
  ∀ (i : Instr) (s : State) (w h sel : Byte) (pg : BitVec 5) (n : BitVec 13) (addr : BitVec 7) (rdy : Bool)
    (fb str : Memory) (bs cut : List BusWrite) (ln : LineRegs) (fn : FontRegs) (tx : TextRegs) (lp : LoopRegs),
    isDisplayCommand i = false →
    ∃ t, exec i s = .next t ∧
      exec i
          { s with
            width := w, height := h, pages := pg, bufsize := n, busAddr := addr, busSel := sel, dispReady := rdy
            fb := fb, strbuf := str, bus := bs, busCut := cut
            work := { line := ln, font := fn, text := tx, loop := lp, mp := s.work.mp } } =
        .next
          { t with
            width := w, height := h, pages := pg, bufsize := n, busAddr := addr, busSel := sel, dispReady := rdy
            fb := fb, strbuf := str, bus := bs, busCut := cut
            work := { line := ln, font := fn, text := tx, loop := lp, mp := t.work.mp } }

/-- R13, R14: what a host read of each register of the map returns, and that it changes nothing of the block. The value
is zero-extended to the 48 bits of the model's host bus and kept in `hostData` (the model's choice, log entry 3). An
entry nothing has written reads as its free value (log entry 5). -/
def Obligations.HostReadsTheRegisterMap : Prop :=
  ∀ (s : State) (a : Nat) (es : List Input), s.inputs = .read a :: es →
    ∃ d, step s = .next { s with inputs := es, hostData := d } ∧
      (a = 0x00 → d = 0) ∧
      (a = 0x01 → d.toNat = s.busy.toNat + 2 * s.dispReady.toNat + 4 * s.mtxReady.toNat + 8 * s.fault.toNat +
        16 * s.err.toNat) ∧
      (a = 0x02 → d.toNat = s.rv0.toNat + 256 * s.rv1.toNat) ∧
      (a = 0x03 → d.toNat = s.cause.toNat + 16 * s.op.toNat + 256 * s.info.toNat) ∧
      (a = 0x04 → d.toNat = s.width.toNat + 2 ^ 8 * s.height.toNat + 2 ^ 16 * s.pages.toNat +
        2 ^ 24 * s.busAddr.toNat) ∧
      (a = 0x05 → d.toNat = s.busSel.toNat + 2 ^ 8 * s.mtxChan.toNat + 2 ^ 16 * s.mtxPin.toNat) ∧
      (a = 0x06 → d.toNat = s.bufsize.toNat) ∧
      (∀ k, k < 25 → a = 0x40 + k → d = cbufEntry s k) ∧
      (∀ i, i < 255 → a = 0x100 + i → d.toNat = (strbufByte s i).toNat) ∧
      ((6 < a ∧ a < 0x40) ∨ (0x58 < a ∧ a < 0x100) ∨ 0x1FE < a → d = 0)

/-- R14, R43, R196: a host write to a buffer entry while the block is not busy changes that entry and nothing else. A
write to a read-only register or outside the map changes nothing, busy or not. (For a write to `CMD` see
StepRunsTheDecodedCommand, IllegalWordTakesFault and CommandIgnoredWhileBusyOrFaulted.) A `STRBUF` entry takes the
low 8 of the 48 bits written (the model's choice, log entry 3). -/
def Obligations.HostWritesTheRegisterMap : Prop :=
  ∀ (s : State) (a : Nat) (v : BitVec 48) (es : List Input), s.inputs = .write a v :: es →
    (s.busy = false → ∀ k, k < 25 → a = 0x40 + k → ∃ m, step s = .next { s with inputs := es, cbuf := m } ∧
      cbufEntry { s with cbuf := m } k = v ∧ ∀ k', k' ≠ k → cbufEntry { s with cbuf := m } k' = cbufEntry s k') ∧
    (s.busy = false → ∀ i, i < 255 → a = 0x100 + i → ∃ m, step s = .next { s with inputs := es, strbuf := m } ∧
      strbufByte { s with strbuf := m } i = v.setWidth 8 ∧
      ∀ i', i' ≠ i → strbufByte { s with strbuf := m } i' = strbufByte s i') ∧
    ((1 ≤ a ∧ a < 0x40) ∨ (0x58 < a ∧ a < 0x100) ∨ 0x1FE < a → step s = .next { s with inputs := es })

/-- The invariant holds right after reset, in the default build and in every other (R6, log entry 10). -/
def Obligations.InvariantHoldsAtReset : Prop := BlockInv State.reset ∧ ∀ P : Params, BlockInv (State.resetOf P)

/-- Every step keeps the invariant: canonical memories, the geometry of a ready display and its header byte, `BUSY`
exactly while a command waits, clean `FCAUSE` and `ERR` while not faulted, framed bus writes, LED words with bits 7:0
zero. The canonical form of the memories (log entry 5), the queue as the latest words of the `LED` trace (log entry
15) and an `ERR` that may read 3 after a fault (log entry 18) are the model's. No step changes the build (R6, log
entry 10). -/
def Obligations.EveryStepKeepsTheInvariant : Prop :=
  (∀ s t : State, BlockInv s → step s = .next t → BlockInv t) ∧ ∀ s t : State, step s = .next t → t.build = s.build
end

