-- ==== Sys2Proof/Laws/Decode.lean ====
section
/-! SUPPORT. The fields of a command word (R50), and the decoder's rejections. -/

namespace Sys2Proof

/-- The fields of a word written from its fields (R50). -/
theorem fields_cmdWord (op : BitVec 4) (f v : Bool) (a b c d : Byte) :
    opField (cmdWord op f v a b c d) = op ∧ zField (cmdWord op f v a b c d) = 0#2 ∧
    fField (cmdWord op f v a b c d) = f ∧ vField (cmdWord op f v a b c d) = v ∧
    aField (cmdWord op f v a b c d) = a ∧ bField (cmdWord op f v a b c d) = b ∧
    cField (cmdWord op f v a b c d) = c ∧ dField (cmdWord op f v a b c d) = d := by
  unfold cmdWord opField zField fField vField aField bField cField dField
  refine ⟨?_, ?_, ?_, ?_, ?_, ?_, ?_, ?_⟩
  all_goals first
    | (apply BitVec.eq_of_getLsbD_eq
       intro i hi
       simp only [BitVec.getLsbD_extractLsb', BitVec.getLsbD_append, BitVec.getLsbD_ofNat]
       interval_cases i <;> simp)
    | (simp only [BitVec.getLsbD_append]; simp)

@[simp] theorem opField_cmdWord (op : BitVec 4) (f v : Bool) (a b c d : Byte) :
    opField (cmdWord op f v a b c d) = op := (fields_cmdWord op f v a b c d).1
@[simp] theorem zField_cmdWord (op : BitVec 4) (f v : Bool) (a b c d : Byte) :
    zField (cmdWord op f v a b c d) = 0#2 := (fields_cmdWord op f v a b c d).2.1
@[simp] theorem fField_cmdWord (op : BitVec 4) (f v : Bool) (a b c d : Byte) :
    fField (cmdWord op f v a b c d) = f := (fields_cmdWord op f v a b c d).2.2.1
@[simp] theorem vField_cmdWord (op : BitVec 4) (f v : Bool) (a b c d : Byte) :
    vField (cmdWord op f v a b c d) = v := (fields_cmdWord op f v a b c d).2.2.2.1
@[simp] theorem aField_cmdWord (op : BitVec 4) (f v : Bool) (a b c d : Byte) :
    aField (cmdWord op f v a b c d) = a := (fields_cmdWord op f v a b c d).2.2.2.2.1
@[simp] theorem bField_cmdWord (op : BitVec 4) (f v : Bool) (a b c d : Byte) :
    bField (cmdWord op f v a b c d) = b := (fields_cmdWord op f v a b c d).2.2.2.2.2.1
@[simp] theorem cField_cmdWord (op : BitVec 4) (f v : Bool) (a b c d : Byte) :
    cField (cmdWord op f v a b c d) = c := (fields_cmdWord op f v a b c d).2.2.2.2.2.2.1
@[simp] theorem dField_cmdWord (op : BitVec 4) (f v : Bool) (a b c d : Byte) :
    dField (cmdWord op f v a b c d) = d := (fields_cmdWord op f v a b c d).2.2.2.2.2.2.2

/-- A word is its fields (R50). -/
theorem word_eq_fields (w : CmdWord) :
    w = opField w ++ zField w ++ BitVec.ofBool (fField w) ++ BitVec.ofBool (vField w) ++ aField w ++ bField w ++
      cField w ++ dField w := by
  unfold opField zField fField vField aField bField cField dField
  apply BitVec.eq_of_getLsbD_eq
  intro i hi
  simp only [BitVec.getLsbD_append, BitVec.getLsbD_extractLsb', BitVec.getLsbD_ofBool]
  interval_cases i <;> simp

/-- A rejection does not stand in the way of a word the decoder accepts. -/
theorem rejectIf_eq_ok (bad : Bool) (r : Reject) (k : Except Reject Instr) (i : Instr) :
    rejectIf bad r k = .ok i ↔ bad = false ∧ k = .ok i := by
  cases bad <;> simp [rejectIf]

@[simp] theorem rejectIf_false (r : Reject) (k : Except Reject Instr) : rejectIf false r k = k := rfl

@[simp] theorem rejectIf_true (r : Reject) (k : Except Reject Instr) : rejectIf true r k = .error r := rfl

end Sys2Proof
end

