-- ==== Sys2Proof/Laws/State.lean ====
section
/-! SUPPORT. The fields of State after each named update: one lemma per field, true by definition. -/

namespace Sys2Proof.Machine

/-! ## `complete` (R160) -/

@[simp] theorem complete_build (code : BitVec 2) (s : State) :
    (complete code s).build = s.build := rfl
@[simp] theorem complete_width (code : BitVec 2) (s : State) :
    (complete code s).width = s.width := rfl
@[simp] theorem complete_height (code : BitVec 2) (s : State) :
    (complete code s).height = s.height := rfl
@[simp] theorem complete_pages (code : BitVec 2) (s : State) :
    (complete code s).pages = s.pages := rfl
@[simp] theorem complete_bufsize (code : BitVec 2) (s : State) :
    (complete code s).bufsize = s.bufsize := rfl
@[simp] theorem complete_busAddr (code : BitVec 2) (s : State) :
    (complete code s).busAddr = s.busAddr := rfl
@[simp] theorem complete_busSel (code : BitVec 2) (s : State) :
    (complete code s).busSel = s.busSel := rfl
@[simp] theorem complete_mtxChan (code : BitVec 2) (s : State) :
    (complete code s).mtxChan = s.mtxChan := rfl
@[simp] theorem complete_mtxPin (code : BitVec 2) (s : State) :
    (complete code s).mtxPin = s.mtxPin := rfl
@[simp] theorem complete_cmd (code : BitVec 2) (s : State) :
    (complete code s).cmd = s.cmd := rfl
@[simp] theorem complete_busy (code : BitVec 2) (s : State) :
    (complete code s).busy = false := rfl
@[simp] theorem complete_dispReady (code : BitVec 2) (s : State) :
    (complete code s).dispReady = s.dispReady := rfl
@[simp] theorem complete_mtxReady (code : BitVec 2) (s : State) :
    (complete code s).mtxReady = s.mtxReady := rfl
@[simp] theorem complete_fault (code : BitVec 2) (s : State) :
    (complete code s).fault = s.fault := rfl
@[simp] theorem complete_err (code : BitVec 2) (s : State) :
    (complete code s).err = code := rfl
@[simp] theorem complete_rv0 (code : BitVec 2) (s : State) :
    (complete code s).rv0 = s.rv0 := rfl
@[simp] theorem complete_rv1 (code : BitVec 2) (s : State) :
    (complete code s).rv1 = s.rv1 := rfl
@[simp] theorem complete_cause (code : BitVec 2) (s : State) :
    (complete code s).cause = s.cause := rfl
@[simp] theorem complete_op (code : BitVec 2) (s : State) :
    (complete code s).op = s.op := rfl
@[simp] theorem complete_info (code : BitVec 2) (s : State) :
    (complete code s).info = s.info := rfl
@[simp] theorem complete_fb (code : BitVec 2) (s : State) :
    (complete code s).fb = s.fb := rfl
@[simp] theorem complete_cbuf (code : BitVec 2) (s : State) :
    (complete code s).cbuf = s.cbuf := rfl
@[simp] theorem complete_strbuf (code : BitVec 2) (s : State) :
    (complete code s).strbuf = s.strbuf := rfl
@[simp] theorem complete_work (code : BitVec 2) (s : State) :
    (complete code s).work = s.work := rfl
@[simp] theorem complete_bus (code : BitVec 2) (s : State) :
    (complete code s).bus = s.bus := rfl
@[simp] theorem complete_busCut (code : BitVec 2) (s : State) :
    (complete code s).busCut = s.busCut := rfl
@[simp] theorem complete_led (code : BitVec 2) (s : State) :
    (complete code s).led = s.led := rfl
@[simp] theorem complete_ledQueue (code : BitVec 2) (s : State) :
    (complete code s).ledQueue = s.ledQueue := rfl
@[simp] theorem complete_pending (code : BitVec 2) (s : State) :
    (complete code s).pending = none := rfl
@[simp] theorem complete_busRoom (code : BitVec 2) (s : State) :
    (complete code s).busRoom = s.busRoom := rfl
@[simp] theorem complete_ledRoom (code : BitVec 2) (s : State) :
    (complete code s).ledRoom = s.ledRoom := rfl
@[simp] theorem complete_clkOk (code : BitVec 2) (s : State) :
    (complete code s).clkOk = s.clkOk := rfl
@[simp] theorem complete_slotAvail (code : BitVec 2) (s : State) :
    (complete code s).slotAvail = s.slotAvail := rfl
@[simp] theorem complete_inputs (code : BitVec 2) (s : State) :
    (complete code s).inputs = s.inputs := rfl
@[simp] theorem complete_hostData (code : BitVec 2) (s : State) :
    (complete code s).hostData = s.hostData := rfl
@[simp] theorem complete_epoch (code : BitVec 2) (s : State) :
    (complete code s).epoch = s.epoch := rfl
@[simp] theorem complete_fresh (code : BitVec 2) (s : State) :
    (complete code s).fresh = s.fresh := rfl

/-! ## `writeFb` (R8) -/

@[simp] theorem writeFb_build (a : Nat) (v : Byte) (s : State) :
    (writeFb a v s).build = s.build := rfl
@[simp] theorem writeFb_width (a : Nat) (v : Byte) (s : State) :
    (writeFb a v s).width = s.width := rfl
@[simp] theorem writeFb_height (a : Nat) (v : Byte) (s : State) :
    (writeFb a v s).height = s.height := rfl
@[simp] theorem writeFb_pages (a : Nat) (v : Byte) (s : State) :
    (writeFb a v s).pages = s.pages := rfl
@[simp] theorem writeFb_bufsize (a : Nat) (v : Byte) (s : State) :
    (writeFb a v s).bufsize = s.bufsize := rfl
@[simp] theorem writeFb_busAddr (a : Nat) (v : Byte) (s : State) :
    (writeFb a v s).busAddr = s.busAddr := rfl
@[simp] theorem writeFb_busSel (a : Nat) (v : Byte) (s : State) :
    (writeFb a v s).busSel = s.busSel := rfl
@[simp] theorem writeFb_mtxChan (a : Nat) (v : Byte) (s : State) :
    (writeFb a v s).mtxChan = s.mtxChan := rfl
@[simp] theorem writeFb_mtxPin (a : Nat) (v : Byte) (s : State) :
    (writeFb a v s).mtxPin = s.mtxPin := rfl
@[simp] theorem writeFb_cmd (a : Nat) (v : Byte) (s : State) :
    (writeFb a v s).cmd = s.cmd := rfl
@[simp] theorem writeFb_busy (a : Nat) (v : Byte) (s : State) :
    (writeFb a v s).busy = s.busy := rfl
@[simp] theorem writeFb_dispReady (a : Nat) (v : Byte) (s : State) :
    (writeFb a v s).dispReady = s.dispReady := rfl
@[simp] theorem writeFb_mtxReady (a : Nat) (v : Byte) (s : State) :
    (writeFb a v s).mtxReady = s.mtxReady := rfl
@[simp] theorem writeFb_fault (a : Nat) (v : Byte) (s : State) :
    (writeFb a v s).fault = s.fault := rfl
@[simp] theorem writeFb_err (a : Nat) (v : Byte) (s : State) :
    (writeFb a v s).err = s.err := rfl
@[simp] theorem writeFb_rv0 (a : Nat) (v : Byte) (s : State) :
    (writeFb a v s).rv0 = s.rv0 := rfl
@[simp] theorem writeFb_rv1 (a : Nat) (v : Byte) (s : State) :
    (writeFb a v s).rv1 = s.rv1 := rfl
@[simp] theorem writeFb_cause (a : Nat) (v : Byte) (s : State) :
    (writeFb a v s).cause = s.cause := rfl
@[simp] theorem writeFb_op (a : Nat) (v : Byte) (s : State) :
    (writeFb a v s).op = s.op := rfl
@[simp] theorem writeFb_info (a : Nat) (v : Byte) (s : State) :
    (writeFb a v s).info = s.info := rfl
@[simp] theorem writeFb_fb (a : Nat) (v : Byte) (s : State) :
    (writeFb a v s).fb = cellWrite s.fb a v := rfl
@[simp] theorem writeFb_cbuf (a : Nat) (v : Byte) (s : State) :
    (writeFb a v s).cbuf = s.cbuf := rfl
@[simp] theorem writeFb_strbuf (a : Nat) (v : Byte) (s : State) :
    (writeFb a v s).strbuf = s.strbuf := rfl
@[simp] theorem writeFb_work (a : Nat) (v : Byte) (s : State) :
    (writeFb a v s).work = s.work := rfl
@[simp] theorem writeFb_bus (a : Nat) (v : Byte) (s : State) :
    (writeFb a v s).bus = s.bus := rfl
@[simp] theorem writeFb_busCut (a : Nat) (v : Byte) (s : State) :
    (writeFb a v s).busCut = s.busCut := rfl
@[simp] theorem writeFb_led (a : Nat) (v : Byte) (s : State) :
    (writeFb a v s).led = s.led := rfl
@[simp] theorem writeFb_ledQueue (a : Nat) (v : Byte) (s : State) :
    (writeFb a v s).ledQueue = s.ledQueue := rfl
@[simp] theorem writeFb_pending (a : Nat) (v : Byte) (s : State) :
    (writeFb a v s).pending = s.pending := rfl
@[simp] theorem writeFb_busRoom (a : Nat) (v : Byte) (s : State) :
    (writeFb a v s).busRoom = s.busRoom := rfl
@[simp] theorem writeFb_ledRoom (a : Nat) (v : Byte) (s : State) :
    (writeFb a v s).ledRoom = s.ledRoom := rfl
@[simp] theorem writeFb_clkOk (a : Nat) (v : Byte) (s : State) :
    (writeFb a v s).clkOk = s.clkOk := rfl
@[simp] theorem writeFb_slotAvail (a : Nat) (v : Byte) (s : State) :
    (writeFb a v s).slotAvail = s.slotAvail := rfl
@[simp] theorem writeFb_inputs (a : Nat) (v : Byte) (s : State) :
    (writeFb a v s).inputs = s.inputs := rfl
@[simp] theorem writeFb_hostData (a : Nat) (v : Byte) (s : State) :
    (writeFb a v s).hostData = s.hostData := rfl
@[simp] theorem writeFb_epoch (a : Nat) (v : Byte) (s : State) :
    (writeFb a v s).epoch = s.epoch := rfl
@[simp] theorem writeFb_fresh (a : Nat) (v : Byte) (s : State) :
    (writeFb a v s).fresh = s.fresh := rfl

/-! ## `faultEntry` (R165) -/

@[simp] theorem faultEntry_build (opc : BitVec 4) (r : Raise) (s : State) :
    (faultEntry opc r s).build = s.build := rfl
@[simp] theorem faultEntry_width (opc : BitVec 4) (r : Raise) (s : State) :
    (faultEntry opc r s).width = s.width := rfl
@[simp] theorem faultEntry_height (opc : BitVec 4) (r : Raise) (s : State) :
    (faultEntry opc r s).height = s.height := rfl
@[simp] theorem faultEntry_pages (opc : BitVec 4) (r : Raise) (s : State) :
    (faultEntry opc r s).pages = s.pages := rfl
@[simp] theorem faultEntry_bufsize (opc : BitVec 4) (r : Raise) (s : State) :
    (faultEntry opc r s).bufsize = s.bufsize := rfl
@[simp] theorem faultEntry_busAddr (opc : BitVec 4) (r : Raise) (s : State) :
    (faultEntry opc r s).busAddr = s.busAddr := rfl
@[simp] theorem faultEntry_busSel (opc : BitVec 4) (r : Raise) (s : State) :
    (faultEntry opc r s).busSel = s.busSel := rfl
@[simp] theorem faultEntry_mtxChan (opc : BitVec 4) (r : Raise) (s : State) :
    (faultEntry opc r s).mtxChan = s.mtxChan := rfl
@[simp] theorem faultEntry_mtxPin (opc : BitVec 4) (r : Raise) (s : State) :
    (faultEntry opc r s).mtxPin = s.mtxPin := rfl
@[simp] theorem faultEntry_cmd (opc : BitVec 4) (r : Raise) (s : State) :
    (faultEntry opc r s).cmd = s.cmd := rfl
@[simp] theorem faultEntry_busy (opc : BitVec 4) (r : Raise) (s : State) :
    (faultEntry opc r s).busy = false := rfl
@[simp] theorem faultEntry_dispReady (opc : BitVec 4) (r : Raise) (s : State) :
    (faultEntry opc r s).dispReady = s.dispReady := rfl
@[simp] theorem faultEntry_mtxReady (opc : BitVec 4) (r : Raise) (s : State) :
    (faultEntry opc r s).mtxReady = s.mtxReady := rfl
@[simp] theorem faultEntry_fault (opc : BitVec 4) (r : Raise) (s : State) :
    (faultEntry opc r s).fault = true := rfl
@[simp] theorem faultEntry_err (opc : BitVec 4) (r : Raise) (s : State) :
    (faultEntry opc r s).err = Config.freeErr s.fresh := rfl
@[simp] theorem faultEntry_rv0 (opc : BitVec 4) (r : Raise) (s : State) :
    (faultEntry opc r s).rv0 = (Config.freeResult s.fresh).extractLsb' 0 8 := rfl
@[simp] theorem faultEntry_rv1 (opc : BitVec 4) (r : Raise) (s : State) :
    (faultEntry opc r s).rv1 = (Config.freeResult s.fresh).extractLsb' 8 8 := rfl
@[simp] theorem faultEntry_cause (opc : BitVec 4) (r : Raise) (s : State) :
    (faultEntry opc r s).cause = r.cause.code := rfl
@[simp] theorem faultEntry_op (opc : BitVec 4) (r : Raise) (s : State) :
    (faultEntry opc r s).op = opc := rfl
@[simp] theorem faultEntry_info (opc : BitVec 4) (r : Raise) (s : State) :
    (faultEntry opc r s).info = r.info := rfl
@[simp] theorem faultEntry_fb (opc : BitVec 4) (r : Raise) (s : State) :
    (faultEntry opc r s).fb = s.fb := rfl
@[simp] theorem faultEntry_cbuf (opc : BitVec 4) (r : Raise) (s : State) :
    (faultEntry opc r s).cbuf = s.cbuf := rfl
@[simp] theorem faultEntry_strbuf (opc : BitVec 4) (r : Raise) (s : State) :
    (faultEntry opc r s).strbuf = s.strbuf := rfl
@[simp] theorem faultEntry_work (opc : BitVec 4) (r : Raise) (s : State) :
    (faultEntry opc r s).work = s.work := rfl
@[simp] theorem faultEntry_bus (opc : BitVec 4) (r : Raise) (s : State) :
    (faultEntry opc r s).bus = s.bus := rfl
@[simp] theorem faultEntry_busCut (opc : BitVec 4) (r : Raise) (s : State) :
    (faultEntry opc r s).busCut = s.busCut := rfl
@[simp] theorem faultEntry_led (opc : BitVec 4) (r : Raise) (s : State) :
    (faultEntry opc r s).led = s.led := rfl
@[simp] theorem faultEntry_ledQueue (opc : BitVec 4) (r : Raise) (s : State) :
    (faultEntry opc r s).ledQueue = s.ledQueue := rfl
@[simp] theorem faultEntry_pending (opc : BitVec 4) (r : Raise) (s : State) :
    (faultEntry opc r s).pending = none := rfl
@[simp] theorem faultEntry_busRoom (opc : BitVec 4) (r : Raise) (s : State) :
    (faultEntry opc r s).busRoom = s.busRoom := rfl
@[simp] theorem faultEntry_ledRoom (opc : BitVec 4) (r : Raise) (s : State) :
    (faultEntry opc r s).ledRoom = s.ledRoom := rfl
@[simp] theorem faultEntry_clkOk (opc : BitVec 4) (r : Raise) (s : State) :
    (faultEntry opc r s).clkOk = s.clkOk := rfl
@[simp] theorem faultEntry_slotAvail (opc : BitVec 4) (r : Raise) (s : State) :
    (faultEntry opc r s).slotAvail = s.slotAvail := rfl
@[simp] theorem faultEntry_inputs (opc : BitVec 4) (r : Raise) (s : State) :
    (faultEntry opc r s).inputs = s.inputs := rfl
@[simp] theorem faultEntry_hostData (opc : BitVec 4) (r : Raise) (s : State) :
    (faultEntry opc r s).hostData = s.hostData := rfl
@[simp] theorem faultEntry_epoch (opc : BitVec 4) (r : Raise) (s : State) :
    (faultEntry opc r s).epoch = s.epoch := rfl
@[simp] theorem faultEntry_fresh (opc : BitVec 4) (r : Raise) (s : State) :
    (faultEntry opc r s).fresh = s.fresh + 1 := rfl

/-! ## `resetInput` (R185) -/

@[simp] theorem resetInput_build (s : State) :
    (resetInput s).build = s.build := rfl
@[simp] theorem resetInput_width (s : State) :
    (resetInput s).width = 0 := rfl
@[simp] theorem resetInput_height (s : State) :
    (resetInput s).height = 0 := rfl
@[simp] theorem resetInput_pages (s : State) :
    (resetInput s).pages = 0 := rfl
@[simp] theorem resetInput_bufsize (s : State) :
    (resetInput s).bufsize = 0 := rfl
@[simp] theorem resetInput_busAddr (s : State) :
    (resetInput s).busAddr = 0 := rfl
@[simp] theorem resetInput_busSel (s : State) :
    (resetInput s).busSel = 0 := rfl
@[simp] theorem resetInput_mtxChan (s : State) :
    (resetInput s).mtxChan = 0 := rfl
@[simp] theorem resetInput_mtxPin (s : State) :
    (resetInput s).mtxPin = 0 := rfl
@[simp] theorem resetInput_cmd (s : State) :
    (resetInput s).cmd = 0 := rfl
@[simp] theorem resetInput_busy (s : State) :
    (resetInput s).busy = false := rfl
@[simp] theorem resetInput_dispReady (s : State) :
    (resetInput s).dispReady = false := rfl
@[simp] theorem resetInput_mtxReady (s : State) :
    (resetInput s).mtxReady = false := rfl
@[simp] theorem resetInput_fault (s : State) :
    (resetInput s).fault = false := rfl
@[simp] theorem resetInput_err (s : State) :
    (resetInput s).err = 0 := rfl
@[simp] theorem resetInput_rv0 (s : State) :
    (resetInput s).rv0 = 0 := rfl
@[simp] theorem resetInput_rv1 (s : State) :
    (resetInput s).rv1 = 0 := rfl
@[simp] theorem resetInput_cause (s : State) :
    (resetInput s).cause = 0 := rfl
@[simp] theorem resetInput_op (s : State) :
    (resetInput s).op = 0 := rfl
@[simp] theorem resetInput_info (s : State) :
    (resetInput s).info = 0 := rfl
@[simp] theorem resetInput_fb (s : State) :
    (resetInput s).fb = [] := rfl
@[simp] theorem resetInput_cbuf (s : State) :
    (resetInput s).cbuf = [] := rfl
@[simp] theorem resetInput_strbuf (s : State) :
    (resetInput s).strbuf = [] := rfl
@[simp] theorem resetInput_work (s : State) :
    (resetInput s).work = Config.freeWorking s.fresh := rfl
@[simp] theorem resetInput_bus (s : State) :
    (resetInput s).bus = s.bus := rfl
@[simp] theorem resetInput_busCut (s : State) :
    (resetInput s).busCut = s.busCut ++ cutWrites s := rfl
@[simp] theorem resetInput_led (s : State) :
    (resetInput s).led = s.led := rfl
@[simp] theorem resetInput_ledQueue (s : State) :
    (resetInput s).ledQueue = [] := rfl
@[simp] theorem resetInput_pending (s : State) :
    (resetInput s).pending = none := rfl
@[simp] theorem resetInput_busRoom (s : State) :
    (resetInput s).busRoom = s.busRoom := rfl
@[simp] theorem resetInput_ledRoom (s : State) :
    (resetInput s).ledRoom = s.ledRoom := rfl
@[simp] theorem resetInput_clkOk (s : State) :
    (resetInput s).clkOk = s.clkOk := rfl
@[simp] theorem resetInput_slotAvail (s : State) :
    (resetInput s).slotAvail = s.slotAvail := rfl
@[simp] theorem resetInput_inputs (s : State) :
    (resetInput s).inputs = s.inputs := rfl
@[simp] theorem resetInput_hostData (s : State) :
    (resetInput s).hostData = s.hostData := rfl
@[simp] theorem resetInput_epoch (s : State) :
    (resetInput s).epoch = s.epoch + 1 := rfl
@[simp] theorem resetInput_fresh (s : State) :
    (resetInput s).fresh = s.fresh + 1 := rfl

/-! ## `State.resetOf` (R185) -/

@[simp] theorem State.resetOf_build (P : Params) : (State.resetOf P).build = P := rfl
@[simp] theorem State.resetOf_width (P : Params) : (State.resetOf P).width = 0 := rfl
@[simp] theorem State.resetOf_height (P : Params) : (State.resetOf P).height = 0 := rfl
@[simp] theorem State.resetOf_pages (P : Params) : (State.resetOf P).pages = 0 := rfl
@[simp] theorem State.resetOf_bufsize (P : Params) : (State.resetOf P).bufsize = 0 := rfl
@[simp] theorem State.resetOf_busAddr (P : Params) : (State.resetOf P).busAddr = 0 := rfl
@[simp] theorem State.resetOf_busSel (P : Params) : (State.resetOf P).busSel = 0 := rfl
@[simp] theorem State.resetOf_mtxChan (P : Params) : (State.resetOf P).mtxChan = 0 := rfl
@[simp] theorem State.resetOf_mtxPin (P : Params) : (State.resetOf P).mtxPin = 0 := rfl
@[simp] theorem State.resetOf_cmd (P : Params) : (State.resetOf P).cmd = 0 := rfl
@[simp] theorem State.resetOf_busy (P : Params) : (State.resetOf P).busy = false := rfl
@[simp] theorem State.resetOf_dispReady (P : Params) : (State.resetOf P).dispReady = false := rfl
@[simp] theorem State.resetOf_mtxReady (P : Params) : (State.resetOf P).mtxReady = false := rfl
@[simp] theorem State.resetOf_fault (P : Params) : (State.resetOf P).fault = false := rfl
@[simp] theorem State.resetOf_err (P : Params) : (State.resetOf P).err = 0 := rfl
@[simp] theorem State.resetOf_rv0 (P : Params) : (State.resetOf P).rv0 = 0 := rfl
@[simp] theorem State.resetOf_rv1 (P : Params) : (State.resetOf P).rv1 = 0 := rfl
@[simp] theorem State.resetOf_cause (P : Params) : (State.resetOf P).cause = 0 := rfl
@[simp] theorem State.resetOf_op (P : Params) : (State.resetOf P).op = 0 := rfl
@[simp] theorem State.resetOf_info (P : Params) : (State.resetOf P).info = 0 := rfl
@[simp] theorem State.resetOf_fb (P : Params) : (State.resetOf P).fb = [] := rfl
@[simp] theorem State.resetOf_cbuf (P : Params) : (State.resetOf P).cbuf = [] := rfl
@[simp] theorem State.resetOf_strbuf (P : Params) : (State.resetOf P).strbuf = [] := rfl
@[simp] theorem State.resetOf_work (P : Params) : (State.resetOf P).work = Working.reset := rfl
@[simp] theorem State.resetOf_bus (P : Params) : (State.resetOf P).bus = [] := rfl
@[simp] theorem State.resetOf_busCut (P : Params) : (State.resetOf P).busCut = [] := rfl
@[simp] theorem State.resetOf_led (P : Params) : (State.resetOf P).led = [] := rfl
@[simp] theorem State.resetOf_ledQueue (P : Params) : (State.resetOf P).ledQueue = [] := rfl
@[simp] theorem State.resetOf_pending (P : Params) : (State.resetOf P).pending = none := rfl
@[simp] theorem State.resetOf_busRoom (P : Params) : (State.resetOf P).busRoom = .unlimited := rfl
@[simp] theorem State.resetOf_ledRoom (P : Params) : (State.resetOf P).ledRoom = .unlimited := rfl
@[simp] theorem State.resetOf_clkOk (P : Params) : (State.resetOf P).clkOk = true := rfl
@[simp] theorem State.resetOf_slotAvail (P : Params) : (State.resetOf P).slotAvail = true := rfl
@[simp] theorem State.resetOf_inputs (P : Params) : (State.resetOf P).inputs = [] := rfl
@[simp] theorem State.resetOf_hostData (P : Params) : (State.resetOf P).hostData = 0 := rfl
@[simp] theorem State.resetOf_epoch (P : Params) : (State.resetOf P).epoch = 0 := rfl
@[simp] theorem State.resetOf_fresh (P : Params) : (State.resetOf P).fresh = 0 := rfl

end Sys2Proof.Machine
end

