-- ==== Sys2Proof/Laws/Output.lean ====
section
/-! SUPPORT. What the two sinks can do to a command's output (R18, R19, R170). -/

namespace Sys2Proof.Machine

/-! ## Room -/

@[simp] theorem Room.covers_unlimited (n : Nat) : Room.unlimited.covers n = true := rfl
@[simp] theorem Room.takes_unlimited (n : Nat) : Room.unlimited.takes n = n := rfl
@[simp] theorem Room.after_unlimited (n : Nat) : Room.unlimited.after n = .unlimited := rfl
@[simp] theorem Room.covers_limited (k n : Nat) : (Room.limited k).covers n = decide (n ≤ k) := rfl
@[simp] theorem Room.takes_limited (k n : Nat) : (Room.limited k).takes n = min n k := rfl
@[simp] theorem Room.after_limited (k n : Nat) : (Room.limited k).after n = .limited (k - n) := rfl

theorem Room.after_after (r : Room) (m n : Nat) : (r.after m).after n = r.after (m + n) := by
  cases r <;> simp [Nat.sub_sub]

theorem Room.covers_add (r : Room) (m n : Nat) :
    r.covers (m + n) = (r.covers m && (r.after m).covers n) := by
  cases r with
  | unlimited => rfl
  | limited k =>
    simp only [covers_limited, after_limited]
    rw [← Bool.decide_and]
    exact decide_eq_decide.2 (by omega)

/-- A sink that covers the items takes all of them. -/
theorem Room.takes_of_covers {r : Room} {n : Nat} (h : r.covers n = true) : r.takes n = n := by
  cases r with
  | unlimited => rfl
  | limited k => simpa using h

/-- A sink that does not cover the items refuses one. -/
theorem Room.takes_lt_of_not_covers {r : Room} {n : Nat} (h : r.covers n = false) : r.takes n < n := by
  cases r with
  | unlimited => simp at h
  | limited k =>
    simp only [covers_limited, decide_eq_false_iff_not, takes_limited] at *
    omega

/-- A sink that refused an item has no room left. -/
theorem Room.after_of_not_covers {r : Room} {n : Nat} (h : r.covers n = false) : r.after n = .limited 0 := by
  cases r with
  | unlimited => simp at h
  | limited k =>
    simp only [covers_limited, decide_eq_false_iff_not, after_limited] at *
    congr 1
    omega

/-! ## The bus -/

/-- The number of bytes of the transactions. -/
def totalBytes (ts : List (List Byte)) : Nat := (ts.map List.length).sum

@[simp] theorem totalBytes_nil : totalBytes [] = 0 := rfl
@[simp] theorem totalBytes_cons (t : List Byte) (ts : List (List Byte)) :
    totalBytes (t :: ts) = t.length + totalBytes ts := by simp [totalBytes]

@[simp] theorem totalBytes_append (l m : List (List Byte)) : totalBytes (l ++ m) = totalBytes l + totalBytes m := by
  simp [totalBytes]

@[simp] theorem totalBytes_map_commandWrite (l : List Byte) : totalBytes (l.map commandWrite) = 2 * l.length := by
  induction l with
  | nil => rfl
  | cons a l ih => simp [ih, commandWrite]; omega

/-- Transactions as the `BUS` trace records them (R18). -/
def asWrites (s : State) (ts : List (List Byte)) : List BusWrite := ts.map fun t => ⟨s.busSel, s.busAddr, t⟩

/-- A sink that takes every byte: all transactions join the trace and the command ends. -/
theorem sendBus_of_covers (d : BusEnd) (sent todo : List Byte) (rest : List (List Byte)) (s : State)
    (h : s.busRoom.covers (todo.length + totalBytes rest) = true) :
    sendBus d sent todo rest s =
      busDone d
        { s with
          busRoom := s.busRoom.after (todo.length + totalBytes rest)
          bus := s.bus ++ asWrites s ((sent ++ todo) :: rest) } := by
  induction rest generalizing sent todo s with
  | nil =>
    simp only [totalBytes_nil, Nat.add_zero] at h ⊢
    simp [sendBus, h, asWrites]
  | cons t ts ih =>
    rw [totalBytes_cons, Room.covers_add, Bool.and_eq_true] at h
    rw [sendBus, if_pos h.1, totalBytes_cons]
    simp only
    rw [ih [] t _ h.2]
    simp [asWrites, Room.after_after, List.append_assoc]

/-- `emit BUS` for transactions the sink takes in full. -/
theorem emitBus_of_covers (d : BusEnd) (ts : List (List Byte)) (s : State)
    (h : s.busRoom.covers (totalBytes ts) = true) :
    emitBus d ts s =
      busDone d { s with busRoom := s.busRoom.after (totalBytes ts), bus := s.bus ++ asWrites s ts } := by
  cases ts with
  | nil =>
    have : s.busRoom.after 0 = s.busRoom := by cases s.busRoom <;> rfl
    simp [emitBus, asWrites, this]
  | cons t ts =>
    rw [totalBytes_cons] at h
    simp only [emitBus, totalBytes_cons]
    rw [sendBus_of_covers d [] t ts s h]
    rfl

/-- A bus command either ends with some of its transactions added to the trace, or waits with the rest of its output
pending and no room left in the sink. -/
theorem sendBus_cases (d : BusEnd) (sent todo : List Byte) (rest : List (List Byte)) (s : State) :
    ∃ r ts, ts <+: ((sent ++ todo) :: rest) ∧
      ((ts = (sent ++ todo) :: rest ∧
          sendBus d sent todo rest s = busDone d { s with busRoom := r, bus := s.bus ++ asWrites s ts }) ∨
        ∃ sent' todo' rest', (sent ++ todo) :: rest = ts ++ (sent' ++ todo') :: rest' ∧ todo' ≠ [] ∧ r = .limited 0 ∧
          sendBus d sent todo rest s =
            { s with
              busRoom := r, bus := s.bus ++ asWrites s ts, busy := true
              pending := some (.bus sent' todo' rest' d) }) := by
  induction rest generalizing sent todo s with
  | nil =>
    by_cases h : s.busRoom.covers todo.length = true
    · refine ⟨s.busRoom.after todo.length, [sent ++ todo], List.prefix_refl _, .inl ⟨rfl, ?_⟩⟩
      simp only [sendBus, h, if_true]
      rfl
    · have h' := Bool.eq_false_iff.2 h
      refine ⟨s.busRoom.after todo.length, [], List.nil_prefix,
        .inr ⟨sent ++ todo.take (s.busRoom.takes todo.length), todo.drop (s.busRoom.takes todo.length), [],
          ?_, ?_, Room.after_of_not_covers h', ?_⟩⟩
      · simp [List.append_assoc]
      · have := Room.takes_lt_of_not_covers h'
        simpa using this
      · simp [sendBus, h, asWrites]
  | cons t ts ih =>
    by_cases h : s.busRoom.covers todo.length = true
    · obtain ⟨r, us, hus, hcase⟩ := ih [] t
        { s with
          busRoom := s.busRoom.after todo.length
          bus := s.bus ++ [⟨s.busSel, s.busAddr, sent ++ todo⟩] }
      refine ⟨r, (sent ++ todo) :: us, by simpa using hus, ?_⟩
      rw [sendBus, if_pos h]
      simp only
      rcases hcase with ⟨hall, heq⟩ | ⟨sent', todo', rest', hsplit, hne, hr, heq⟩
      · refine .inl ⟨by simp [hall], ?_⟩
        rw [heq]
        simp [asWrites, List.append_assoc]
      · refine .inr ⟨sent', todo', rest', by simpa using hsplit, hne, hr, ?_⟩
        rw [heq]
        simp [asWrites, List.append_assoc]
    · have h' := Bool.eq_false_iff.2 h
      refine ⟨s.busRoom.after todo.length, [], List.nil_prefix,
        .inr ⟨sent ++ todo.take (s.busRoom.takes todo.length), todo.drop (s.busRoom.takes todo.length), t :: ts,
          ?_, ?_, Room.after_of_not_covers h', ?_⟩⟩
      · simp [List.append_assoc]
      · have := Room.takes_lt_of_not_covers h'
        simpa using this
      · simp [sendBus, h, asWrites]

/-- `emit BUS`: the command ends with all its transactions in the trace, or waits with some of them there. -/
theorem emitBus_cases (d : BusEnd) (all : List (List Byte)) (s : State) :
    ∃ r ts, ts <+: all ∧
      ((ts = all ∧ emitBus d all s = busDone d { s with busRoom := r, bus := s.bus ++ asWrites s ts }) ∨
        ∃ sent todo rest, all = ts ++ (sent ++ todo) :: rest ∧ todo ≠ [] ∧ r = .limited 0 ∧
          emitBus d all s =
            { s with
              busRoom := r, bus := s.bus ++ asWrites s ts, busy := true
              pending := some (.bus sent todo rest d) }) := by
  cases all with
  | nil => exact ⟨s.busRoom, [], List.prefix_refl _, .inl ⟨rfl, by simp [emitBus, asWrites]⟩⟩
  | cons t ts => exact sendBus_cases d [] t ts s

/-! ## The LED queue -/

/-- A queue that takes every word: all join the trace and the queue, and the command ends. -/
theorem sendLed_of_covers (ws : List LedWord) (s : State) (h : s.ledRoom.covers ws.length = true) :
    sendLed ws s =
      complete errOk
        { s with
          ledRoom := s.ledRoom.after ws.length, led := s.led ++ ws, ledQueue := s.ledQueue ++ ws
          work := { s.work with mp := 24#5 } } := by
  simp [sendLed, h, Room.takes_of_covers h]

/-- MDRAW either ends with its words in trace and queue, or waits with the rest pending. -/
theorem sendLed_cases (ws : List LedWord) (s : State) :
    (s.ledRoom.covers ws.length = true ∧
      sendLed ws s =
        complete errOk
          { s with
            ledRoom := s.ledRoom.after ws.length, led := s.led ++ ws, ledQueue := s.ledQueue ++ ws
            work := { s.work with mp := 24#5 } }) ∨
    (s.ledRoom.covers ws.length = false ∧ ∃ n m, n < ws.length ∧
      sendLed ws s =
        { s with
          ledRoom := .limited 0, led := s.led ++ ws.take n, ledQueue := s.ledQueue ++ ws.take n
          work := { s.work with mp := m }
          busy := true, pending := some (.led (ws.drop n)) }) := by
  by_cases h : s.ledRoom.covers ws.length = true
  · exact .inl ⟨h, sendLed_of_covers ws s h⟩
  · have h' := Bool.eq_false_iff.2 h
    refine .inr ⟨h', s.ledRoom.takes ws.length,
      BitVec.ofNat 5 (min 24 (25 - (ws.length - s.ledRoom.takes ws.length))), Room.takes_lt_of_not_covers h', ?_⟩
    simp only [sendLed, h', Bool.false_eq_true, if_false, Room.after_of_not_covers h']

end Sys2Proof.Machine
end

