-- ==== Sys2Proof/Laws/Memory.lean ====
section
/-! SUPPORT. The laws of memory entries: read after write, and the canonical form every write keeps. -/

namespace Sys2Proof.Machine

variable {w : Nat}

@[simp] theorem cellRead_nil (a : Nat) : cellRead ([] : List (Nat × BitVec w)) a = none := rfl

/-- Reading after a write: the written value at its index, every other index as before. -/
theorem cellRead_cellWrite (m : List (Nat × BitVec w)) (a b : Nat) (v : BitVec w) :
    cellRead (cellWrite m a v) b = if b = a then some v else cellRead m b := by
  induction m with
  | nil => simp [cellWrite, cellRead]
  | cons c m ih =>
    obtain ⟨k, x⟩ := c
    simp only [cellWrite]
    split
    · simp [cellRead]
    · split
      · rename_i h
        subst h
        simp only [cellRead]
        split <;> rfl
      · simp only [cellRead, ih]
        split <;> split <;> first | rfl | omega

@[simp] theorem cellRead_cellWrite_same (m : List (Nat × BitVec w)) (a : Nat) (v : BitVec w) :
    cellRead (cellWrite m a v) a = some v := by
  simp [cellRead_cellWrite]

theorem cellRead_cellWrite_of_ne (m : List (Nat × BitVec w)) {a b : Nat} (v : BitVec w) (h : b ≠ a) :
    cellRead (cellWrite m a v) b = cellRead m b := by
  simp [cellRead_cellWrite, h]

/-- A write keeps the indices rising from `lo`. -/
theorem cellsRiseFrom_cellWrite (m : List (Nat × BitVec w)) (lo a : Nat) (v : BitVec w)
    (hm : cellsRiseFrom lo m = true) (ha : lo ≤ a) : cellsRiseFrom lo (cellWrite m a v) = true := by
  induction m generalizing lo with
  | nil => simp [cellWrite, cellsRiseFrom, ha]
  | cons c m ih =>
    obtain ⟨k, x⟩ := c
    simp only [cellsRiseFrom, Bool.and_eq_true, decide_eq_true_eq] at hm
    simp only [cellWrite]
    split
    · simp only [cellsRiseFrom, Bool.and_eq_true, decide_eq_true_eq]
      exact ⟨ha, by omega, hm.2⟩
    · split
      · rename_i h
        subst h
        simp [cellsRiseFrom, hm.2, ha]
      · simp only [cellsRiseFrom, Bool.and_eq_true, decide_eq_true_eq]
        exact ⟨hm.1, ih (k + 1) hm.2 (by omega)⟩

/-- A write keeps every index below `n`. -/
theorem cellsBelow_cellWrite (m : List (Nat × BitVec w)) (n a : Nat) (v : BitVec w)
    (hm : cellsBelow n m = true) (ha : a < n) : cellsBelow n (cellWrite m a v) = true := by
  induction m with
  | nil => simp [cellWrite, cellsBelow, ha]
  | cons c m ih =>
    obtain ⟨k, x⟩ := c
    simp only [cellsBelow, List.all_cons, Bool.and_eq_true, decide_eq_true_eq] at hm ih ⊢
    simp only [cellWrite]
    split
    · simp [ha, hm.1, hm.2]
    · split
      · simp [ha, hm.2]
      · simp [hm.1, ih hm.2]

/-- A byte write keeps the canonical form. -/
theorem Memory.wf_cellWrite (m : Memory) (a : Nat) (v : Byte) (h : m.wf = true) :
    Memory.wf (cellWrite m a v) = true :=
  cellsRiseFrom_cellWrite m 0 a v h (Nat.zero_le a)

/-- A `CBUF` write keeps the canonical form. -/
theorem ColourMemory.wf_cellWrite (m : ColourMemory) (a : Nat) (v : ColourEntry) (h : m.wf = true) :
    ColourMemory.wf (cellWrite m a v) = true :=
  cellsRiseFrom_cellWrite m 0 a v h (Nat.zero_le a)

/-- The memories of reset are canonical. -/
theorem reset_memories_wf :
    State.reset.fb.wf = true ∧ State.reset.cbuf.wf = true ∧ State.reset.strbuf.wf = true := by
  decide

/-- Reading `FB` after a write. -/
theorem fbByte_writeFb (s : State) (a b : Nat) (v : Byte) :
    fbByte (writeFb a v s) b = if b = a then v else fbByte s b := by
  simp only [fbByte, writeFb, cellRead_cellWrite]
  split <;> simp

end Sys2Proof.Machine
end

