-- ==== Sys2Proof/Laws/Pixel.lean ====
section
/-! SUPPORT. What a pixel write, a sequence of pixel writes and a drawing command can do (R32, R33, R165). -/

namespace Sys2Proof.Machine

/-! ## One pixel write -/

theorem pixelBit_lt (y : Int) : pixelBit y < 8 := by unfold pixelBit; omega

/-- A byte with one bit set or cleared by the mask of R32. -/
theorem setBit_getLsbD (old : Byte) (k b : Nat) (on : Bool) (hb : b < 8) :
    (if on then old ||| (1#8 <<< k) else old &&& ~~~(1#8 <<< k)).getLsbD b
      = if k = b then on else old.getLsbD b := by
  have h1 : (1#8 <<< k).getLsbD b = decide (k = b) := by
    simp only [BitVec.getLsbD_shiftLeft, BitVec.getLsbD_one]
    by_cases hlt : b < k
    · simp [hlt, show k ≠ b by omega]
    · simp only [hb, hlt, decide_true, decide_false, Bool.not_false, Bool.and_true, Bool.true_and]
      exact decide_eq_decide.2 (by omega)
  cases on
  · simp only [Bool.false_eq_true, if_false, BitVec.getLsbD_and, BitVec.getLsbD_not, h1, hb]
    by_cases h : k = b <;> simp [h]
  · simp only [if_true, BitVec.getLsbD_or, h1]
    by_cases h : k = b <;> simp [h]

/-- A pixel write sets its own bit and leaves every other bit. -/
theorem fbBit_writePixel (p : Pixel) (s : State) (a b : Nat) (hb : b < 8) :
    fbBit (writePixel p s) a b
      = if (pixelAddr p.x p.y).toNat = a ∧ pixelBit p.y = b then p.on else fbBit s a b := by
  unfold fbBit writePixel
  simp only [fbByte_writeFb]
  by_cases ha : a = (pixelAddr p.x p.y).toNat
  · subst ha
    simp only [if_true, true_and, pixelMask]
    exact setBit_getLsbD _ _ _ _ hb
  · simp [ha, Ne.symm ha]

/-- A pixel write changes `FB` only. -/
theorem writePixel_eq (p : Pixel) (s : State) : writePixel p s = { s with fb := (writePixel p s).fb } := rfl

/-- What the two tests of R32 say of a pixel. -/
theorem pixelOk_iff (s : State) (p : Pixel) :
    pixelOk s p = true ↔
      0 ≤ p.x ∧ 0 ≤ p.y ∧ p.x < zext s.width ∧ p.y < zext s.height ∧ pixelAddr p.x p.y < (s.bufsize.toNat : Int) := by
  simp [pixelOk, inDisplay, inBuffer, and_assoc]

/-- The tests read the registers only. -/
theorem pixelOk_fb (s : State) (m : Memory) (p : Pixel) : pixelOk { s with fb := m } p = pixelOk s p := rfl

@[simp] theorem pixelOk_writePixel (s : State) (p q : Pixel) : pixelOk (writePixel p s) q = pixelOk s q := rfl

/-- A pixel that passes has a byte index from 1 to `BUFSIZE - 1`: the header byte is out of reach (R33). -/
theorem pixelOk_index (s : State) (p : Pixel) (h : pixelOk s p = true) :
    1 ≤ (pixelAddr p.x p.y).toNat ∧ (pixelAddr p.x p.y).toNat < s.bufsize.toNat ∧
      ((pixelAddr p.x p.y).toNat : Int) = pixelAddr p.x p.y := by
  obtain ⟨hx, hy, -, -, hb⟩ := (pixelOk_iff s p).1 h
  unfold pixelAddr at *
  omega

/-- `hits` in terms of the index a write uses, for a pixel that passes. -/
theorem hits_iff (s : State) (p : Pixel) (h : pixelOk s p = true) (a b : Nat) :
    hits p.x p.y a b ↔ (pixelAddr p.x p.y).toNat = a ∧ pixelBit p.y = b := by
  have := (pixelOk_index s p h).2.2
  unfold hits
  constructor <;> rintro ⟨h1, h2⟩ <;> exact ⟨by omega, h2⟩

/-! ## A sequence of pixel writes -/

/-- The writes carried out one after the other. -/
def paintAll (ps : List Pixel) (s : State) : State := ps.foldl (fun s p => writePixel p s) s

@[simp] theorem paintAll_nil (s : State) : paintAll [] s = s := rfl

@[simp] theorem paintAll_cons (p : Pixel) (ps : List Pixel) (s : State) :
    paintAll (p :: ps) s = paintAll ps (writePixel p s) := rfl

theorem paintAll_append (ps qs : List Pixel) (s : State) : paintAll (ps ++ qs) s = paintAll qs (paintAll ps s) := by
  simp [paintAll, List.foldl_append]

/-- Pixel writes change `FB` only. -/
theorem paintAll_eq (ps : List Pixel) (s : State) : paintAll ps s = { s with fb := (paintAll ps s).fb } := by
  induction ps generalizing s with
  | nil => rfl
  | cons p ps ih =>
    rw [paintAll_cons, ih (writePixel p s)]
    rfl

/-- All pixels pass, so the sequence ends without a fault. -/
theorem pixels_of_ok (ps : List Pixel) (s : State) (h : ∀ p ∈ ps, pixelOk s p = true) :
    pixels ps s = .ok (paintAll ps s) := by
  induction ps generalizing s with
  | nil => rfl
  | cons p ps ih =>
    have hp := h p (List.mem_cons_self ..)
    simp only [pixels, pixel, hp, if_true, paintAll_cons]
    exact ih _ fun q hq => by simpa using h q (List.mem_cons_of_mem _ hq)

/-- Some pixel does not pass, so the sequence ends with the fault of the first such pixel (R167). -/
theorem pixels_of_bad (ps : List Pixel) (s : State) (p : Pixel)
    (h : ps.find? (fun q => !pixelOk s q) = some p) : pixels ps s = .error (coordRaise p) := by
  induction ps generalizing s with
  | nil => simp at h
  | cons q ps ih =>
    by_cases hq : pixelOk s q = true
    · simp only [pixels, pixel, hq, if_true]
      apply ih
      simpa [List.find?, hq] using h
    · simp only [pixels, pixel, hq]
      simp only [List.find?, hq] at h
      simp at h
      subst h
      rfl

/-- A sequence ends in one of these two ways. -/
theorem pixels_cases (ps : List Pixel) (s : State) :
    ((∀ p ∈ ps, pixelOk s p = true) ∧ pixels ps s = .ok (paintAll ps s)) ∨
    ∃ p, ps.find? (fun q => !pixelOk s q) = some p ∧ p ∈ ps ∧ pixelOk s p = false ∧
      pixels ps s = .error (coordRaise p) := by
  cases h : ps.find? (fun q => !pixelOk s q) with
  | none =>
    left
    have hall : ∀ p ∈ ps, pixelOk s p = true := by simpa using h
    exact ⟨hall, pixels_of_ok ps s hall⟩
  | some p =>
    right
    exact ⟨p, rfl, List.mem_of_find?_eq_some h, by simpa using List.find?_some h, pixels_of_bad ps s p h⟩

/-- A bit no pixel of the sequence hits is as before. -/
theorem fbBit_paintAll_miss (ps : List Pixel) (s : State) (a b : Nat) (hb : b < 8)
    (h : ∀ p ∈ ps, ¬((pixelAddr p.x p.y).toNat = a ∧ pixelBit p.y = b)) :
    fbBit (paintAll ps s) a b = fbBit s a b := by
  induction ps generalizing s with
  | nil => rfl
  | cons p ps ih =>
    rw [paintAll_cons, ih _ fun q hq => h q (List.mem_cons_of_mem _ hq), fbBit_writePixel p s a b hb,
      if_neg (h p (List.mem_cons_self ..))]

/-- A bit takes the value of the pixels that hit it, if they all agree. -/
theorem fbBit_paintAll_hit (ps : List Pixel) (s : State) (a b : Nat) (v : Bool) (hb : b < 8)
    (hv : ∀ p ∈ ps, (pixelAddr p.x p.y).toNat = a ∧ pixelBit p.y = b → p.on = v)
    (h : ∃ p ∈ ps, (pixelAddr p.x p.y).toNat = a ∧ pixelBit p.y = b) :
    fbBit (paintAll ps s) a b = v := by
  induction ps generalizing s with
  | nil => simp at h
  | cons p ps ih =>
    rw [paintAll_cons]
    by_cases hps : ∃ q ∈ ps, (pixelAddr q.x q.y).toNat = a ∧ pixelBit q.y = b
    · exact ih _ (fun q hq => hv q (List.mem_cons_of_mem _ hq)) hps
    · obtain ⟨q, hq, hqa⟩ := h
      have hqp : q = p := by
        rcases List.mem_cons.1 hq with rfl | hq'
        · rfl
        · exact absurd ⟨q, hq', hqa⟩ hps
      subst hqp
      rw [fbBit_paintAll_miss ps _ a b hb fun r hr hra => hps ⟨r, hr, hra⟩, fbBit_writePixel q s a b hb, if_pos hqa]
      exact hv q hq hqa

/-- Writes of one value that all pass paint exactly their pixels. -/
theorem paints_paintAll (ps : List Pixel) (s : State) (on : Bool) (S : Int → Int → Prop)
    (hok : ∀ p ∈ ps, pixelOk s p = true) (hon : ∀ p ∈ ps, p.on = on)
    (hS : ∀ x y, S x y ↔ ∃ p ∈ ps, p.x = x ∧ p.y = y) : paints s (paintAll ps s) on S := by
  intro a b hb
  constructor
  · rintro ⟨x, y, hxy, hit⟩
    obtain ⟨p, hp, rfl, rfl⟩ := (hS x y).1 hxy
    exact fbBit_paintAll_hit ps s a b on hb (fun q hq _ => hon q hq) ⟨p, hp, (hits_iff s p (hok p hp) a b).1 hit⟩
  · intro hno
    apply fbBit_paintAll_miss ps s a b hb
    intro p hp hit
    exact hno ⟨p.x, p.y, (hS _ _).2 ⟨p, hp, rfl, rfl⟩, (hits_iff s p (hok p hp) a b).2 hit⟩

/-! ## A fault in the middle of a drawing command -/

/-- The writes of a faulting command change `FB` only. -/
theorem someWrites_eq (d i : Nat) (ps : List Pixel) (s : State) :
    someWrites d i ps s = { s with fb := (someWrites d i ps s).fb } := by
  induction ps generalizing i s with
  | nil => rfl
  | cons p ps ih =>
    simp only [someWrites]
    split
    · rw [ih (i + 1) (writePixel p s)]
      rfl
    · exact ih (i + 1) s

/-- After a fault each bit is as before, or has the value of a pixel of the command that hits it and passes. -/
theorem fbBit_someWrites (d i : Nat) (ps : List Pixel) (s : State) (a b : Nat) (hb : b < 8) :
    fbBit (someWrites d i ps s) a b = fbBit s a b ∨
    ∃ p ∈ ps, pixelOk s p = true ∧ (pixelAddr p.x p.y).toNat = a ∧ pixelBit p.y = b ∧
      fbBit (someWrites d i ps s) a b = p.on := by
  induction ps generalizing i s with
  | nil => exact .inl rfl
  | cons p ps ih =>
    simp only [someWrites]
    split
    · rename_i hc
      have hok : pixelOk s p = true := by simp only [Bool.and_eq_true] at hc; exact hc.1
      rcases ih (i + 1) (writePixel p s) with h | ⟨q, hq, hqok, hqa, hqb, hqv⟩
      · rw [fbBit_writePixel p s a b hb] at h
        by_cases hit : (pixelAddr p.x p.y).toNat = a ∧ pixelBit p.y = b
        · rw [if_pos hit] at h
          exact .inr ⟨p, List.mem_cons_self .., hok, hit.1, hit.2, h⟩
        · rw [if_neg hit] at h
          exact .inl h
      · exact .inr ⟨q, List.mem_cons_of_mem _ hq, by simpa using hqok, hqa, hqb, hqv⟩
    · rcases ih (i + 1) s with h | ⟨q, hq, hqok, hqa, hqb, hqv⟩
      · exact .inl h
      · exact .inr ⟨q, List.mem_cons_of_mem _ hq, hqok, hqa, hqb, hqv⟩

/-- The pixel reported by FILL or RECT is one of the offending ones (R167, U18). -/
theorem anyOffender_spec (ps : List Pixel) (s : State) (r : Raise)
    (h : ∃ p ∈ ps, pixelOk s p = false) :
    ∃ p ∈ ps, pixelOk s p = false ∧ anyOffender ps s r = coordRaise p := by
  have hpos : 0 < (ps.filter fun p => !pixelOk s p).length := by
    obtain ⟨p, hp, hb⟩ := h
    exact List.length_pos_of_mem (List.mem_filter.2 ⟨hp, by simp [hb]⟩)
  have hlt := Nat.mod_lt (Config.freeOffender s.fresh) hpos
  unfold anyOffender
  simp only [List.getElem?_eq_getElem hlt]
  have hmem := List.mem_filter.1 (List.getElem_mem hlt)
  exact ⟨_, hmem.1, by simpa using hmem.2, rfl⟩

/-! ## Drawing commands -/

/-- A drawing command all of whose pixels pass and that no other fault ends runs to its completion. -/
theorem draw_of_ok (u : DrawUnit) (opc : BitVec 4) (ps : List Pixel) (fin : State → State) (s : State)
    (h : ∀ p ∈ ps, pixelOk s p = true) : draw u opc ps none fin s = fin (paintAll ps s) := by
  simp [draw, pixels_of_ok ps s h]

/-- A drawing command with an offending pixel reports the first one. -/
theorem draw_of_bad (u : DrawUnit) (opc : BitVec 4) (ps : List Pixel) (stop : Option Raise) (fin : State → State)
    (s : State) (p : Pixel) (h : ps.find? (fun q => !pixelOk s q) = some p) :
    draw u opc ps stop fin s = faultMidway u opc (coordRaise p) ps s := by
  simp [draw, pixels_of_bad ps s p h]

theorem drawAnyOrder_of_ok (u : DrawUnit) (opc : BitVec 4) (ps : List Pixel) (fin : State → State) (s : State)
    (h : ∀ p ∈ ps, pixelOk s p = true) : drawAnyOrder u opc ps fin s = fin (paintAll ps s) := by
  simp [drawAnyOrder, pixels_of_ok ps s h]

/-- A drawing command ends in one of these three ways. -/
theorem draw_cases (u : DrawUnit) (opc : BitVec 4) (ps : List Pixel) (stop : Option Raise) (fin : State → State)
    (s : State) :
    ((∀ p ∈ ps, pixelOk s p = true) ∧ stop = none ∧ draw u opc ps stop fin s = fin (paintAll ps s)) ∨
    (∃ r, (∀ p ∈ ps, pixelOk s p = true) ∧ stop = some r ∧ draw u opc ps stop fin s = faultMidway u opc r ps s) ∨
    (∃ p, ps.find? (fun q => !pixelOk s q) = some p ∧
      draw u opc ps stop fin s = faultMidway u opc (coordRaise p) ps s) := by
  rcases pixels_cases ps s with ⟨hall, hp⟩ | ⟨p, hf, -, -, hp⟩
  · cases stop with
    | none => exact .inl ⟨hall, rfl, draw_of_ok u opc ps fin s hall⟩
    | some r => exact .inr (.inl ⟨r, hall, rfl, by simp [draw, hp]⟩)
  · exact .inr (.inr ⟨p, hf, draw_of_bad u opc ps stop fin s p hf⟩)

/-- FILL and RECT end in one of these two ways. -/
theorem drawAnyOrder_cases (u : DrawUnit) (opc : BitVec 4) (ps : List Pixel) (fin : State → State) (s : State) :
    ((∀ p ∈ ps, pixelOk s p = true) ∧ drawAnyOrder u opc ps fin s = fin (paintAll ps s)) ∨
    (∃ p ∈ ps, pixelOk s p = false ∧
      drawAnyOrder u opc ps fin s = faultMidway u opc (coordRaise p) ps s) := by
  rcases pixels_cases ps s with ⟨hall, hp⟩ | ⟨p, -, hmem, hbad, hp⟩
  · exact .inl ⟨hall, drawAnyOrder_of_ok u opc ps fin s hall⟩
  · obtain ⟨q, hq, hqb, heq⟩ := anyOffender_spec ps s (coordRaise p) ⟨p, hmem, hbad⟩
    exact .inr ⟨q, hq, hqb, by simp [drawAnyOrder, hp, heq]⟩

/-- A fault in the middle of a command changes, beside what fault entry writes, only `FB` and the working
registers. -/
theorem faultMidway_eq (u : DrawUnit) (opc : BitVec 4) (r : Raise) (ps : List Pixel) (s : State) :
    ∃ m wk, faultMidway u opc r ps s = faultEntry opc r { s with fb := m, work := wk } ∧
      m = (someWrites s.fresh 0 ps s).fb := by
  refine ⟨_, scratch u (Config.freeWorking s.fresh) s.work, ?_, rfl⟩
  unfold faultMidway
  rw [someWrites_eq]

/-! ## The header byte and the canonical form under pixel writes (R33) -/

theorem header_paintAll (ps : List Pixel) (s : State) (h : ∀ p ∈ ps, pixelOk s p = true) :
    cellRead (paintAll ps s).fb 0 = cellRead s.fb 0 := by
  induction ps generalizing s with
  | nil => rfl
  | cons p ps ih =>
    rw [paintAll_cons, ih _ fun q hq => by simpa using h q (List.mem_cons_of_mem _ hq)]
    have := (pixelOk_index s p (h p (List.mem_cons_self ..))).1
    exact cellRead_cellWrite_of_ne _ _ (by omega)

theorem header_someWrites (d i : Nat) (ps : List Pixel) (s : State) :
    cellRead (someWrites d i ps s).fb 0 = cellRead s.fb 0 := by
  induction ps generalizing i s with
  | nil => rfl
  | cons p ps ih =>
    simp only [someWrites]
    split
    · rename_i hc
      simp only [Bool.and_eq_true] at hc
      rw [ih]
      have := (pixelOk_index s p hc.1).1
      exact cellRead_cellWrite_of_ne _ _ (by omega)
    · exact ih _ _

theorem wf_paintAll (n : Nat) (ps : List Pixel) (s : State) (h : ∀ p ∈ ps, pixelOk s p = true)
    (hb : s.bufsize.toNat ≤ n) (hm : s.fb.wf = true ∧ cellsBelow n s.fb = true) :
    (paintAll ps s).fb.wf = true ∧ cellsBelow n (paintAll ps s).fb = true := by
  induction ps generalizing s with
  | nil => exact hm
  | cons p ps ih =>
    have := (pixelOk_index s p (h p (List.mem_cons_self ..))).2.1
    exact ih (writePixel p s) (fun q hq => by simpa using h q (List.mem_cons_of_mem _ hq)) hb
      ⟨Memory.wf_cellWrite _ _ _ hm.1, cellsBelow_cellWrite _ _ _ _ hm.2 (by omega)⟩

theorem wf_someWrites (n d i : Nat) (ps : List Pixel) (s : State) (hb : s.bufsize.toNat ≤ n)
    (hm : s.fb.wf = true ∧ cellsBelow n s.fb = true) :
    (someWrites d i ps s).fb.wf = true ∧ cellsBelow n (someWrites d i ps s).fb = true := by
  induction ps generalizing i s with
  | nil => exact hm
  | cons p ps ih =>
    simp only [someWrites]
    split
    · rename_i hc
      simp only [Bool.and_eq_true] at hc
      have := (pixelOk_index s p hc.1).2.1
      exact ih _ (writePixel p s) hb ⟨Memory.wf_cellWrite _ _ _ hm.1, cellsBelow_cellWrite _ _ _ _ hm.2 (by omega)⟩
    · exact ih _ s hb hm

/-! ## Integer ranges -/

/-- The integers of a range (R8). -/
theorem mem_span (a b i : Int) : i ∈ span a b ↔ a ≤ i ∧ i ≤ b := by
  simp only [span, List.mem_map, List.mem_range]
  constructor
  · rintro ⟨k, hk, rfl⟩
    omega
  · rintro ⟨h1, h2⟩
    exact ⟨(i - a).toNat, by omega, by omega⟩

end Sys2Proof.Machine
end

