-- ==== Sys2Proof/Laws/Exec.lean ====
section
/-! SUPPORT. What each command can do: one inversion per meaning, or one for all drawing commands together, from which
frames, outcomes and the invariant follow. -/

namespace Sys2Proof.Machine

/-! ## Small updates -/

@[simp] theorem setLoop_fb (ps : List Pixel) (s : State) : (setLoop ps s).fb = s.fb := by
  unfold setLoop; split <;> rfl

/-- The loop counters are all `setLoop` writes. -/
theorem setLoop_eq (ps : List Pixel) (s : State) :
    ∃ lp, setLoop ps s = { s with work := { s.work with loop := lp } } := by
  unfold setLoop
  split
  · exact ⟨_, rfl⟩
  · exact ⟨s.work.loop, rfl⟩

/-- The line unit's registers are all `setLine` writes. -/
theorem setLine_eq (vs : List LineVars) (s : State) :
    ∃ ln, setLine vs s = { s with work := { s.work with line := ln } } := by
  unfold setLine
  split
  · exact ⟨_, rfl⟩
  · exact ⟨s.work.line, rfl⟩

@[simp] theorem scratch_mp (u : DrawUnit) (new old : Working) : (scratch u new old).mp = old.mp := by
  cases u <;> rfl

/-! ## Drawing commands -/

/-- The state after a drawing command that completed: its pixels are painted, `RESULT` and its own working registers
may be written, `ERR` is 0. -/
def drawnState (ps : List Pixel) (wk : Working) (a b : Byte) (s : State) : State :=
  { s with fb := (paintAll ps s).fb, work := wk, rv0 := a, rv1 := b, err := 0, busy := false, pending := none }

/-- How a drawing command ends (R160, R165). -/
inductive DrawEnd (opc : BitVec 4) (ps : List Pixel) (s : State) : State → Prop where
  /-- A fault before any effect. -/
  | early (r : Raise) (h : r.cause ≠ .illegal ∧ r.cause ≠ .config) : DrawEnd opc ps s (faultEntry opc r s)
  /-- A fault in mid-drawing, the display being ready. -/
  | midway (u : DrawUnit) (r : Raise) (hr : s.dispReady = true) (h : r.cause = .coord ∨ r.cause = .char) :
      DrawEnd opc ps s (faultMidway u opc r ps s)
  /-- Completion, all pixels in range. -/
  | drawn (wk : Working) (a b : Byte) (hr : s.dispReady = true) (hmp : wk.mp = s.work.mp)
      (hok : ∀ p ∈ ps, pixelOk s p = true) : DrawEnd opc ps s (drawnState ps wk a b s)

theorem drawEnd_of_draw {u : DrawUnit} {opc : BitVec 4} {ps : List Pixel} {stop : Option Raise}
    {fin : State → State} {s : State} (hr : s.dispReady = true) (hstop : ∀ r, stop = some r → r.cause = .char)
    (hfin : ∃ wk a b, wk.mp = s.work.mp ∧ fin (paintAll ps s) = drawnState ps wk a b s) :
    DrawEnd opc ps s (draw u opc ps stop fin s) := by
  rcases draw_cases u opc ps stop fin s with ⟨hok, -, h⟩ | ⟨r, -, hs, h⟩ | ⟨p, -, h⟩
  · obtain ⟨wk, a, b, hmp, hf⟩ := hfin
    rw [h, hf]
    exact .drawn wk a b hr hmp hok
  · rw [h]
    exact .midway u r hr (.inr (hstop r hs))
  · rw [h]
    exact .midway u _ hr (.inl rfl)

theorem drawEnd_of_drawAnyOrder {u : DrawUnit} {opc : BitVec 4} {ps : List Pixel} {fin : State → State} {s : State}
    (hr : s.dispReady = true)
    (hfin : ∃ wk a b, wk.mp = s.work.mp ∧ fin (paintAll ps s) = drawnState ps wk a b s) :
    DrawEnd opc ps s (drawAnyOrder u opc ps fin s) := by
  rcases drawAnyOrder_cases u opc ps fin s with ⟨hok, h⟩ | ⟨p, -, -, h⟩
  · obtain ⟨wk, a, b, hmp, hf⟩ := hfin
    rw [h, hf]
    exact .drawn wk a b hr hmp hok
  · rw [h]
    exact .midway u _ hr (.inl rfl)

/-- Completion with loop counters. -/
theorem complete_setLoop (ps qs : List Pixel) (s : State) :
    ∃ wk a b, wk.mp = s.work.mp ∧ complete errOk (setLoop qs (paintAll ps s)) = drawnState ps wk a b s := by
  obtain ⟨lp, h⟩ := setLoop_eq qs (paintAll ps s)
  refine ⟨{ s.work with loop := lp }, s.rv0, s.rv1, rfl, ?_⟩
  rw [h, paintAll_eq]
  rfl

/-- A fault of `DRAWCHAR` is `F_CHAR`. -/
theorem drawChar_error {P : Params} {c : Byte} {x y : Int} {r : Raise} (h : drawChar P c x y = .error r) :
    glyphIndex c = none ∧ r = ⟨.char, c.setWidth 16⟩ := by
  unfold drawChar at h
  split at h
  · cases h
  · split at h
    · rename_i hg
      cases h
      exact ⟨hg, rfl⟩
    · cases h

/-- The fault that ends a layout is `F_CHAR` of a character without a glyph, among the first `n` from `ti` on. -/
theorem layout_stop {s : State} {n : Nat} {v : TextVars} {r : Raise}
    (h : (layout s n v).stop = some r) :
    ∃ i, v.ti ≤ i ∧ i < v.ti + n ∧ glyphIndex (strbufByte s i) = none ∧
      r = ⟨.char, (strbufByte s i).setWidth 16⟩ := by
  induction n generalizing v with
  | zero => simp [layout] at h
  | succ n ih =>
    rw [layout] at h
    split at h
    · simp only at h
      split at h
      · rename_i r' hd
        simp only [Option.some.injEq] at h
        subst h
        obtain ⟨hg, hr⟩ := drawChar_error hd
        exact ⟨v.ti, le_refl _, by omega, hg, hr⟩
      · obtain ⟨i, h1, h2, h3, h4⟩ := ih h
        refine ⟨i, ?_, ?_, h3, h4⟩ <;>
          (unfold advance at h1 h2; simp only at h1 h2; split at h1 <;> simp_all <;> omega)
    · simp at h

/-- Every drawing command ends in one of the ways of `DrawEnd`. -/
theorem exec_drawing (i : Instr) (s : State) (h : isDrawing i = true) :
    ∃ t, exec i s = .next t ∧ DrawEnd (opcode i) (commandPixels i s) s t := by
  have notReady : s.dispReady = false →
      DrawEnd (opcode i) (commandPixels i s) s (faultEntry (opcode i) ⟨.state, 0⟩ s) := fun _ =>
    .early _ ⟨by simp, by simp⟩
  cases hr : s.dispReady with
  | false =>
    refine ⟨_, ?_, notReady hr⟩
    cases i <;> first | (simp [isDrawing] at h; done) | skip
    all_goals
      simp [exec, execSetpix, execFill, execRect, execLine, execHline, execVline, execChar, execString,
        whenDisplayReady, hr, opcode]
  | true =>
    cases i with
    | dinit | flush | minit | mdraw => simp [isDrawing] at h
    | setpix x y on =>
      refine ⟨_, rfl, ?_⟩
      simp only [whenDisplayReady, hr, if_true, pixel, opcode, commandPixels]
      by_cases hok : pixelOk s ⟨zext x, zext y, on⟩ = true
      · simp only [hok, if_true]
        exact .drawn s.work s.rv0 s.rv1 hr rfl (by simpa using hok)
      · simp only [hok]
        exact .early _ ⟨by simp [coordRaise], by simp [coordRaise]⟩
    | fill on =>
      refine ⟨_, rfl, ?_⟩
      simp only [whenDisplayReady, hr, if_true]
      exact drawEnd_of_drawAnyOrder hr (complete_setLoop _ _ s)
    | rect top left w ht on filled =>
      refine ⟨_, rfl, ?_⟩
      simp only [whenDisplayReady, hr, if_true, opcode, commandPixels]
      split
      · exact .early _ ⟨by simp, by simp⟩
      · exact drawEnd_of_drawAnyOrder hr (complete_setLoop _ _ s)
    | line x0 y0 x1 y1 on =>
      refine ⟨_, rfl, ?_⟩
      simp only [whenDisplayReady, hr, if_true]
      refine drawEnd_of_draw hr (by simp) ?_
      obtain ⟨ln, hl⟩ := setLine_eq (lineRun (zext x0) (zext y0) (zext x1) (zext y1) s.work.line.le2.toInt)
        (paintAll (commandPixels (.line x0 y0 x1 y1 on) s) s)
      refine ⟨{ s.work with line := ln }, s.rv0, s.rv1, rfl, ?_⟩
      rw [hl, paintAll_eq]
      rfl
    | hline x0 x1 y on =>
      refine ⟨_, rfl, ?_⟩
      simp only [whenDisplayReady, hr, if_true, opcode, commandPixels]
      split
      · exact .early _ ⟨by simp, by simp⟩
      · exact drawEnd_of_draw hr (by simp) (complete_setLoop _ _ s)
    | vline x y0 y1 on =>
      refine ⟨_, rfl, ?_⟩
      simp only [whenDisplayReady, hr, if_true, opcode, commandPixels]
      split
      · exact .early _ ⟨by simp, by simp⟩
      · exact drawEnd_of_draw hr (by simp) (complete_setLoop _ _ s)
    | char c x y =>
      refine ⟨_, rfl, ?_⟩
      simp only [whenDisplayReady, hr, if_true, char, opcode, commandPixels]
      cases hd : drawChar s.build c (zext x) (zext y) with
      | error r =>
        simp only [draw, pixels]
        exact .midway .font r hr (.inr (by rw [(drawChar_error hd).2]))
      | ok wp =>
        obtain ⟨w, ps⟩ := wp
        refine drawEnd_of_draw hr (by simp)
          ⟨{ s.work with font := fontAfter s.build c s.work.font }, BitVec.ofNat 8 w, 0, rfl, ?_⟩
        rw [paintAll_eq]
        rfl
    | string x y len =>
      refine ⟨_, rfl, ?_⟩
      simp only [whenDisplayReady, hr, if_true, string, opcode, commandPixels]
      refine drawEnd_of_draw hr ?_
        ⟨{ s.work with
            font := (stringPlan x y len s).vars.font
            text :=
              ⟨BitVec.ofInt 10 (stringPlan x y len s).vars.tx,
                BitVec.ofInt 10 (stringPlan x y len s).vars.ty,
                BitVec.ofNat 8 (stringPlan x y len s).vars.ti⟩ },
          BitVec.ofInt 8 (stringPlan x y len s).vars.tx,
          BitVec.ofInt 8 (stringPlan x y len s).vars.ty, rfl, ?_⟩
      · intro r hs
        obtain ⟨i, -, -, -, hr'⟩ := layout_stop hs
        rw [hr']
      · rw [paintAll_eq]
        rfl

/-! ## The other four commands -/

/-- The display half as a DINIT that fits leaves it before its bus writes (R70). -/
def initialised (w h a b : Byte) (s : State) : State :=
  writeFb 0 0x40#8
    { s with
      width := w, height := h, pages := (h >>> 3).setWidth 5, bufsize := BitVec.ofNat 13 (bufferSize w h)
      busAddr := a.setWidth 7, busSel := b }

/-- DINIT in each of its four cases (R70). -/
theorem exec_dinit (w h a b : Byte) (s : State) :
    exec (.dinit w h a b) s = .next
      (if s.dispReady then faultEntry 1#4 ⟨.state, 0⟩ s
      else if h &&& 7#8 ≠ 0#8 then faultEntry 1#4 ⟨.config, h.setWidth 16⟩ s
      else if s.build.fbCapacity < bufferSize w h then complete errAllocation s
      else emitBus .dinit (s.build.initCmds.map commandWrite) (initialised w h a b s)) := rfl

/-- The low three bits of a height are those of its remainder by 8 (R70). -/
theorem low3_eq_zero_iff (h : Byte) : h &&& 7#8 = 0#8 ↔ h.toNat % 8 = 0 := by
  revert h; decide

/-- The buffer size in terms of the height (R70). -/
theorem bufferSize_eq (w h : Byte) : bufferSize w h = h.toNat / 8 * w.toNat + 1 := by
  simp [bufferSize, Nat.shiftRight_eq_div_pow]

/-- FLUSH (R73). -/
theorem exec_flush (s : State) :
    exec .flush s = .next
      (if s.dispReady then
        emitBus .flush ((s.build.flushCmds s.width s.pages).map commandWrite ++ [bulkBytes s]) s
      else faultEntry 10#4 ⟨.state, 0⟩ s) := rfl

/-- MINIT (R140). -/
theorem exec_minit (ch pin : Byte) (s : State) :
    exec (.minit ch pin) s = .next
      (if s.mtxReady then faultEntry 11#4 ⟨.state, 1⟩ s
      else if !s.clkOk then complete errInit s
      else if !s.slotAvail then complete errInit s
      else complete errOk { s with mtxChan := ch, mtxPin := pin, mtxReady := true }) := rfl

/-- MDRAW (R142). -/
theorem exec_mdraw (s : State) :
    exec .mdraw s = .next
      (if s.mtxReady then sendLed (frameWords s) { s with fresh := s.fresh + 1 }
      else faultEntry 12#4 ⟨.state, 1⟩ s) := rfl

@[simp] theorem frameWords_length (s : State) : (frameWords s).length = 25 := by simp [frameWords]

/-- Bits 7:0 of an LED word are 0, whatever the colours (R143). -/
theorem encodeColour_low (free : Nat → Byte) (e : ColourEntry) :
    (encodeColour free e).extractLsb' 0 8 = 0#8 := by
  unfold encodeColour
  exact BitVec.extractLsb'_append_eq_right

end Sys2Proof.Machine
end

