-- ==== Sys2Proof/Laws/PerInstr.lean ====
section
/-! SUPPORT. Facts of every instruction as syntax, one lemma per constructor. -/

namespace Sys2Proof.Laws.OpcodeField

/-- The word of a command carries its opcode in `OP` and 0 in `Z` (R50, R52). -/
def Statement (i : Instr) : Prop := opField (encode i) = opcode i ∧ zField (encode i) = 0#2

theorem dinit (width height busAddr busSel : Byte) : Statement (.dinit width height busAddr busSel) := by
  simp [Statement, encode, opcode]
theorem setpix (x y : Byte) (on : Bool) : Statement (.setpix x y on) := by simp [Statement, encode, opcode]
theorem fill (on : Bool) : Statement (.fill on) := by simp [Statement, encode, opcode]
theorem rect (top left width height : Byte) (on filled : Bool) :
    Statement (.rect top left width height on filled) := by simp [Statement, encode, opcode]
theorem line (x0 y0 x1 y1 : Byte) (on : Bool) : Statement (.line x0 y0 x1 y1 on) := by
  simp [Statement, encode, opcode]
theorem hline (x0 x1 y : Byte) (on : Bool) : Statement (.hline x0 x1 y on) := by simp [Statement, encode, opcode]
theorem vline (x y0 y1 : Byte) (on : Bool) : Statement (.vline x y0 y1 on) := by simp [Statement, encode, opcode]
theorem char (code x y : Byte) : Statement (.char code x y) := by simp [Statement, encode, opcode]
theorem string (x y len : Byte) : Statement (.string x y len) := by simp [Statement, encode, opcode]
theorem flush : Statement .flush := by simp [Statement, encode, opcode]
theorem minit (channel pin : Byte) : Statement (.minit channel pin) := by simp [Statement, encode, opcode]
theorem mdraw : Statement .mdraw := by simp [Statement, encode, opcode]

end Sys2Proof.Laws.OpcodeField
end

