-- ==== Sys2Proof/Laws/Run.lean ====
section
/-! SUPPORT. Runs (R174): every run has exactly one of its three ends, and a completed run stays as it is. -/

namespace Sys2Proof.Machine

/-- `Sys2Proof.core` is the machine of the default build (R6). -/
theorem coreOf_params : coreOf Config.params = Sys2Proof.core := rfl

/-! ## Waiting and faulting between inputs -/

/-- `BUSY` is 1 exactly while a command waits, and a faulted block is not busy. -/
def State.Calm (s : State) : Prop := s.busy = s.pending.isSome ∧ (s.fault = true → s.busy = false)

/-- A state that is not busy and has nothing pending is calm. -/
theorem State.Calm.of_idle {s : State} (hb : s.busy = false) (hp : s.pending = none) : s.Calm :=
  ⟨by rw [hb, hp]; rfl, fun _ => hb⟩

/-- A waiting state that is not faulted is calm. -/
theorem State.Calm.of_waiting {s : State} (hb : s.busy = true) (hp : s.pending.isSome = true) (hf : s.fault = false) :
    s.Calm :=
  ⟨by rw [hb, hp], fun h => absurd h (by rw [hf]; simp)⟩

/-- Nothing waits in a calm state that is not busy. -/
theorem State.Calm.pending {s : State} (h : s.Calm) (hb : s.busy = false) : s.pending = none := by
  have := h.1
  rw [hb] at this
  simpa using this.symm

/-- Both sinks leave `FAULT` alone. -/
theorem sendBus_calm (d : BusEnd) (sent todo : List Byte) (rest : List (List Byte)) (s : State) (hf : s.fault = false) :
    (sendBus d sent todo rest s).Calm ∧ (sendBus d sent todo rest s).fault = false := by
  obtain ⟨r, ts, -, ⟨-, h⟩ | ⟨_, _, _, -, -, -, h⟩⟩ := sendBus_cases d sent todo rest s
  · rw [h]
    cases d <;> exact ⟨.of_idle rfl rfl, hf⟩
  · rw [h]
    exact ⟨.of_waiting rfl rfl hf, hf⟩

theorem sendLed_calm (ws : List LedWord) (s : State) (hf : s.fault = false) :
    (sendLed ws s).Calm ∧ (sendLed ws s).fault = false := by
  rcases sendLed_cases ws s with ⟨-, h⟩ | ⟨-, n, m, -, h⟩
  · rw [h]
    exact ⟨.of_idle rfl rfl, hf⟩
  · rw [h]
    exact ⟨.of_waiting rfl rfl hf, hf⟩

/-- A command that is not busy waits for nothing, so there is nothing to resume. -/
theorem resume_of_idle {s : State} (h : s.Calm) (hb : s.busy = false) : resume s = s := by
  simp [resume, h.pending hb]

theorem resume_calm {s : State} (h : s.Calm) : (resume s).Calm ∧ (s.busy = true → (resume s).fault = false) := by
  cases hb : s.busy with
  | false =>
    rw [resume_of_idle h hb]
    exact ⟨h, by simp⟩
  | true =>
    have hf : s.fault = false := by
      cases hf : s.fault with
      | false => rfl
      | true => have := h.2 hf; rw [hb] at this; cases this
    unfold resume
    split
    · exact ⟨h, fun _ => hf⟩
    · exact ⟨(sendBus_calm _ _ _ _ s hf).1, fun _ => (sendBus_calm _ _ _ _ s hf).2⟩
    · exact ⟨(sendLed_calm _ s hf).1, fun _ => (sendLed_calm _ s hf).2⟩

/-- A command leaves a calm state, whatever it does. -/
theorem exec_calm (i : Instr) {s t : State} (hf : s.fault = false) (he : exec i s = .next t) : t.Calm := by
  by_cases hd : isDrawing i = true
  · obtain ⟨t', h', hend⟩ := exec_drawing i s hd
    rw [h'] at he
    cases he
    cases hend <;> exact .of_idle rfl rfl
  · cases i with
    | dinit w h a b =>
      rw [exec_dinit] at he
      injection he with he
      subst he
      split
      · exact .of_idle rfl rfl
      split
      · exact .of_idle rfl rfl
      split
      · exact .of_idle rfl rfl
      · obtain ⟨r, ts, -, ⟨-, h'⟩ | ⟨_, _, _, -, -, -, h'⟩⟩ :=
          emitBus_cases .dinit (s.build.initCmds.map commandWrite) (initialised w h a b s)
        · rw [h']
          exact .of_idle rfl rfl
        · rw [h']
          exact .of_waiting rfl rfl hf
    | flush =>
      rw [exec_flush] at he
      injection he with he
      subst he
      split
      · obtain ⟨r, ts, -, ⟨-, h'⟩ | ⟨_, _, _, -, -, -, h'⟩⟩ :=
          emitBus_cases .flush ((s.build.flushCmds s.width s.pages).map commandWrite ++ [bulkBytes s]) s
        · rw [h']
          exact .of_idle rfl rfl
        · rw [h']
          exact .of_waiting rfl rfl hf
      · exact .of_idle rfl rfl
    | minit ch pin =>
      rw [exec_minit] at he
      injection he with he
      subst he
      repeat' split
      all_goals exact .of_idle rfl rfl
    | mdraw =>
      rw [exec_mdraw] at he
      injection he with he
      subst he
      split
      · exact (sendLed_calm _ { s with fresh := s.fresh + 1 } hf).1
      · exact .of_idle rfl rfl
    | _ => simp [isDrawing] at hd

/-- The frame of a torn frame: only `pending` and the draw counter change, and a waiting command still waits. -/
theorem tearFrame_frame (s : State) :
    (tearFrame s).busy = s.busy ∧ (tearFrame s).fault = s.fault ∧
      (tearFrame s).pending.isSome = s.pending.isSome := by
  unfold tearFrame
  split
  · rename_i h
    exact ⟨rfl, rfl, by rw [h]; rfl⟩
  · exact ⟨rfl, rfl, rfl⟩

/-- A host write of a buffer keeps `BUSY`, `FAULT` and whether a command waits. -/
theorem writeCbuf_frame (k : Nat) (v : ColourEntry) (s : State) :
    (writeCbuf k v s).busy = s.busy ∧ (writeCbuf k v s).fault = s.fault ∧
      (writeCbuf k v s).pending.isSome = s.pending.isSome := by
  unfold writeCbuf
  split
  · exact tearFrame_frame s
  · exact ⟨rfl, rfl, rfl⟩

theorem writeStrbuf_frame (i : Nat) (v : Byte) (s : State) :
    (writeStrbuf i v s).busy = s.busy ∧ (writeStrbuf i v s).fault = s.fault ∧
      (writeStrbuf i v s).pending.isSome = s.pending.isSome := by
  unfold writeStrbuf
  split
  · exact tearFrame_frame s
  · exact ⟨rfl, rfl, rfl⟩

/-- A state that keeps the three fields is calm too. -/
theorem State.Calm.congr {s t : State} (h : s.Calm)
    (e : t.busy = s.busy ∧ t.fault = s.fault ∧ t.pending.isSome = s.pending.isSome) : t.Calm := by
  obtain ⟨e1, e2, e3⟩ := e
  unfold State.Calm
  rw [e1, e2, e3]
  exact h

/-! ## One step of a run -/

/-- A command word leaves a calm state, whether it is ignored, illegal or run. -/
theorem issue_calm (w : CmdWord) {s t : State} (h : s.Calm) (hi : issue w s = .next t) : t.Calm := by
  unfold issue at hi
  split at hi
  · cases hi
    exact h
  · rename_i hbf
    have hf : s.fault = false := by
      cases hf : s.fault with
      | false => rfl
      | true => simp [hf] at hbf
    simp only at hi
    split at hi
    · exact exec_calm _ (s := { s with busy := true, cmd := w }) hf hi
    · cases hi
      exact .of_idle rfl rfl

/-- What a host action does: the block stays calm, and a faulted block stays faulted. -/
theorem stepped_host (a : HostAction) {s : State} (h : s.Calm) :
    (stepped [a.input] s).Calm ∧ (s.fault = true → (stepped [a.input] s).fault = true) := by
  have write : ∀ (ad : Nat) (v : BitVec 48),
      (stepped [.write ad v] s).Calm ∧ (s.fault = true → (stepped [.write ad v] s).fault = true) := by
    intro ad v
    simp only [stepped, step, react, hostWrite]
    by_cases h0 : ad = cmdAddress
    · simp only [if_pos h0]
      refine ⟨?_, fun hf => ?_⟩
      · split
        · rename_i t ht
          exact issue_calm _ (s := { s with inputs := [] }) h ht
        · exact h
        · exact h
      · simp only [issue, hf, Bool.or_true, if_true]
    by_cases h1 : cbufAddress 0 ≤ ad ∧ ad ≤ cbufAddress 24
    · simp only [if_neg h0, if_pos h1]
      have e := writeCbuf_frame (ad - cbufAddress 0) v { s with inputs := [] }
      exact ⟨h.congr e, fun hf => e.2.1.trans hf⟩
    by_cases h2 : strbufAddress 0 ≤ ad ∧ ad ≤ strbufAddress 254
    · simp only [if_neg h0, if_neg h1, if_pos h2]
      have e := writeStrbuf_frame (ad - strbufAddress 0) (v.setWidth 8) { s with inputs := [] }
      exact ⟨h.congr e, fun hf => e.2.1.trans hf⟩
    · simp only [if_neg h0, if_neg h1, if_neg h2]
      exact ⟨h, id⟩
  cases a with
  | command w => exact write _ _
  | colour k v => exact write _ _
  | character i c => exact write _ _
  | readStatus | readResult | readFcause => exact ⟨h, id⟩

/-- What an environment event does: the block stays calm. While no command waits it changes nothing that can be
observed. -/
theorem stepped_event (e : EnvEvent) {s : State} (h : s.Calm) :
    (stepped [e.input] s).Calm ∧
      (s.busy = false → (stepped [e.input] s).busy = false ∧ (stepped [e.input] s).fault = s.fault ∧
        observe (stepped [e.input] s) = observe s) := by
  cases e with
  | busRoom r =>
    have h' : State.Calm { s with inputs := [], busRoom := r } := h
    have e : stepped [EnvEvent.input (.busRoom r)] s = resume { s with inputs := [], busRoom := r } := rfl
    rw [e]
    exact ⟨(resume_calm h').1, fun hb => by rw [resume_of_idle h' hb]; exact ⟨hb, rfl, rfl⟩⟩
  | ledRoom r =>
    have h' : State.Calm { s with inputs := [], ledRoom := r } := h
    have e : stepped [EnvEvent.input (.ledRoom r)] s = resume { s with inputs := [], ledRoom := r } := rfl
    rw [e]
    exact ⟨(resume_calm h').1, fun hb => by rw [resume_of_idle h' hb]; exact ⟨hb, rfl, rfl⟩⟩
  | clk ok => exact ⟨h, fun hb => ⟨hb, rfl, rfl⟩⟩
  | slot free => exact ⟨h, fun hb => ⟨hb, rfl, rfl⟩⟩
  | ledShift n => exact ⟨h, fun hb => ⟨hb, rfl, rfl⟩⟩

/-- The same for a list of events. -/
theorem stepped_events (es : List EnvEvent) {s : State} (h : s.Calm) :
    (es.foldl (fun s e => stepped [e.input] s) s).Calm ∧
      (s.busy = false → (es.foldl (fun s e => stepped [e.input] s) s).busy = false ∧
        (es.foldl (fun s e => stepped [e.input] s) s).fault = s.fault ∧
        observe (es.foldl (fun s e => stepped [e.input] s) s) = observe s) := by
  induction es generalizing s with
  | nil => exact ⟨h, fun hb => ⟨hb, rfl, rfl⟩⟩
  | cons e es ih =>
    obtain ⟨h1, h2⟩ := stepped_event e h
    obtain ⟨h3, h4⟩ := ih h1
    refine ⟨h3, fun hb => ?_⟩
    obtain ⟨a, b, c⟩ := h2 hb
    obtain ⟨a', b', c'⟩ := h4 a
    exact ⟨a', b'.trans b, c'.trans c⟩

/-! ## Ticks -/

theorem tick_calm (es : List EnvEvent) {c : RunState} (h : c.state.Calm) : (tick es c).state.Calm := by
  have hs := (stepped_events es h).1
  unfold tick
  simp only
  split
  · exact (resume_calm (s := { es.foldl (fun s e => stepped [e.input] s) c.state with inputs := [] }) hs).1
  · split
    · exact hs
    · exact (stepped_host _ hs).1

theorem runAt_calm (P : Params) (env : Environment) (as : List HostAction) (n : Nat) : (runAt P env as n).state.Calm := by
  induction n with
  | zero => exact .of_idle rfl rfl
  | succ n ih => exact tick_calm _ ih

/-- A tick of a block that is not busy issues the next action, if there is one. -/
theorem tick_rest (es : List EnvEvent) {c : RunState} (h : c.state.Calm) (hb : c.state.busy = false) :
    (tick es c).rest = c.rest.tail := by
  unfold tick
  simp only [((stepped_events es h).2 hb).1, Bool.false_eq_true, if_false]
  split <;> rename_i hr <;> rw [hr] <;> rfl

/-- The list of actions never grows. -/
theorem tick_rest_suffix (es : List EnvEvent) (c : RunState) : (tick es c).rest <:+ c.rest := by
  unfold tick
  simp only
  split
  · exact List.suffix_refl _
  · split
    · exact List.suffix_refl _
    · rename_i a rest hr
      rw [hr]
      exact List.suffix_cons a rest

/-- A faulted run stays faulted. -/
theorem tick_fault (es : List EnvEvent) {c : RunState} (h : c.state.Calm) (hf : c.state.fault = true) :
    (tick es c).state.fault = true := by
  obtain ⟨hs, h2⟩ := stepped_events es h
  obtain ⟨hb, hf', -⟩ := h2 (h.2 hf)
  rw [hf] at hf'
  unfold tick
  simp only [hb, Bool.false_eq_true, if_false]
  split
  · exact hf'
  · exact (stepped_host _ hs).2 hf'

/-- A completed run stays completed, and what can be observed of it does not change. -/
theorem tick_completed (es : List EnvEvent) {c : RunState} (h : c.state.Calm) (hc : c.completed) :
    (tick es c).completed ∧ observe (tick es c).state = observe c.state := by
  obtain ⟨hr, hb, hf⟩ := hc
  obtain ⟨hb', hf', ho⟩ := (stepped_events es h).2 hb
  unfold tick
  simp only [hb', Bool.false_eq_true, if_false, hr]
  exact ⟨⟨rfl, hb', hf'.trans hf⟩, ho⟩

/-! ## The three ends -/

theorem runAt_fault_mono (P : Params) (env : Environment) (as : List HostAction) {n m : Nat} (hnm : n ≤ m)
    (hf : (runAt P env as n).state.fault = true) : (runAt P env as m).state.fault = true := by
  induction hnm with
  | refl => exact hf
  | step _ ih => exact tick_fault _ (runAt_calm P env as _) ih

/-- The final state is final. -/
theorem runAt_completed_mono (P : Params) (env : Environment) (as : List HostAction) {n m : Nat} (hnm : n ≤ m)
    (hc : (runAt P env as n).completed) :
    (runAt P env as m).completed ∧ observe (runAt P env as m).state = observe (runAt P env as n).state := by
  induction hnm with
  | refl => exact ⟨hc, rfl⟩
  | step _ ih =>
    obtain ⟨h1, h2⟩ := tick_completed (env _) (runAt_calm P env as _) ih.1
    exact ⟨h1, h2.trans ih.2⟩

/-- A run that is not hung comes, after any tick, to one at which it is not busy and has no action left. -/
theorem runAt_exhausts (P : Params) (env : Environment) (as : List HostAction) (hh : ¬Hung P env as) :
    ∃ n, (runAt P env as n).rest = [] ∧ (runAt P env as n).state.busy = false := by
  have idle : ∀ n, ∃ m, n ≤ m ∧ (runAt P env as m).state.busy = false := by
    intro n
    by_contra hno
    push Not at hno
    exact hh ⟨n, fun m hm => by simpa using hno m hm⟩
  have key : ∀ k n, (runAt P env as n).rest.length ≤ k →
      ∃ m, (runAt P env as m).rest = [] ∧ (runAt P env as m).state.busy = false := by
    intro k
    induction k with
    | zero =>
      intro n hn
      obtain ⟨m, hm, hb⟩ := idle n
      have hs : (runAt P env as m).rest <:+ (runAt P env as n).rest := by
        clear hb
        induction hm with
        | refl => exact List.suffix_refl _
        | step _ ih => exact (tick_rest_suffix _ _).trans ih
      have := hs.length_le
      exact ⟨m, List.length_eq_zero_iff.1 (by omega), hb⟩
    | succ k ih =>
      intro n hn
      obtain ⟨m, hm, hb⟩ := idle n
      have hs : (runAt P env as m).rest <:+ (runAt P env as n).rest := by
        clear hb
        induction hm with
        | refl => exact List.suffix_refl _
        | step _ ih => exact (tick_rest_suffix _ _).trans ih
      have hl := hs.length_le
      refine ih (m + 1) ?_
      have := tick_rest (env m) (runAt_calm P env as m) hb
      rw [show (runAt P env as (m + 1)).rest = (runAt P env as m).rest.tail from this, List.length_tail]
      omega
  exact key _ 0 (le_refl _)

/-- R174: a run has exactly one of three ends. -/
theorem run_has_exactly_one_end (P : Params) (env : Environment) (as : List HostAction) :
    (Completed P env as ∨ Faulted P env as ∨ Hung P env as) ∧ ¬(Completed P env as ∧ Faulted P env as) ∧
      ¬(Completed P env as ∧ Hung P env as) ∧ ¬(Faulted P env as ∧ Hung P env as) := by
  refine ⟨?_, ?_, ?_, ?_⟩
  · by_cases hh : Hung P env as
    · exact .inr (.inr hh)
    · obtain ⟨n, hr, hb⟩ := runAt_exhausts P env as hh
      cases hf : (runAt P env as n).state.fault with
      | true => exact .inr (.inl ⟨n, hf⟩)
      | false => exact .inl ⟨n, hr, hb, hf⟩
  · rintro ⟨⟨n, hc⟩, m, hf⟩
    have h1 := (runAt_completed_mono P env as (Nat.le_max_left n m) hc).1.2.2
    have h2 := runAt_fault_mono P env as (Nat.le_max_right n m) hf
    rw [h1] at h2
    cases h2
  · rintro ⟨⟨n, hc⟩, m, hh⟩
    have h1 := (runAt_completed_mono P env as (Nat.le_max_left n m) hc).1.2.1
    have h2 := hh _ (Nat.le_max_right n m)
    rw [h1] at h2
    cases h2
  · rintro ⟨⟨n, hf⟩, m, hh⟩
    have h1 := (runAt_calm P env as (max n m)).2 (runAt_fault_mono P env as (Nat.le_max_left n m) hf)
    have h2 := hh _ (Nat.le_max_right n m)
    rw [h1] at h2
    cases h2

end Sys2Proof.Machine
end

