-- ==== Sys2Proof/Tests/Slice0.lean ====
section
/-! SUPPORT. Tests: well-formedness, decoding, one step each against the spec's vectors, and a witness for the hypotheses
of every statement. Expected values are those of 95_test_vectors.md. -/

namespace Sys2Proof.Tests

open Sys2Proof Sys2Proof.Machine

/-! ## Helpers -/

/-- The state a step leads to. -/
def after (o : Host.Outcome State Fault Refusal) : State :=
  match o with
  | .next s => s
  | .fault _ => State.reset
  | .refused _ => State.reset

/-- The reference display, ready, with the given pixel bytes listed. -/
def display (cells : Memory) : State :=
  { State.reset with
    width := 128, height := 64, pages := 8, bufsize := 1025, busAddr := 0x3C, dispReady := true
    fb := (0, 0x40#8) :: cells }

/-- A ready display of one column and one page. -/
def tiny : State :=
  { State.reset with
    width := 1, height := 8, pages := 1, bufsize := 2, dispReady := true, fb := [(0, 0x40#8), (1, 0x00#8)] }

/-- A ready display of width `w`, 8 rows a page. -/
def low (w h : Byte) (pages : BitVec 5) (bufsize : BitVec 13) : State :=
  { State.reset with
    width := w, height := h, pages := pages, bufsize := bufsize, dispReady := true, fb := [(0, 0x40#8)] }

/-- A ready matrix half. -/
def matrix : State := { State.reset with mtxReady := true }

/-- A faulted block. -/
def stopped : State := { State.reset with fault := true, cause := 2, op := 2 }

/-- Pixel bytes that are 0, by index. -/
def zeros (is : List Nat) : Memory := is.map fun i => (i, 0x00#8)

/-- A build with the glyphs 95_test_vectors.md section 2.4 assumes for `A` and `B`, and short command sequences. -/
def sample : Params :=
  { fbCapacity := 1025
    glyphs := List.replicate 80 0#8 ++
      [0x7E#8, 0x09#8, 0x09#8, 0x09#8, 0x7E#8, 0#8, 0#8, 0#8, 0x7F#8, 0x49#8, 0x49#8, 0x49#8, 0x36#8, 0#8, 0#8, 0#8] ++
      List.replicate 432 0#8
    initCmds := [0xAE#8, 0xAF#8]
    flushRows := [((1, 1), [0x21#8])] }

/-- The same with framebuffer RAM of `n` bytes. -/
def sampleOf (n : Nat) : Params := { sample with fbCapacity := n }

/-! ## Well-formedness -/

theorem test_wellFormed_refuses_busAddress_bit7 : WellFormed (.dinit 128 64 0x80 0) = false := by decide

theorem test_wellFormed_accepts_busAddress : WellFormed (.dinit 128 64 0x7F 0) = true := by decide

/-! ## Decoding: words of 95_test_vectors.md -/

theorem test_decode_dinit : decode 0x1080403C00#40 = .ok (.dinit 128 64 0x3C 0) := by decide
theorem test_decode_setpix : decode 0x20050A0000#40 = .ok (.setpix 5 10 false) := by decide
theorem test_decode_fill : decode 0x3100000000#40 = .ok (.fill true) := by decide
theorem test_decode_rect : decode 0x4208020308#40 = .ok (.rect 8 2 3 8 false true) := by decide
theorem test_decode_line : decode 0x517F3F0000#40 = .ok (.line 127 63 0 0 true) := by decide
theorem test_decode_hline : decode 0x6103060900#40 = .ok (.hline 3 6 9 true) := by decide
theorem test_decode_vline : decode 0x7103070900#40 = .ok (.vline 3 7 9 true) := by decide
theorem test_decode_char : decode 0x8041030400#40 = .ok (.char 0x41 3 4) := by decide
theorem test_decode_string : decode 0x900A080300#40 = .ok (.string 10 8 3) := by decide
theorem test_decode_flush : decode 0xA000000000#40 = .ok .flush := by decide
theorem test_decode_minit : decode 0xB001020000#40 = .ok (.minit 1 2) := by decide
theorem test_decode_mdraw : decode 0xC000000000#40 = .ok .mdraw := by decide

/-- Every illegal word of section 2.7 is refused, by name. -/
theorem test_decode_refuses :
    [0x0000000000#40, 0x108040BC00#40, 0x2200000000#40, 0x2400000000#40, 0x2800000000#40, 0x3100000001#40,
      0x4500000101#40, 0x5300000000#40, 0x8141000000#40, 0xA000000001#40, 0xA100000000#40, 0xD000000000#40,
      0xF0FFFFFFFF#40].map decode =
    [.error .reservedOpcode, .error .busAddressBit7, .error .strayF, .error .reservedZ, .error .reservedZ,
      .error .unusedField, .error .reservedZ, .error .strayF, .error .strayV, .error .unusedField, .error .strayV,
      .error .reservedOpcode, .error .reservedOpcode] := by decide

/-! ## One step each: section 2 -/

theorem test_dinit_reference :
    let t := after (exec (.dinit 128 64 0x3C 0) (State.resetOf sample))
    (t.width, t.height, t.pages, t.bufsize, t.busAddr, statusWord t) = (128, 64, 8, 1025, 0x3C, 0x02) ∧
      t.fb = [(0, 0x40#8)] ∧ t.bus = [⟨0, 0x3C, [0x80, 0xAE]⟩, ⟨0, 0x3C, [0x80, 0xAF]⟩] := by decide

theorem test_dinit_too_large :
    statusWord (after (exec (.dinit 129 64 0x3C 0) State.reset)) = 0x10 := by decide

/-- R6, R70: what fits depends on the build's `FB_CAPACITY`. -/
theorem test_dinit_other_capacities :
    statusWord (after (exec (.dinit 129 64 0x3C 0) (State.resetOf (sampleOf 1033)))) = 0x02 ∧
      statusWord (after (exec (.dinit 128 64 0x3C 0) (State.resetOf (sampleOf 1024)))) = 0x10 := by decide

theorem test_setpix_last : (after (exec (.setpix 127 63 true) (display (zeros [1024])))).fb =
    [(0, 0x40#8), (1024, 0x80#8)] := by decide

theorem test_setpix_below_display :
    fcauseWord (after (exec (.setpix 5 64 true) (display []))) = 0x400523 := by decide

theorem test_fill_one_column : (after (exec (.fill true) tiny)).fb = [(0, 0x40#8), (1, 0xFF#8)] := by decide

theorem test_fill_low_display :
    let t := after (exec (.fill false) (low 2 8 1 3))
    t.fault = true ∧ t.cause = 3 ∧ t.op = 3 := by decide

theorem test_rect_border : (after (exec (.rect 2 1 4 3 true false) (display (zeros [9, 17, 25, 33])))).fb =
    [(0, 0x40#8), (9, 0x1C#8), (17, 0x14#8), (25, 0x14#8), (33, 0x1C#8)] := by decide

theorem test_rect_no_width : fcauseWord (after (exec (.rect 0 0 0 3 true false) (display []))) = 0x030044 := by decide

theorem test_line_backward : (after (exec (.line 2 1 0 0 true) (display (zeros [1, 9, 17])))).fb =
    [(0, 0x40#8), (1, 0x01#8), (9, 0x02#8), (17, 0x02#8)] := by decide

theorem test_line_leaves_display :
    fcauseWord (after (exec (.line 120 60 130 70 true) (display []))) = 0x407C53 := by decide

theorem test_hline : (after (exec (.hline 3 6 9 true) (display (zeros [26, 34, 42, 50])))).fb =
    [(0, 0x40#8), (26, 0x02#8), (34, 0x02#8), (42, 0x02#8), (50, 0x02#8)] := by decide

theorem test_hline_reversed : fcauseWord (after (exec (.hline 6 3 9 true) (display []))) = 0x030664 := by decide

theorem test_vline : (after (exec (.vline 3 7 9 true) (display (zeros [25, 26])))).fb =
    [(0, 0x40#8), (25, 0x80#8), (26, 0x03#8)] := by decide

theorem test_vline_below : fcauseWord (after (exec (.vline 127 60 64 true) (display []))) = 0x407F73 := by decide

theorem test_char_straddles_pages :
    let cells := zeros [25, 26, 33, 34, 41, 42, 49, 50, 57, 58, 65, 66, 73, 74, 81, 82]
    let t := after (exec (.char 0x41 3 4) { display cells with build := sample })
    t.rv0 = 4 ∧ t.fb.filter (fun c => c.2 != 0#8) =
      [(0, 0x40#8), (25, 0xE0#8), (26, 0x07#8), (33, 0x90#8), (41, 0x90#8), (49, 0x90#8), (57, 0xE0#8), (58, 0x07#8)] := by
  decide

theorem test_char_unsupported : fcauseWord (after (exec (.char 0x40 0 0) (display []))) = 0x004085 := by decide

theorem test_string_wraps :
    let cells := zeros [2, 10, 18, 26, 34, 42, 50, 58, 945, 953, 961, 969, 977, 985, 993, 1001]
    let t := after (exec (.string 118 0 2)
      { display cells with build := sample, strbuf := [(0, 0x41#8), (1, 0x42#8)] })
    resultWord t = 0x0806 ∧ t.fb.filter (fun c => c.2 != 0#8) =
      [(0, 0x40#8), (2, 0x7F#8), (10, 0x49#8), (18, 0x49#8), (26, 0x49#8), (34, 0x36#8),
        (945, 0x7E#8), (953, 0x09#8), (961, 0x09#8), (969, 0x09#8), (977, 0x7E#8)] := by
  decide +kernel

theorem test_string_bottom_row : resultWord (after (exec (.string 0 56 2) (display []))) = 0x3800 := by decide

theorem test_flush :
    (after (exec .flush
      { tiny with build := sample, busSel := 1, busAddr := 0x3C, fb := [(0, 0x40#8), (1, 0x05#8)] })).bus =
      [⟨1, 0x3C, [0x80, 0x21]⟩, ⟨1, 0x3C, [0x40, 0x05]⟩] := by decide

theorem test_flush_stalls :
    let t := after (exec .flush { tiny with build := sample, busRoom := .limited 3 })
    t.busy = true ∧ t.bus = [⟨0, 0, [0x80, 0x21]⟩] ∧ t.pending = some (.bus [0x40] [0x00] [] .flush) := by decide

theorem test_minit :
    let t := after (exec (.minit 1 2) State.reset)
    (t.mtxChan, t.mtxPin, statusWord t) = (1, 2, 0x04) := by decide

theorem test_minit_no_slot :
    statusWord (after (exec (.minit 0 7) { State.reset with slotAvail := false })) = 0x20 := by decide

/-- A frame of `matrix` with only the centre lit: word 12 (section 2.6). -/
theorem test_mdraw_centre :
    let cells := (List.range 25).map fun k => (k, if k = 12 then 0x400020000CCD#48 else 0#48)
    (after (exec .mdraw { matrix with cbuf := cells })).led =
      List.replicate 12 0#32 ++ 0x3F7F1900#32 :: List.replicate 12 0#32 := by decide

theorem test_mdraw_not_ready : fcauseWord (after (exec .mdraw State.reset)) = 0x0001C2 := by decide

/-! ## The host's port -/

theorem test_illegal_word :
    fcauseWord (after (step (State.reset.withFetchWord 40 0xFFFFFFFFFF))) = 0xFFFFF1 := by decide

theorem test_host_reads_config :
    hostRead 0x04 (display []) = 0x3C084080 ∧ hostRead 0x06 (display []) = 1025 := by decide

theorem test_host_writes_colour :
    (after (step { State.reset with inputs := [.write 0x58 0x800000000000] })).cbuf = [(24, 0x800000000000#48)] := by
  decide

/-- R196, U7: a write of `STRBUF` or `CBUF` while MDRAW waits spoils the words after the one on offer. -/
theorem test_buffer_writes_tear_a_waiting_frame :
    let s := { matrix with busy := true, ledRoom := .limited 0, pending := some (.led [0x0A0B0C00#32, 0#32]) }
    (writeStrbuf 0 0x41 s).pending = some (.led [0x0A0B0C00#32, Config.freeTorn 0 0 ++ 0#8]) ∧
      (writeCbuf 0 0 s).pending = some (.led [0x0A0B0C00#32, Config.freeTorn 0 0 ++ 0#8]) := ⟨rfl, rfl⟩

/-! ## Runs (R174) -/

/-- MINIT, then a read of `STATUS`, completes. -/
theorem test_run_completes : Completed Config.params (fun _ => []) [.command 0xB001020000#40, .readStatus] :=
  ⟨2, by decide, by decide, by decide⟩

/-- An illegal word faults. -/
theorem test_run_faults : Faulted (sampleOf 0) (fun _ => []) [.command 0x0000000000#40] := ⟨1, by decide⟩

/-- MDRAW with a queue that never takes a word hangs: the action after it is never issued. -/
theorem test_run_hangs :
    let env : Environment := fun n => if n = 0 then [.ledRoom (.limited 0)] else []
    let c := runAt sample env [.command 0xB001020000#40, .command 0xC000000000#40, .readStatus] 4
    c.state.busy = true ∧ c.rest = [.readStatus] := ⟨rfl, rfl⟩

/-! ## Witnesses of hypotheses -/

theorem witness_decodeOfEncode : WellFormed (.dinit 255 255 0x7F 255) = true := by decide

theorem witness_encodeOfDecode : decode 0x10FFFF7FFF#40 = .ok (.dinit 255 255 0x7F 255) := by decide

theorem witness_opcodeMap : ∃ r ∈ opcodeRows, r.fits 0xC000000000#40 = true := by decide

/-- One reset cuts a bus write short, one does not. -/
theorem witness_rstInput :
    let s := { tiny with inputs := [.reset], busy := true, pending := some (.bus [0x40#8] [0x00#8] [] .flush) }
    s.inputs = .reset :: [] ∧
      (∃ sent todo rest d, s.pending = some (.bus sent todo rest d) ∧ sent ≠ []) ∧
      ({ stopped with inputs := [.reset] } : State).inputs = .reset :: [] ∧
      ¬ ∃ sent todo rest d, stopped.pending = some (.bus sent todo rest d) ∧ sent ≠ [] :=
  ⟨rfl, ⟨_, _, _, _, rfl, by decide⟩, rfl, by rintro ⟨_, _, _, _, h, -⟩; cases h⟩

theorem witness_stepRuns :
    let s := { State.reset with inputs := [.write cmdAddress 0xC000000000#48] }
    s.busy = false ∧ s.fault = false ∧ decode ((0xC000000000#48).setWidth 40) = .ok .mdraw := by decide

theorem witness_illegalWord :
    let s := { State.reset with inputs := [.write cmdAddress 0x0000000000#48] }
    s.busy = false ∧ s.fault = false ∧ decode ((0x0000000000#48).setWidth 40) = .error .reservedOpcode := by decide

theorem witness_commandIgnored :
    stopped.fault = true ∧ ({ State.reset with busy := true } : State).busy = true := by decide

theorem witness_oneOutcome : State.reset.fault = false := rfl

theorem witness_neverWaits : isDrawing (.fill true) = true ∧ ∃ t, exec (.fill true) tiny = .next t :=
  ⟨rfl, _, rfl⟩

theorem witness_hang_bus :
    let s :=
      { tiny with
        busy := true, busRoom := .limited 0, pending := some (.bus [] [0x40#8] [] .flush)
        inputs := [.ledRoom .unlimited, .write cmdAddress 0] }
    s.busy = true ∧
      (∃ sent todo rest d, s.pending = some (.bus sent todo rest d) ∧ todo ≠ [] ∧ s.busRoom = .limited 0) ∧
      ∀ e ∈ s.inputs, e ≠ .reset ∧ ∀ r, e ≠ .busRoom r :=
  ⟨rfl, ⟨_, _, _, _, rfl, by decide, rfl⟩, by simp⟩

theorem witness_hang_led :
    let s :=
      { matrix with
        busy := true, ledRoom := .limited 0, pending := some (.led [0#32, 0#32])
        inputs := [.busRoom .unlimited, .write 0x40 0, .write 0x100 0] }
    s.busy = true ∧ (∃ w ws, s.pending = some (.led (w :: ws)) ∧ s.ledRoom = .limited 0) ∧
      ∀ e ∈ s.inputs, e ≠ .reset ∧ ∀ r, e ≠ .ledRoom r :=
  ⟨rfl, ⟨_, _, rfl, rfl⟩, by simp⟩

theorem witness_busStall :
    ∃ t u, exec .flush { tiny with busRoom := .limited 0 } = .next t ∧ t.pending.isSome = true ∧
      step { t with inputs := [.busRoom (.limited 1)] } = .next u := by
  refine ⟨_, _, rfl, ?_, rfl⟩
  simp only [whenDisplayReady, tiny, if_true, flush]
  rcases State.reset.build.flushCmds 1 1 with _ | ⟨_, _ | ⟨_, _⟩⟩ <;> rfl

theorem witness_ledStall :
    ∃ t u, exec .mdraw { matrix with ledRoom := .limited 1 } = .next t ∧ t.pending.isSome = true ∧
      step { t with inputs := [.ledRoom (.limited 1)] } = .next u :=
  ⟨_, _, rfl, rfl, rfl⟩

theorem witness_stateFault :
    isDisplayCommand .flush = true ∧ opcode .flush ≠ 1#4 ∧ State.reset.dispReady = false ∧ tiny.dispReady = true ∧
      State.reset.mtxReady = false ∧ matrix.mtxReady = true := by decide

theorem witness_rangeFault :
    tiny.dispReady = true ∧ ((0 : Byte) = 0 ∨ (3 : Byte) = 0) ∧ ((3 : Byte) = 0 ∨ (0 : Byte) = 0) ∧
      (0 : Byte).toNat < (1 : Byte).toNat := by decide

theorem witness_configFault : State.reset.dispReady = false ∧ (60 : Byte).toNat % 8 ≠ 0 := by decide

theorem witness_firstOffender :
    let i := Instr.line 0 0 2 1 true
    isDrawing i = true ∧ opcode i ≠ 3#4 ∧ opcode i ≠ 4#4 ∧ tiny.dispReady = true ∧
      (commandPixels i tiny).find? (fun q => !pixelOk tiny q) = some ⟨1, 0, true⟩ := by decide

theorem witness_anyOffender_fill :
    let s := low 2 8 1 3
    s.dispReady = true ∧ ∃ p ∈ commandPixels (.fill true) s, pixelOk s p = false := by decide

theorem witness_anyOffender_rect :
    ∃ p ∈ commandPixels (.rect 0 0 2 1 true true) tiny, pixelOk tiny p = false := by decide

theorem witness_setpixOutside :
    let s := display []
    s.dispReady = true ∧ s.width.toNat ≤ (128 : Byte).toNat ∧ s.height.toNat ≤ (64 : Byte).toNat ∧
      (low 128 32 4 513).bufsize.toNat ≤ (0 : Byte).toNat / 8 + (64 : Byte).toNat * 8 + 1 := by decide

theorem witness_unsupported_char : tiny.dispReady = true ∧ glyphIndex 0x40 = none := by decide

theorem witness_unsupported_string :
    let s := { display [] with strbuf := [(0, 0x40#8)] }
    s.dispReady = true ∧ (stringPlan 0 0 1 s).stop = some ⟨.char, 0x40⟩ ∧
      ∀ p ∈ (stringPlan 0 0 1 s).writes, pixelOk s p = true := by decide

theorem witness_unsupported_layout :
    let s := { display [] with strbuf := [(0, 0x40#8)] }
    let v : TextVars := ⟨118, 55, 0, ⟨0, 0, 0⟩⟩
    v.ty + 8 < zext s.height ∧ glyphIndex (strbufByte s v.ti) = none := by decide

theorem witness_faultKeeps :
    State.reset.fault = false ∧ ∃ t, exec (.setpix 0 0 true) State.reset = .next t ∧ t.fault = true :=
  ⟨rfl, _, rfl, rfl⟩

theorem witness_onlyReset :
    ({ stopped with inputs := [.reset] } : State).fault = true ∧ stopped.inputs = [] ∧ Input.read 1 ≠ .reset ∧
      Input.write 0 7 = .write cmdAddress 7 := by decide

theorem witness_dinit :
    State.reset.dispReady = false ∧ (64 : Byte).toNat % 8 = 0 ∧
      (64 : Byte).toNat / 8 * (128 : Byte).toNat + 1 ≤ State.reset.build.fbCapacity ∧
      State.reset.busRoom.covers (2 * State.reset.build.initCmds.length) = true :=
  ⟨rfl, by decide, by decide, rfl⟩

theorem witness_allocationError :
    State.reset.dispReady = false ∧ State.reset.fault = false ∧ (64 : Byte).toNat % 8 = 0 ∧
      State.reset.build.fbCapacity < (64 : Byte).toNat / 8 * (129 : Byte).toNat + 1 := by decide

theorem witness_noAllocationError :
    opcode .mdraw ≠ 1#4 ∧ ∃ t, exec .mdraw matrix = .next t ∧ t.busy = false ∧ t.fault = false ∧
      matrix.fault = false :=
  ⟨by decide, _, rfl, rfl, rfl, rfl⟩

theorem witness_flush :
    tiny.dispReady = true ∧
      tiny.busRoom.covers (2 * (tiny.build.flushCmds tiny.width tiny.pages).length + tiny.bufsize.toNat) = true ∧
      tiny.bufsize ≠ 0 :=
  ⟨rfl, rfl, by decide⟩

theorem witness_header : opcode (.fill true) ≠ 1#4 ∧ ∃ t, exec (.fill true) tiny = .next t := ⟨by decide, _, rfl⟩

theorem witness_header_flush : ∃ t, exec .flush tiny = .next t ∧ t.busy = false := by
  rw [exec_flush, if_pos (show tiny.dispReady = true from rfl), emitBus_of_covers _ _ _ rfl]
  exact ⟨_, rfl, rfl⟩

theorem witness_setpix :
    let s := display []
    s.dispReady = true ∧ (127 : Byte).toNat < s.width.toNat ∧ (63 : Byte).toNat < s.height.toNat ∧
      (63 : Byte).toNat / 8 + (127 : Byte).toNat * 8 + 1 < s.bufsize.toNat := by decide

theorem witness_setThenClear :
    tiny.dispReady = true ∧ pixelOk tiny ⟨zext 0, zext 7, true⟩ = true ∧
      ∃ t u, exec (.setpix 0 7 true) tiny = .next t ∧ exec (.setpix 0 7 false) t = .next u :=
  ⟨rfl, by decide, _, _, rfl, rfl⟩

/-- What the tests of R32 ask of a pixel of `tiny`. -/
theorem tiny_ok (x y : Int) (on : Bool) (hx : 0 ≤ x) (hx' : x < 1) (hy : 0 ≤ y) (hy' : y < 8) :
    pixelOk tiny ⟨x, y, on⟩ = true := by
  rw [pixelOk_iff]
  refine ⟨hx, hy, hx', hy', ?_⟩
  show y / 8 + x * 8 + 1 < ((2 : Nat) : Int)
  omega

theorem witness_fill (on : Bool) :
    tiny.dispReady = true ∧ ∀ x y : Int, 0 ≤ x → x < zext tiny.width → 0 ≤ y → y < zext tiny.height →
      pixelOk tiny ⟨x, y, on⟩ = true :=
  ⟨rfl, fun x y h1 h2 h3 h4 => tiny_ok x y on h1 h2 h3 h4⟩

theorem witness_height64 : (display []).dispReady = true ∧ Height64 (display []) := ⟨rfl, rfl, rfl⟩

theorem witness_fillFaults :
    (low 2 8 1 3).dispReady = true ∧ Geometry (low 2 8 1 3) ∧ 1 ≤ (low 2 8 1 3).pages.toNat ∧
      (low 2 8 1 3).pages.toNat ≤ 7 ∧ 2 ≤ (low 2 8 1 3).width.toNat :=
  ⟨rfl, ⟨rfl, rfl, rfl, by decide, rfl⟩, by decide, by decide, by decide⟩

theorem witness_fillFaults_sevenPages :
    Geometry (low 2 56 7 15) ∧ (low 2 56 7 15).pages.toNat ≤ 7 :=
  ⟨⟨rfl, rfl, rfl, by decide, rfl⟩, by decide⟩

theorem witness_rect :
    tiny.dispReady = true ∧ (1 : Byte) ≠ 0 ∧ ∀ x y, inRect (zext 0) (zext 0) (zext 1) (zext 8) true x y →
      pixelOk tiny ⟨x, y, true⟩ = true :=
  ⟨rfl, by decide, fun x y h => tiny_ok x y true h.1 h.2.1 h.2.2.1 h.2.2.2.1⟩

theorem witness_hline_vline :
    tiny.dispReady = true ∧ (0 : Byte).toNat ≤ (0 : Byte).toNat ∧ (0 : Byte).toNat ≤ (7 : Byte).toNat ∧
      (∀ x, zext 0 ≤ x → x ≤ zext 0 → pixelOk tiny ⟨x, zext 7, true⟩ = true) ∧
      ∀ y, zext 0 ≤ y → y ≤ zext 7 → pixelOk tiny ⟨zext 0, y, true⟩ = true := by
  have h0 : zext 0 = 0 := rfl
  have h7 : zext 7 = 7 := rfl
  refine ⟨rfl, by decide, by decide, fun x h1 h2 => tiny_ok _ _ _ ?_ ?_ ?_ ?_, fun y h1 h2 => tiny_ok _ _ _ ?_ ?_ ?_ ?_⟩
  all_goals omega

theorem witness_line :
    tiny.dispReady = true ∧ ∀ x y, onLine (zext 0) (zext 7) (zext 0) (zext 0) x y → pixelOk tiny ⟨x, y, true⟩ = true := by
  refine ⟨rfl, ?_⟩
  rintro x y ⟨v, hv, rfl, rfl⟩
  revert v
  decide

theorem witness_lineInside :
    Height64 (display []) ∧ (127 : Byte).toNat < (display []).width.toNat ∧ (0 : Byte).toNat < 64 ∧
      (63 : Byte).toNat < 64 := ⟨⟨rfl, rfl⟩, by decide, by decide, by decide⟩

theorem witness_axisAligned : (3 : Int) ≤ 6 ∧ hlinePixels 3 6 9 true ≠ [] := by decide

theorem witness_glyphIndex : (9 : Nat) < 10 ∧ (25 : Nat) < 26 ∧ glyphIndex 0x7A = some 61 := by decide

theorem witness_trimmedWidth :
    (∃ i, i < 8 ∧ sample.glyph (8 * 10 + i) ≠ 0#8) ∧ ∀ i, i < 8 → sample.glyph (8 * 12 + i) = 0#8 := by decide

theorem witness_char :
    (display []).dispReady = true ∧ (0x41 : Byte) ≠ 0x20#8 ∧ glyphIndex 0x41 = some 10 ∧
      ∀ i j : Nat, i < 8 → j < 8 → pixelOk (display []) ⟨zext 120 + i, zext 56 + j, true⟩ = true := by
  refine ⟨rfl, by decide, by decide, fun i j hi hj => ?_⟩
  rw [pixelOk_iff]
  have h120 : zext 120 = 120 := rfl
  have h56 : zext 56 = 56 := rfl
  have hw : zext (display []).width = 128 := rfl
  have hh : zext (display []).height = 64 := rfl
  have hb : ((display []).bufsize.toNat : Int) = 1025 := rfl
  simp only [h120, h56, hw, hh, hb, pixelAddr]
  omega

theorem witness_space : (display []).dispReady = true := rfl

/-- `STRING " A", 125, 0` of 95_test_vectors.md: a space may start beyond `WIDTH - 8`. -/
theorem witness_string_beyond :
    let s := { display [] with build := sample, strbuf := [(0, 0x20#8), (1, 0x41#8)] }
    s.dispReady = true ∧ (stringPlan 125 0 2 s).stop = none ∧ (∀ p ∈ (stringPlan 125 0 2 s).writes, pixelOk s p = true) ∧
      (stringPlan 125 0 2 s).vars.tx = 6 ∧ (stringPlan 125 0 2 s).vars.ty = 8 := by decide +kernel

/-- An unsupported character in the truncated tail is not reached. -/
theorem witness_string_truncated :
    let s := { display [] with build := sample, strbuf := [(0, 0x41#8), (1, 0x40#8)] }
    s.dispReady = true ∧ (stringPlan 120 48 2 s).stop = none ∧
      (∀ p ∈ (stringPlan 120 48 2 s).writes, pixelOk s p = true) := by decide +kernel

/-- A display of `HEIGHT` = 16. -/
theorem witness_string_low :
    let s := { low 32 16 2 65 with build := sample, strbuf := [(0, 0x41#8)] }
    s.dispReady = true ∧ (stringPlan 0 0 1 s).stop = none ∧
      (∀ p ∈ (stringPlan 0 0 1 s).writes, pixelOk s p = true) := by decide +kernel

theorem witness_string :
    let s := { display [] with strbuf := [(0, 0x41#8)] }
    Height64 s ∧ (120 : Byte).toNat + 8 ≤ s.width.toNat ∧
      ∀ i, i < (1 : Byte).toNat → glyphIndex (strbufByte s i) ≠ none :=
  ⟨⟨rfl, rfl⟩, by decide, by decide⟩

theorem witness_layoutEnds :
    let v : TextVars := ⟨0, 56, 1, ⟨0, 0, 0⟩⟩
    zext (display []).height ≤ v.ty + 8 := by decide

theorem witness_stringOutsideGuard :
    (display []).dispReady = true ∧ (display []).height.toNat ≤ (56 : Byte).toNat + 8 := by decide

theorem witness_layout :
    let s := { display [] with build := sample, strbuf := [(0, 0x41#8)] }
    let v : TextVars := ⟨118, 0, 0, ⟨0, 0, 0⟩⟩
    v.ty + 8 < zext s.height ∧
      (∃ w ps, drawChar s.build (strbufByte s v.ti) v.tx v.ty = .ok (w, ps) ∧ zext s.width - 8 < v.tx + w + 2) :=
  ⟨by decide, 4, _, rfl, by decide⟩

theorem witness_colour : (0x8000#16).toNat ≤ 0x8000 ∧ ¬(0x8001#16).toNat ≤ 0x8000 := by decide

theorem witness_minit :
    State.reset.mtxReady = false ∧ State.reset.clkOk = true ∧ State.reset.slotAvail = true := by decide

theorem witness_initError :
    let s := { State.reset with clkOk := false }
    s.fault = false ∧ s.mtxReady = false ∧ (s.clkOk = false ∨ s.slotAvail = false) := by decide

theorem witness_noInitError :
    opcode .mdraw ≠ 11#4 ∧ ∃ t, exec .mdraw matrix = .next t ∧ t.busy = false ∧ t.fault = false :=
  ⟨by decide, _, rfl, rfl, rfl⟩

theorem witness_mdraw : matrix.mtxReady = true ∧ matrix.ledRoom.covers 25 = true := ⟨rfl, rfl⟩

theorem witness_halves :
    isDisplayCommand (.fill true) = true ∧ isDisplayCommand .mdraw = false ∧
      (∃ t, exec (.fill true) tiny = .next t) ∧ ∃ t, exec .mdraw matrix = .next t ∧ t.fault = false :=
  ⟨rfl, rfl, ⟨_, rfl⟩, _, rfl, rfl⟩

/-- Every address, those at the ends of each range of the map among them, is one the host may read. -/
theorem witness_hostReads :
    (∀ a, ∃ s : State, ∃ es, s.inputs = .read a :: es) ∧ (0x40 = 0x40 + 0 ∧ 0 < 25) ∧ (0x58 = 0x40 + 24 ∧ 24 < 25) ∧
      0x100 = 0x100 + 0 ∧ (0x1FE = 0x100 + 254 ∧ 254 < 255) ∧ (6 < 0x07 ∧ 0x3F < 0x40) ∧
      (0x58 < 0x59 ∧ 0xFF < 0x100) ∧ 0x1FE < 0x1FF :=
  ⟨fun a => ⟨{ State.reset with inputs := [.read a] }, [], rfl⟩, by decide⟩

/-- The same for writes, while the block is busy and while it is not. -/
theorem witness_hostWrites :
    (∀ a v b, ∃ s : State, ∃ es, s.inputs = .write a v :: es ∧ s.busy = b) ∧ (0x40 = 0x40 + 0 ∧ 0 < 25) ∧
      (0x58 = 0x40 + 24 ∧ 24 < 25) ∧ 0x100 = 0x100 + 0 ∧ (0x1FE = 0x100 + 254 ∧ 254 < 255) ∧ (1 ≤ 0x01 ∧ 0x3F < 0x40) ∧
      (0x58 < 0x59 ∧ 0xFF < 0x100) ∧ 0x1FE < 0x1FF :=
  ⟨fun a v b => ⟨{ State.reset with inputs := [.write a v], busy := b }, [], rfl, rfl⟩, by decide⟩

/-- `tiny` meets the invariant, and a step of it draws. -/
theorem witness_invariant :
    BlockInv { tiny with inputs := [.write cmdAddress 0x3100000000#48] } ∧
      ∃ t, step { tiny with inputs := [.write cmdAddress 0x3100000000#48] } = .next t ∧
        cellRead t.fb 1 = some 0xFF#8 :=
  ⟨⟨⟨rfl, rfl⟩, ⟨rfl, rfl⟩, ⟨rfl, rfl⟩, fun _ => ⟨rfl, rfl, rfl, by decide, rfl⟩, rfl, nofun,
      fun _ => ⟨rfl, rfl, rfl, by decide⟩, nofun, nofun, nofun, List.suffix_refl _⟩, _, rfl, by decide⟩

end Sys2Proof.Tests
end

/-! # The header byte (R34): only DINIT writes `FB[0]`, and FLUSH sends it first -/

namespace Sys2Proof.Machine

/-! ## Framebuffer reads that an operation leaves alone -/

/-- A framebuffer byte depends on the entry at its index and on the reset count only. -/
theorem fbByte_congr {s t : State} {a : Nat} (hcell : cellRead t.fb a = cellRead s.fb a) (hepoch : t.epoch = s.epoch) :
    fbByte t a = fbByte s a := by
  simp only [fbByte, hcell, hepoch]

@[simp] theorem fbByte_complete (code : BitVec 2) (s : State) (a : Nat) : fbByte (complete code s) a = fbByte s a := rfl

@[simp] theorem fbByte_faultEntry (opc : BitVec 4) (r : Raise) (s : State) (a : Nat) :
    fbByte (faultEntry opc r s) a = fbByte s a := rfl

@[simp] theorem fbByte_busDone (d : BusEnd) (s : State) (a : Nat) : fbByte (busDone d s) a = fbByte s a := by
  cases d <;> rfl

/-- Bus output leaves `FB` alone, whether it completes or waits. -/
@[simp] theorem fbByte_emitBus (d : BusEnd) (ts : List (List Byte)) (s : State) (a : Nat) :
    fbByte (emitBus d ts s) a = fbByte s a := by
  obtain ⟨r, sent, -, ⟨-, h⟩ | ⟨_, _, _, -, -, -, h⟩⟩ := emitBus_cases d ts s
  · rw [h, fbByte_busDone]
    rfl
  · rw [h]
    rfl

/-- LED output leaves `FB` alone, whether it completes or waits. -/
@[simp] theorem fbByte_sendLed (ws : List LedWord) (s : State) (a : Nat) : fbByte (sendLed ws s) a = fbByte s a := by
  obtain ⟨-, h⟩ | ⟨-, _, _, -, h⟩ := sendLed_cases ws s
  all_goals
    rw [h]
    rfl

/-! ## The header byte under a command -/

/-- A drawing command keeps the header byte however it ends: every pixel write that passes R32 has index at least 1. -/
theorem DrawEnd.header {opc : BitVec 4} {ps : List Pixel} {s t : State} (h : DrawEnd opc ps s t) :
    fbByte t 0 = fbByte s 0 := by
  cases h with
  | early r _ => exact fbByte_faultEntry opc r s 0
  | midway u r _ _ =>
    obtain ⟨m, wk, heq, hm⟩ := faultMidway_eq u opc r ps s
    rw [heq, fbByte_faultEntry]
    exact fbByte_congr (by rw [hm, header_someWrites]) rfl
  | drawn wk a b _ _ hok => exact fbByte_congr (header_paintAll ps s hok) rfl

/-- No command but DINIT changes the header byte. -/
theorem exec_header_of_ne_dinit (i : Instr) {s t : State} (hop : opcode i ≠ 1#4) (he : exec i s = .next t) :
    fbByte t 0 = fbByte s 0 := by
  by_cases hd : isDrawing i = true
  · obtain ⟨t', heq, hend⟩ := exec_drawing i s hd
    rw [heq] at he
    cases he
    exact hend.header
  · cases i with
    | dinit => exact absurd rfl hop
    | flush =>
      rw [exec_flush] at he
      cases he
      split <;> simp
    | minit ch pin =>
      rw [exec_minit] at he
      cases he
      repeat' split
      all_goals rfl
    | mdraw =>
      rw [exec_mdraw] at he
      cases he
      split
      · exact fbByte_sendLed _ _ 0
      · rfl
    | _ => exact absurd rfl hd

/-- DINIT that passes its three checks goes on to its bus writes (R70). -/
theorem exec_dinit_of_fits (w h a b : Byte) {s : State} (hr : s.dispReady = false) (hh : h.toNat % 8 = 0)
    (hfit : h.toNat / 8 * w.toNat + 1 ≤ s.build.fbCapacity) :
    exec (.dinit w h a b) s =
      .next (emitBus .dinit (s.build.initCmds.map commandWrite) (initialised w h a b s)) := by
  have hlow : ¬ h &&& 7#8 ≠ 0#8 := not_not.2 ((low3_eq_zero_iff h).2 hh)
  have hsize : ¬ s.build.fbCapacity < bufferSize w h := by
    rw [bufferSize_eq]
    omega
  rw [exec_dinit, if_neg (by simp [hr]), if_neg hlow, if_neg hsize]

@[simp] theorem fbByte_initialised_header (w h a b : Byte) (s : State) :
    fbByte (initialised w h a b s) 0 = 0x40#8 := by
  rw [initialised, fbByte_writeFb, if_pos rfl]

/-! ## The bulk write of FLUSH -/

@[simp] theorem bulkBytes_length (s : State) : (bulkBytes s).length = s.bufsize.toNat := by simp [bulkBytes]

/-- The bulk write of a buffer that is not empty begins with the header byte (R36, R73). -/
theorem bulkBytes_head? (s : State) (h : s.bufsize ≠ 0) : (bulkBytes s).head? = some (fbByte s 0) := by
  have hpos : s.bufsize.toNat ≠ 0 := fun h0 => h (BitVec.eq_of_toNat_eq h0)
  simp [bulkBytes, List.head?_range, hpos]

@[simp] theorem busDone_bus (d : BusEnd) (s : State) : (busDone d s).bus = s.bus := by
  cases d <;> rfl

/-- A bus command that does not wait has all its transactions in the `BUS` trace. -/
theorem emitBus_bus_of_not_busy {d : BusEnd} {ts : List (List Byte)} {s : State} (h : (emitBus d ts s).busy = false) :
    (emitBus d ts s).bus = s.bus ++ asWrites s ts := by
  obtain ⟨r, sent, -, ⟨rfl, heq⟩ | ⟨_, _, _, -, -, -, heq⟩⟩ := emitBus_cases d ts s
  · rw [heq, busDone_bus]
  · rw [heq] at h
    cases h

/-- The last write in the trace after a FLUSH that completes is the bulk write. -/
theorem exec_flush_getLast? {s t : State} (hr : s.dispReady = true) (he : exec .flush s = .next t)
    (hb : t.busy = false) : t.bus.getLast? = some ⟨s.busSel, s.busAddr, bulkBytes s⟩ := by
  rw [exec_flush, if_pos hr] at he
  cases he
  rw [emitBus_bus_of_not_busy hb]
  simp [asWrites]

/-- Settles O27: the header byte lies below every pixel's index, DINIT's write to it precedes its bus output, which
leaves `FB` alone, and the bulk write of FLUSH starts at index 0. -/
theorem headerByteIsDinitsAlone : Obligations.HeaderByteIsDinitsAlone := by
  unfold Obligations.HeaderByteIsDinitsAlone
  refine ⟨fun i s t hop he => exec_header_of_ne_dinit i hop he, ?_, ?_⟩
  · intro w h a b s t hr hh hfit he
    rw [exec_dinit_of_fits w h a b hr hh hfit] at he
    cases he
    rw [fbByte_emitBus, fbByte_initialised_header]
  · intro s t hr hsize he hb
    exact ⟨_, exec_flush_getLast? hr he hb, bulkBytes_head? s hsize, bulkBytes_length s⟩

end Sys2Proof.Machine

/-! # The font (R110 to R115): glyph indices, trimmed widths, the space, unsupported characters -/

namespace Sys2Proof.Machine

/-! ## Glyph indices (R110) -/

theorem glyphIndex_of_digit {c : Byte} (h : 0x30 ≤ c.toNat ∧ c.toNat ≤ 0x39) :
    glyphIndex c = some (c.toNat - 0x30) := by
  rw [glyphIndex, if_pos h]

theorem glyphIndex_of_upper {c : Byte} (h : 0x41 ≤ c.toNat ∧ c.toNat ≤ 0x5A) :
    glyphIndex c = some (c.toNat - 0x41 + 10) := by
  rw [glyphIndex, if_neg (by omega), if_pos h]

theorem glyphIndex_of_lower {c : Byte} (h : 0x61 ≤ c.toNat ∧ c.toNat ≤ 0x7A) :
    glyphIndex c = some (c.toNat - 0x61 + 36) := by
  rw [glyphIndex, if_neg (by omega), if_neg (by omega), if_pos h]

@[simp] theorem glyphIndex_space : glyphIndex 0x20#8 = some 65 := rfl

theorem ite_some_eq_none_iff {α : Type} {p : Prop} [Decidable p] {a : α} {o : Option α} :
    (if p then some a else o) = none ↔ ¬p ∧ o = none := by
  split <;> simp [*]

/-- The codes without a glyph: none of the seven branches of the table takes them. -/
theorem glyphIndex_eq_none_iff (c : Byte) :
    glyphIndex c = none ↔
      ¬(0x30 ≤ c.toNat ∧ c.toNat ≤ 0x39) ∧ ¬(0x41 ≤ c.toNat ∧ c.toNat ≤ 0x5A) ∧
      ¬(0x61 ≤ c.toNat ∧ c.toNat ≤ 0x7A) ∧ c ≠ 0x2E#8 ∧ c ≠ 0x2D#8 ∧ c ≠ 0x23#8 ∧ c ≠ 0x20#8 := by
  simp only [glyphIndex, ite_some_eq_none_iff, and_true, ← BitVec.toNat_ne_iff_ne]
  rfl

/-- Settles O41: each range of codes by its branch of the table, the four single codes by evaluation. -/
theorem glyphIndexTable : Obligations.GlyphIndexTable := by
  unfold Obligations.GlyphIndexTable
  have code (k n : Nat) (h : k + n < 256) : (BitVec.ofNat 8 (k + n)).toNat = k + n :=
    Nat.mod_eq_of_lt h
  refine ⟨fun n hn => ?_, fun n hn => ⟨?_, ?_⟩, rfl, rfl, rfl, rfl, glyphIndex_eq_none_iff⟩
  · have hc := code 0x30 n (by omega)
    rw [glyphIndex_of_digit (by omega), hc, Nat.add_sub_cancel_left]
  · have hc := code 0x41 n (by omega)
    rw [glyphIndex_of_upper (by omega), hc, Nat.add_sub_cancel_left, Nat.add_comm]
  · have hc := code 0x61 n (by omega)
    rw [glyphIndex_of_lower (by omega), hc, Nat.add_sub_cancel_left, Nat.add_comm]

/-! ## `DRAWCHAR` in its three cases (R112, R113, R115) -/

@[simp] theorem drawChar_space (P : Params) (x y : Int) : drawChar P 0x20#8 x y = .ok (3, []) := rfl

theorem drawChar_of_glyph {P : Params} {c : Byte} {g : Nat} (hc : c ≠ 0x20#8) (hg : glyphIndex c = some g)
    (x y : Int) : drawChar P c x y = .ok (trimmedWidth P g, cellPixels P g x y) := by
  simp only [drawChar, if_neg hc, hg]

/-- An unsupported character is no space, which has a glyph index. -/
theorem drawChar_of_unsupported {P : Params} {c : Byte} (hg : glyphIndex c = none) (x y : Int) :
    drawChar P c x y = .error ⟨.char, c.setWidth 16⟩ := by
  have hc : c ≠ 0x20#8 := by
    rintro rfl
    cases hg
  simp only [drawChar, if_neg hc, hg]

/-! ## The trimmed width (R114) -/

theorem trimmedWidthFrom_append (P : Params) (g : Nat) (is js : List Nat) (gw : Nat) :
    trimmedWidthFrom P g (is ++ js) gw = trimmedWidthFrom P g js (trimmedWidthFrom P g is gw) := by
  induction is generalizing gw with
  | nil => rfl
  | cons i is ih => exact ih _

/-- One more column: it is the width if it is not empty, else the width stays. -/
theorem trimmedWidthFrom_range_succ (P : Params) (g n : Nat) :
    trimmedWidthFrom P g (List.range (n + 1)) 0 =
      if glyphColumn P g n ≠ 0#8 then n else trimmedWidthFrom P g (List.range n) 0 := by
  rw [List.range_succ, trimmedWidthFrom_append]
  rfl

/-- The running width is the start value 0 or a non-empty column among those read. -/
theorem trimmedWidthFrom_range_eq_zero_or (P : Params) (g n : Nat) :
    trimmedWidthFrom P g (List.range n) 0 = 0 ∨
      trimmedWidthFrom P g (List.range n) 0 < n ∧
        glyphColumn P g (trimmedWidthFrom P g (List.range n) 0) ≠ 0#8 := by
  induction n with
  | zero => exact .inl rfl
  | succ n ih =>
    rw [trimmedWidthFrom_range_succ]
    split
    · rename_i hcol
      exact .inr ⟨n.lt_succ_self, hcol⟩
    · exact ih.imp_right fun ⟨hlt, hcol⟩ => ⟨hlt.trans n.lt_succ_self, hcol⟩

/-- The columns read after the running width are empty. -/
theorem glyphColumn_eq_zero_of_gt_trimmedWidthFrom_range (P : Params) (g n : Nat) :
    ∀ i, trimmedWidthFrom P g (List.range n) 0 < i → i < n → glyphColumn P g i = 0#8 := by
  induction n with
  | zero => intro i _ hi; exact absurd hi i.not_lt_zero
  | succ n ih =>
    rw [trimmedWidthFrom_range_succ]
    intro i hgt hlt
    split at hgt
    · omega
    · rename_i hcol
      rcases Nat.lt_succ_iff_lt_or_eq.1 hlt with h | rfl
      · exact ih i hgt h
      · exact not_not.1 hcol

/-- Settles O42: after each column the running width is the last non-empty column so far, by induction on the number
of columns read. -/
theorem trimmedWidthIsLastNonEmptyColumn : Obligations.TrimmedWidthIsLastNonEmptyColumn := by
  unfold Obligations.TrimmedWidthIsLastNonEmptyColumn
  refine ⟨fun P g => ?_, fun P c g x y hc hg => ⟨_, drawChar_of_glyph hc hg x y⟩⟩
  have hcase : trimmedWidth P g = 0 ∨ trimmedWidth P g < 8 ∧ glyphColumn P g (trimmedWidth P g) ≠ 0#8 :=
    trimmedWidthFrom_range_eq_zero_or P g 8
  have hafter : ∀ i, trimmedWidth P g < i → i < 8 → glyphColumn P g i = 0#8 :=
    glyphColumn_eq_zero_of_gt_trimmedWidthFrom_range P g 8
  refine ⟨by omega, fun hempty => ?_, fun ⟨i, hi, hcol⟩ => ⟨?_, hafter⟩⟩
  · exact hcase.resolve_right fun ⟨hlt, hcol⟩ => hcol (hempty _ hlt)
  · rcases hcase with hzero | ⟨-, hw⟩
    · have hi0 : i = trimmedWidth P g := by
        by_contra hne
        exact hcol (hafter i (by omega) hi)
      rwa [← hi0]
    · exact hw

/-! ## CHAR and STRING in a ready display -/

theorem whenDisplayReady_of_ready {opc : BitVec 4} {body : State → State} {s : State} (hr : s.dispReady = true) :
    whenDisplayReady opc body s = body s := if_pos hr

theorem exec_char_of_ready (c x y : Byte) {s : State} (hr : s.dispReady = true) :
    exec (.char c x y) s = .next (char c x y s) :=
  congrArg Host.Outcome.next (whenDisplayReady_of_ready hr)

theorem exec_string_of_ready (x y len : Byte) {s : State} (hr : s.dispReady = true) :
    exec (.string x y len) s = .next (string x y len s) :=
  congrArg Host.Outcome.next (whenDisplayReady_of_ready hr)

/-- Settles O44: a space returns its width before any pixel write, so CHAR completes with no pixel and with the font
unit's registers as they were. -/
theorem spaceIsAFastPath : Obligations.SpaceIsAFastPath := by
  unfold Obligations.SpaceIsAFastPath
  refine ⟨drawChar_space, fun x y s hr => ?_⟩
  rw [exec_char_of_ready _ _ _ hr, char, drawChar_space]
  rfl

/-! ## Fault entry as a relation (R165) -/

theorem entersFault_faultEntry (opc : BitVec 4) (r : Raise) (s : State) : entersFault opc r s (faultEntry opc r s) :=
  ⟨_, _, _, rfl⟩

/-- A fault in mid-drawing changes what the relation of that name allows: `FB` by some writes of the command, and
working registers other than `mp`. -/
theorem entersFaultMidway_faultMidway (u : DrawUnit) (opc : BitVec 4) (r : Raise) (ps : List Pixel) (s : State) :
    entersFaultMidway opc r ps s (faultMidway u opc r ps s) := by
  constructor
  · refine ⟨(someWrites s.fresh 0 ps s).fb, scratch u (Config.freeWorking s.fresh) s.work, scratch_mp .., ?_⟩
    rw [faultMidway, someWrites_eq]
    exact entersFault_faultEntry ..
  · intro a b hb
    have hfb : fbBit (faultMidway u opc r ps s) a b = fbBit (someWrites s.fresh 0 ps s) a b := by
      rw [faultMidway, someWrites_eq]
      rfl
    rw [hfb]
    refine (fbBit_someWrites s.fresh 0 ps s a b hb).imp_right ?_
    rintro ⟨p, hp, hok, ha, hbit, hon⟩
    exact ⟨p, hp, hok, (hits_iff s p hok a b).2 ⟨ha, hbit⟩, hon⟩

/-- A fault before the first pixel write changes the working registers of its unit only. -/
theorem faultMidway_nil (u : DrawUnit) (opc : BitVec 4) (r : Raise) (s : State) :
    faultMidway u opc r [] s =
      faultEntry opc r { s with work := scratch u (Config.freeWorking s.fresh) s.work } := rfl

/-- A drawing command whose pixels all pass ends with the fault that stops it. -/
theorem draw_of_stop (u : DrawUnit) (opc : BitVec 4) (ps : List Pixel) (r : Raise) (fin : State → State) (s : State)
    (h : ∀ p ∈ ps, pixelOk s p = true) : draw u opc ps (some r) fin s = faultMidway u opc r ps s := by
  rw [draw, pixels_of_ok ps s h]

/-! ## Unsupported characters (R115) -/

theorem char_of_unsupported {c : Byte} (hg : glyphIndex c = none) (x y : Byte) (s : State) :
    char c x y s = faultMidway .font 8#4 ⟨.char, c.setWidth 16⟩ [] s := by
  rw [char, drawChar_of_unsupported hg]
  exact draw_of_stop _ _ _ _ _ _ (by simp)

/-- The layout stops at an unsupported character, with no pixel of it. -/
theorem layout_of_unsupported {s : State} {v : TextVars} (hfits : v.ty + 8 < zext s.height)
    (hg : glyphIndex (strbufByte s v.ti) = none) (n : Nat) :
    layout s (n + 1) v = ⟨[], some ⟨.char, (strbufByte s v.ti).setWidth 16⟩, v⟩ := by
  have hrow : rowFits s v.ty = true := decide_eq_true hfits
  rw [layout, if_pos hrow]
  simp only [drawChar_of_unsupported hg]

theorem string_of_stop {x y len : Byte} {s : State} {r : Raise} (hstop : (stringPlan x y len s).stop = some r)
    (hok : ∀ p ∈ (stringPlan x y len s).writes, pixelOk s p = true) :
    string x y len s = faultMidway .text 9#4 r (stringPlan x y len s).writes s := by
  rw [string, hstop]
  exact draw_of_stop _ _ _ _ _ _ hok

/-- The fault that stops STRING is `F_CHAR` of an unsupported character of its buffer. -/
theorem stringPlan_stop {x y len : Byte} {s : State} {r : Raise} (hstop : (stringPlan x y len s).stop = some r) :
    ∃ i, i < len.toNat ∧ glyphIndex (strbufByte s i) = none ∧ r = ⟨.char, (strbufByte s i).setWidth 16⟩ := by
  obtain ⟨i, -, hi, hg, hr⟩ := layout_stop hstop
  exact ⟨i, by simpa using hi, hg, hr⟩

/-- Settles O21: `DRAWCHAR` of an unsupported character raises before any pixel write; CHAR then has no pixel, and
STRING has those of the characters before it. -/
theorem unsupportedCharacterFaults : Obligations.UnsupportedCharacterFaults := by
  unfold Obligations.UnsupportedCharacterFaults
  refine ⟨?_, ?_, fun s n v hfits hg => layout_of_unsupported hfits hg n⟩
  · intro c x y s hr hg
    refine ⟨_, scratch .font (Config.freeWorking s.fresh) s.work, exec_char_of_ready c x y hr, scratch_mp .., ?_⟩
    rw [char_of_unsupported hg, faultMidway_nil]
    exact entersFault_faultEntry ..
  · intro x y len s r hr hstop hok
    refine ⟨_, exec_string_of_ready x y len hr, ?_, stringPlan_stop hstop⟩
    rw [string_of_stop hstop hok]
    exact entersFaultMidway_faultMidway ..

end Sys2Proof.Machine

/-! # The LED matrix (R141, R143): the serpentine order and the colour encoding -/

namespace Sys2Proof.Machine

/-! ## The table `SERP` (R141) -/

/-- Every entry of the table by the loop that defines it (R141): rows from 4 down, even rows reversed. -/
theorem serpTable_getD {p : Nat} (hp : p < 25) :
    serpTable.getD p 0 = 5 * (4 - p / 5) + if (4 - p / 5) % 2 = 0 then 4 - p % 5 else p % 5 := by
  revert p
  decide

/-- The position of a cell on the strip (R141). -/
theorem serpTable_getD_position {row col : Nat} (hrow : row < 5) (hcol : col < 5) :
    serpTable.getD (5 * (4 - row) + if row % 2 = 0 then 4 - col else col) 0 = row * 5 + col := by
  rw [serpTable_getD (by split <;> omega)]
  split <;> split <;> omega

/-- Settles O49: the entry at each position is the spec's formula, and the formula at the position of a cell is the
index of that cell. -/
theorem serpTableIsTheSerpentine : Obligations.SerpTableIsTheSerpentine := by
  unfold Obligations.SerpTableIsTheSerpentine
  exact ⟨rfl, fun _ => serpTable_getD, by decide, fun _ _ => serpTable_getD_position, rfl, rfl⟩

/-! ## The components of a colour and their bytes (R17, R143, R145) -/

@[simp] theorem redOf_append (r g b : Component) : redOf (r ++ g ++ b) = r := by
  rw [redOf, BitVec.extractLsb'_append_eq_of_le (by decide)]
  exact BitVec.extractLsb'_append_eq_left

@[simp] theorem greenOf_append (r g b : Component) : greenOf (r ++ g ++ b) = g := by
  rw [greenOf, BitVec.extractLsb'_append_eq_of_le (by decide)]
  exact BitVec.extractLsb'_append_eq_right

@[simp] theorem blueOf_append (r g b : Component) : blueOf (r ++ g ++ b) = b :=
  BitVec.extractLsb'_append_eq_right

/-- The byte of a component in range does not overflow: at 1.0 it is 255. -/
theorem componentByte_toNat_of_le {v : Component} (hv : v.toNat ≤ 0x8000) (free : Byte) :
    (componentByte free v).toNat = v.toNat * 255 / 32768 := by
  rw [componentByte, if_pos hv, BitVec.toNat_ofNat, Nat.mod_eq_of_lt (by omega)]

theorem componentByte_of_gt {v : Component} (hv : 0x8000 < v.toNat) (free : Byte) : componentByte free v = free :=
  if_neg hv.not_ge

theorem componentByte_zero (free : Byte) : componentByte free 0x0000#16 = 0x00#8 := rfl

theorem componentByte_one (free : Byte) : componentByte free 0x8000#16 = 0xFF#8 := rfl

/-! ## The fields of an LED word (R143) -/

@[simp] theorem encodeColour_green (free : Nat → Byte) (e : ColourEntry) :
    (encodeColour free e).extractLsb' 24 8 = componentByte (free 0) (greenOf e) := by
  rw [encodeColour, BitVec.extractLsb'_append_eq_of_le (by decide), BitVec.extractLsb'_append_eq_of_le (by decide)]
  exact BitVec.extractLsb'_append_eq_left

@[simp] theorem encodeColour_red (free : Nat → Byte) (e : ColourEntry) :
    (encodeColour free e).extractLsb' 16 8 = componentByte (free 1) (redOf e) := by
  rw [encodeColour, BitVec.extractLsb'_append_eq_of_le (by decide), BitVec.extractLsb'_append_eq_of_le (by decide)]
  exact BitVec.extractLsb'_append_eq_right

@[simp] theorem encodeColour_blue (free : Nat → Byte) (e : ColourEntry) :
    (encodeColour free e).extractLsb' 8 8 = componentByte (free 2) (blueOf e) := by
  rw [encodeColour, BitVec.extractLsb'_append_eq_of_le (by decide)]
  exact BitVec.extractLsb'_append_eq_right

theorem toNat_append_eq_add {m n : Nat} (x : BitVec m) (y : BitVec n) :
    (x ++ y).toNat = x.toNat * 2 ^ n + y.toNat := by
  rw [BitVec.toNat_append, ← Nat.shiftLeft_add_eq_or_of_lt y.isLt, Nat.shiftLeft_eq]

theorem encodeColour_toNat (free : Nat → Byte) (e : ColourEntry) :
    (encodeColour free e).toNat =
      (componentByte (free 0) (greenOf e)).toNat * 2 ^ 24 + (componentByte (free 1) (redOf e)).toNat * 2 ^ 16 +
        (componentByte (free 2) (blueOf e)).toNat * 2 ^ 8 := by
  simp only [encodeColour, toNat_append_eq_add, BitVec.toNat_zero]
  ring

/-- Settles O50: the word is the sum of its three bytes in their places, each byte a field of it; the bytes of 0.0 and
1.0 give the three words of the spec. -/
theorem colourEncoding : Obligations.ColourEncoding := by
  unfold Obligations.ColourEncoding
  refine ⟨fun free r g b hr hg hb => ?_, fun free r g b => ⟨fun hg => ?_, fun hr => ?_, fun hb => ?_⟩,
    fun free => ⟨?_, ?_, ?_⟩⟩
  · simp only [encodeColour_toNat, redOf_append, greenOf_append, blueOf_append, componentByte_toNat_of_le, hr, hg, hb]
  · rw [encodeColour_green, greenOf_append, componentByte_of_gt hg]
  · rw [encodeColour_red, redOf_append, componentByte_of_gt hr]
  · rw [encodeColour_blue, blueOf_append, componentByte_of_gt hb]
  all_goals
    simp only [encodeColour, redOf_append, greenOf_append, blueOf_append, componentByte_zero, componentByte_one]
    rfl

end Sys2Proof.Machine

/-! # Errors and sticky faults (R161, R162, R166) -/

namespace Sys2Proof.Machine

/-! ## DINIT and MINIT by the outcome of their checks (R70, R140) -/

theorem exec_dinit_of_ready (w h a b : Byte) {s : State} (hr : s.dispReady = true) :
    exec (.dinit w h a b) s = .next (faultEntry 1#4 ⟨.state, 0⟩ s) := by
  rw [exec_dinit, if_pos hr]

theorem exec_dinit_of_badHeight (w h a b : Byte) {s : State} (hr : s.dispReady = false) (hh : h.toNat % 8 ≠ 0) :
    exec (.dinit w h a b) s = .next (faultEntry 1#4 ⟨.config, h.setWidth 16⟩ s) := by
  rw [exec_dinit, if_neg (by simp [hr]), if_pos (mt (low3_eq_zero_iff h).1 hh)]

theorem exec_dinit_of_tooLarge (w h a b : Byte) {s : State} (hr : s.dispReady = false) (hh : h.toNat % 8 = 0)
    (hsize : s.build.fbCapacity < h.toNat / 8 * w.toNat + 1) :
    exec (.dinit w h a b) s = .next (complete errAllocation s) := by
  have hlow : ¬ h &&& 7#8 ≠ 0#8 := not_not.2 ((low3_eq_zero_iff h).2 hh)
  rw [exec_dinit, if_neg (by simp [hr]), if_neg hlow, bufferSize_eq, if_pos hsize]

theorem exec_minit_of_ready (ch pin : Byte) {s : State} (hr : s.mtxReady = true) :
    exec (.minit ch pin) s = .next (faultEntry 11#4 ⟨.state, 1⟩ s) := by
  rw [exec_minit, if_pos hr]

theorem exec_minit_of_unavailable (ch pin : Byte) {s : State} (hr : s.mtxReady = false)
    (hres : s.clkOk = false ∨ s.slotAvail = false) : exec (.minit ch pin) s = .next (complete errInit s) := by
  rw [exec_minit, if_neg (by simp [hr])]
  rcases hres with hclk | hslot
  · simp [hclk]
  · simp [hslot]

theorem exec_minit_of_available (ch pin : Byte) {s : State} (hr : s.mtxReady = false)
    (hres : ¬(s.clkOk = false ∨ s.slotAvail = false)) :
    exec (.minit ch pin) s = .next (complete errOk { s with mtxChan := ch, mtxPin := pin, mtxReady := true }) := by
  obtain ⟨hclk, hslot⟩ := not_or.1 hres
  rw [exec_minit, if_neg (by simp [hr]), if_neg (by simpa using hclk), if_neg (by simpa using hslot)]

/-! ## `STATUS.ERR` of a command that completed (R160) -/

@[simp] theorem busDone_err (d : BusEnd) (s : State) : (busDone d s).err = errOk := by
  cases d <;> rfl

/-- A bus command that does not wait has completed without error. -/
theorem emitBus_err_of_not_busy {d : BusEnd} {ts : List (List Byte)} {s : State} (h : (emitBus d ts s).busy = false) :
    (emitBus d ts s).err = errOk := by
  obtain ⟨r, sent, -, ⟨-, heq⟩ | ⟨_, _, _, -, -, -, heq⟩⟩ := emitBus_cases d ts s
  · rw [heq, busDone_err]
  · rw [heq] at h
    cases h

/-- An LED command that does not wait has completed without error. -/
theorem sendLed_err_of_not_busy {ws : List LedWord} {s : State} (h : (sendLed ws s).busy = false) :
    (sendLed ws s).err = errOk := by
  obtain ⟨-, heq⟩ | ⟨-, _, _, -, heq⟩ := sendLed_cases ws s
  · rw [heq, complete_err]
  · rw [heq] at h
    cases h

/-- A drawing command that does not fault has completed without error. -/
theorem DrawEnd.err_of_not_fault {opc : BitVec 4} {ps : List Pixel} {s t : State} (h : DrawEnd opc ps s t)
    (hf : t.fault = false) : t.err = errOk := by
  cases h with
  | early => cases hf
  | midway => cases hf
  | drawn => rfl

/-- A DINIT that completes has passed its two fault checks, and its error code is that of the size check. -/
theorem exec_dinit_completed {w h a b : Byte} {s t : State} (he : exec (.dinit w h a b) s = .next t)
    (hb : t.busy = false) (hf : t.fault = false) :
    s.dispReady = false ∧ h.toNat % 8 = 0 ∧
      t.err = if s.build.fbCapacity < h.toNat / 8 * w.toNat + 1 then errAllocation else errOk := by
  cases hr : s.dispReady with
  | true =>
    rw [exec_dinit_of_ready w h a b hr] at he
    cases he
    cases hf
  | false =>
    by_cases hh : h.toNat % 8 = 0
    · refine ⟨rfl, hh, ?_⟩
      split_ifs with hsize
      · rw [exec_dinit_of_tooLarge w h a b hr hh hsize] at he
        cases he
        rfl
      · rw [exec_dinit_of_fits w h a b hr hh (not_lt.1 hsize)] at he
        cases he
        exact emitBus_err_of_not_busy hb
    · rw [exec_dinit_of_badHeight w h a b hr hh] at he
      cases he
      cases hf

/-- A MINIT that does not fault has passed its state check, and its error code is that of the clock and slot checks. -/
theorem exec_minit_completed {ch pin : Byte} {s t : State} (he : exec (.minit ch pin) s = .next t)
    (hf : t.fault = false) :
    s.mtxReady = false ∧ t.err = if s.clkOk = false ∨ s.slotAvail = false then errInit else errOk := by
  cases hr : s.mtxReady with
  | true =>
    rw [exec_minit_of_ready ch pin hr] at he
    cases he
    cases hf
  | false =>
    refine ⟨rfl, ?_⟩
    split_ifs with hres
    · rw [exec_minit_of_unavailable ch pin hr hres] at he
      cases he
      rfl
    · rw [exec_minit_of_available ch pin hr hres] at he
      cases he
      rfl

/-- The error codes a command can complete with: `AllocationError` is of DINIT alone, `InitError` of MINIT alone. -/
theorem exec_err_of_completed (i : Instr) {s t : State} (he : exec i s = .next t) (hb : t.busy = false)
    (hf : t.fault = false) :
    t.err = errOk ∨ (opcode i = 1#4 ∧ t.err = errAllocation) ∨ (opcode i = 11#4 ∧ t.err = errInit) := by
  by_cases hd : isDrawing i = true
  · obtain ⟨t', heq, hend⟩ := exec_drawing i s hd
    rw [heq] at he
    cases he
    exact .inl (hend.err_of_not_fault hf)
  · cases i with
    | dinit w h a b =>
      obtain ⟨-, -, herr⟩ := exec_dinit_completed he hb hf
      split_ifs at herr
      · exact .inr (.inl ⟨rfl, herr⟩)
      · exact .inl herr
    | flush =>
      by_cases hr : s.dispReady = true
      · rw [exec_flush, if_pos hr] at he
        cases he
        exact .inl (emitBus_err_of_not_busy hb)
      · rw [exec_flush, if_neg hr] at he
        cases he
        cases hf
    | minit ch pin =>
      obtain ⟨-, herr⟩ := exec_minit_completed he hf
      split_ifs at herr
      · exact .inr (.inr ⟨rfl, herr⟩)
      · exact .inl herr
    | mdraw =>
      by_cases hr : s.mtxReady = true
      · rw [exec_mdraw, if_pos hr] at he
        cases he
        exact .inl (sendLed_err_of_not_busy hb)
      · rw [exec_mdraw, if_neg hr] at he
        cases he
        cases hf
    | _ => exact absurd rfl hd

/-- Settles O25: DINIT checks the size after its two fault checks and before any write, and no other command completes
with that code. -/
theorem allocationErrorExactlyWhenTooLarge : Obligations.AllocationErrorExactlyWhenTooLarge := by
  unfold Obligations.AllocationErrorExactlyWhenTooLarge
  refine ⟨fun w h a b s t hs he => ⟨?_, ?_⟩, exec_dinit_of_tooLarge, ?_⟩
  · rintro ⟨hb, hf, h1⟩
    obtain ⟨hr, hh, herr⟩ := exec_dinit_completed he hb hf
    refine ⟨hr, hh, by_contra fun hsize => ?_⟩
    rw [if_neg hsize, h1] at herr
    cases herr
  · rintro ⟨hr, hh, hsize⟩
    rw [exec_dinit_of_tooLarge w h a b hr hh hsize] at he
    cases he
    exact ⟨rfl, hs, rfl⟩
  · intro i s t _ hop he hb hf h1
    rcases exec_err_of_completed i he hb hf with herr | ⟨hdinit, -⟩ | ⟨-, herr⟩
    · cases h1.symm.trans herr
    · exact hop hdinit
    · cases h1.symm.trans herr

/-- Settles O53: MINIT checks clock and slot after its state check and before any write, and no other command completes
with that code. -/
theorem initErrorExactlyWhenClockOrSlotFails : Obligations.InitErrorExactlyWhenClockOrSlotFails := by
  unfold Obligations.InitErrorExactlyWhenClockOrSlotFails
  refine ⟨fun ch pin s t hs he => ⟨?_, ?_⟩, exec_minit_of_unavailable, ?_⟩
  · rintro ⟨hf, h2⟩
    obtain ⟨hr, herr⟩ := exec_minit_completed he hf
    refine ⟨hr, by_contra fun hres => ?_⟩
    rw [if_neg hres, h2] at herr
    cases herr
  · rintro ⟨hr, hres⟩
    rw [exec_minit_of_unavailable ch pin hr hres] at he
    cases he
    exact ⟨hs, rfl⟩
  · intro i s t _ hop he hb hf h2
    rcases exec_err_of_completed i he hb hf with herr | ⟨-, herr⟩ | ⟨hminit, -⟩
    · cases h2.symm.trans herr
    · cases h2.symm.trans herr
    · exact hop hminit

/-! ## `FAULT` and `FCAUSE` between fault entry and reset (R166) -/

/-- `t` has the `FAULT` and the `FCAUSE` of `s`. -/
def SameFault (s t : State) : Prop := t.fault = s.fault ∧ fcauseWord t = fcauseWord s

theorem sendBus_sameFault (d : BusEnd) (sent todo : List Byte) (rest : List (List Byte)) (s : State) :
    SameFault s (sendBus d sent todo rest s) := by
  obtain ⟨r, ts, -, ⟨-, h⟩ | ⟨_, _, _, -, -, -, h⟩⟩ := sendBus_cases d sent todo rest s
  · rw [h]
    cases d <;> exact ⟨rfl, rfl⟩
  · rw [h]
    exact ⟨rfl, rfl⟩

theorem sendLed_sameFault (ws : List LedWord) (s : State) : SameFault s (sendLed ws s) := by
  obtain ⟨-, h⟩ | ⟨-, _, _, -, h⟩ := sendLed_cases ws s
  all_goals
    rw [h]
    exact ⟨rfl, rfl⟩

theorem resume_sameFault (s : State) : SameFault s (resume s) := by
  unfold resume
  split
  · exact ⟨rfl, rfl⟩
  · exact sendBus_sameFault ..
  · exact sendLed_sameFault ..

theorem tearFrame_sameFault (s : State) : SameFault s (tearFrame s) := by
  unfold tearFrame
  split <;> exact ⟨rfl, rfl⟩

theorem writeCbuf_sameFault (k : Nat) (v : ColourEntry) (s : State) : SameFault s (writeCbuf k v s) := by
  unfold writeCbuf
  split
  · exact tearFrame_sameFault s
  · exact ⟨rfl, rfl⟩

theorem writeStrbuf_sameFault (i : Nat) (v : Byte) (s : State) : SameFault s (writeStrbuf i v s) := by
  unfold writeStrbuf
  split
  · exact tearFrame_sameFault s
  · exact ⟨rfl, rfl⟩

/-- A faulted block ignores a command word (R166). -/
theorem issue_of_fault (w : CmdWord) {s : State} (hf : s.fault = true) : issue w s = .next s :=
  if_pos (by simp [hf])

theorem hostWrite_cmdAddress_of_fault (v : BitVec 48) {s : State} (hf : s.fault = true) :
    hostWrite cmdAddress v s = .next s := by
  rw [hostWrite, if_pos rfl, issue_of_fault _ hf]

/-- `rst` clears `FCAUSE` (R185). -/
@[simp] theorem fcauseWord_resetInput (s : State) : fcauseWord (resetInput s) = 0 := by
  simp [fcauseWord]

theorem hostWrite_sameFault (a : Nat) (v : BitVec 48) {s : State} (hf : s.fault = true) :
    ∃ t, hostWrite a v s = .next t ∧ SameFault s t := by
  unfold hostWrite
  split_ifs
  · exact ⟨s, issue_of_fault _ hf, rfl, rfl⟩
  · exact ⟨_, rfl, writeCbuf_sameFault ..⟩
  · exact ⟨_, rfl, writeStrbuf_sameFault ..⟩
  · exact ⟨s, rfl, rfl, rfl⟩

/-- No input but `rst` changes `FAULT` or `FCAUSE` of a faulted block. -/
theorem react_sameFault {e : Input} {s : State} (hf : s.fault = true) (he : e ≠ .reset) :
    ∃ t, react e s = .next t ∧ SameFault s t := by
  cases e with
  | write a v => exact hostWrite_sameFault a v hf
  | reset => exact absurd rfl he
  | busRoom r => exact ⟨_, rfl, resume_sameFault { s with busRoom := r }⟩
  | ledRoom r => exact ⟨_, rfl, resume_sameFault { s with ledRoom := r }⟩
  | read | clk | slot | ledShift => exact ⟨_, rfl, rfl, rfl⟩

theorem step_of_no_input {s : State} (h : s.inputs = []) : step s = .next (resume s) := by
  rw [step, h]
  rfl

theorem step_of_input {s : State} {e : Input} {es : List Input} (h : s.inputs = e :: es) :
    step s = react e { s with inputs := es } := by
  rw [step, h]

/-- Settles O23: a faulted block ignores command words, sinks and buffer writes leave `FAULT` and `FCAUSE` alone, and
`rst` sets both to 0. -/
theorem onlyResetClearsAFault : Obligations.OnlyResetClearsAFault := by
  unfold Obligations.OnlyResetClearsAFault
  refine fun s hf => ⟨fun hin => ?_, fun e es hin => ⟨fun he => ?_, ?_, ?_⟩⟩
  · obtain ⟨hfault, hcause⟩ := resume_sameFault s
    exact ⟨_, step_of_no_input hin, hfault.trans hf, hcause⟩
  · obtain ⟨t, ht, hfault, hcause⟩ := react_sameFault (s := { s with inputs := es }) hf he
    exact ⟨t, (step_of_input hin).trans ht, hfault.trans hf, hcause⟩
  · rintro v rfl
    exact (step_of_input hin).trans (hostWrite_cmdAddress_of_fault v hf)
  · rintro rfl
    exact ⟨_, step_of_input hin, rfl, fcauseWord_resetInput _⟩

end Sys2Proof.Machine

/-! # The `rst` input (R185, R21) -/

namespace Sys2Proof.Machine

@[simp] theorem statusWord_resetInput (s : State) : statusWord (resetInput s) = 0 := by
  simp [statusWord]

@[simp] theorem resultWord_resetInput (s : State) : resultWord (resetInput s) = 0 := by
  simp [resultWord]

/-! ## The memories: no entry is written, so every entry is a free value of the next epoch (R17) -/

@[simp] theorem fbByte_resetInput (s : State) (a : Nat) :
    fbByte (resetInput s) a = Config.freeFb (s.epoch + 1) a := by
  simp [fbByte]

@[simp] theorem cbufEntry_resetInput (s : State) (k : Nat) :
    cbufEntry (resetInput s) k = Config.freeCbuf (s.epoch + 1) k := by
  simp [cbufEntry]

@[simp] theorem strbufByte_resetInput (s : State) (i : Nat) :
    strbufByte (resetInput s) i = Config.freeStrbuf (s.epoch + 1) i := by
  simp [strbufByte]

/-! ## The bus write in flight (log entry 12) -/

/-- Some byte of the transaction in flight is accepted. -/
theorem cutWrites_of_sent {s : State} {sent todo : List Byte} {rest : List (List Byte)} {d : BusEnd}
    (hp : s.pending = some (.bus sent todo rest d)) (hsent : sent ≠ []) :
    cutWrites s = [⟨s.busSel, s.busAddr, sent⟩] := by
  cases sent with
  | nil => exact absurd rfl hsent
  | cons b bs => rw [cutWrites, hp]

theorem cutWrites_of_none_sent {s : State}
    (h : ¬ ∃ sent todo rest d, s.pending = some (.bus sent todo rest d) ∧ sent ≠ []) : cutWrites s = [] := by
  unfold cutWrites
  split
  next b bs todo rest d hp => exact absurd ⟨b :: bs, todo, rest, d, hp, List.cons_ne_nil b bs⟩ h
  next => rfl

/-! ## The step -/

theorem step_of_reset {s : State} {es : List Input} (h : s.inputs = .reset :: es) :
    step s = .next (resetInput { s with inputs := es }) :=
  step_of_input h

/-- Settles O6: the step is `resetInput`, whose registers and sinks are read off by its field lemmas; the two cases of
`busCut` are those of `cutWrites`, which does not depend on the inputs. -/
theorem rstInputResetsTheBlock : Obligations.RstInputResetsTheBlock := by
  unfold Obligations.RstInputResetsTheBlock
  intro s es hin
  have hcut : (resetInput { s with inputs := es }).busCut = s.busCut ++ cutWrites s := rfl
  refine ⟨_, step_of_reset hin, rfl, rfl, rfl, rfl, rfl, rfl, rfl, rfl, rfl, statusWord_resetInput _,
    resultWord_resetInput _, fcauseWord_resetInput _, rfl, rfl, rfl, rfl, rfl, rfl, ?_, ?_, fbByte_resetInput _,
    cbufEntry_resetInput _, strbufByte_resetInput _⟩
  · intro sent todo rest d hp hsent
    rw [hcut, cutWrites_of_sent hp hsent]
  · intro hnone
    rw [hcut, cutWrites_of_none_sent hnone, List.append_nil]

end Sys2Proof.Machine

/-! # The encoding (R50 to R54): round trips, and the opcode map -/

namespace Sys2Proof

/-- Settles O1: each word is decoded by evaluation. -/
theorem specWordsDecode : Obligations.SpecWordsDecode := by
  unfold Obligations.SpecWordsDecode
  decide

/-- Settles O2: the decoder finds the fields the word was written from, and none of them is one it rejects; DINIT's
bus address is the one operand that needs `WellFormed`. -/
theorem decodeOfEncodeIsTheCommand : Obligations.DecodeOfEncodeIsTheCommand := by
  unfold Obligations.DecodeOfEncodeIsTheCommand
  intro i hwf
  cases i with
  | dinit w h a b =>
    have hmsb : a.msb = false := by simpa [WellFormed] using hwf
    simp [encode, decode, hmsb]
  | _ => simp [encode, decode]

/-! ## The word of a command that decodes -/

/-- A word with `Z = 0` is the word of its fields. -/
theorem cmdWord_fields {w : CmdWord} (hz : zField w = 0#2) :
    cmdWord (opField w) (fField w) (vField w) (aField w) (bField w) (cField w) (dField w) = w := by
  conv_rhs => rw [word_eq_fields w, hz]
  rfl

/-- The fields of a word that decodes: `Z` is 0, and the word written from the command has the same fields. -/
theorem decode_fields {w : CmdWord} {i : Instr} (h : decode w = .ok i) :
    zField w = 0#2 ∧ WellFormed i = true ∧
      encode i = cmdWord (opField w) (fField w) (vField w) (aField w) (bField w) (cField w) (dField w) := by
  simp only [decode, rejectIf_eq_ok, bne_eq_false_iff_eq] at h
  obtain ⟨hz, h⟩ := h
  refine ⟨hz, ?_⟩
  split at h
  all_goals
    rename_i hop
    simp only [rejectIf_eq_ok, Bool.or_eq_false_iff, bne_eq_false_iff_eq, Except.ok.injEq, reduceCtorEq] at h
  all_goals
    have hop' := BitVec.eq_of_toNat_eq (y := BitVec.ofNat 4 _) (hop.trans (Nat.mod_eq_of_lt (by decide)).symm)
    repeat obtain ⟨_, h⟩ := h
    simp_all [WellFormed, encode]

/-- Settles O3: a word is determined by its fields, and the decoder accepts it only if those it does not read are 0. -/
theorem encodeOfDecodeIsTheWord : Obligations.EncodeOfDecodeIsTheWord := by
  unfold Obligations.EncodeOfDecodeIsTheWord
  intro w i h
  obtain ⟨hz, hwf, henc⟩ := decode_fields h
  exact ⟨hwf, henc.trans (cmdWord_fields hz)⟩


/-! ## The opcode map (R53) -/

theorem append_eq_append_iff {m n : Nat} (x z : BitVec m) (y w : BitVec n) :
    x ++ y = z ++ w ↔ x = z ∧ y = w := by
  constructor
  · intro h
    have hl := congrArg (BitVec.extractLsb' n m) h
    have hr := congrArg (BitVec.extractLsb' 0 n) h
    rw [BitVec.extractLsb'_append_eq_left, BitVec.extractLsb'_append_eq_left] at hl
    rw [BitVec.extractLsb'_append_eq_right, BitVec.extractLsb'_append_eq_right] at hr
    exact ⟨hl, hr⟩
  · rintro ⟨rfl, rfl⟩
    rfl

/-- A row by the fields of its mask: it fixes `OP`, wants `Z = 0`, and wants 0 wherever its mask is set in the other
fields. -/
def rowOf (op : BitVec 4) (f v : Bool) (a b c d : Byte) : OpcodeRow :=
  { pattern := cmdWord op false false 0 0 0 0
    mask := BitVec.allOnes 4 ++ BitVec.allOnes 2 ++ BitVec.ofBool f ++ BitVec.ofBool v ++ a ++ b ++ c ++ d }

/-- The opcode map by the fields of its masks. -/
theorem opcodeRows_eq :
    opcodeRows =
      [rowOf 1 true true 0 0 0x80 0, rowOf 2 true false 0 0 0xFF 0xFF, rowOf 3 true false 0xFF 0xFF 0xFF 0xFF,
        rowOf 4 false false 0 0 0 0, rowOf 5 true false 0 0 0 0, rowOf 6 true false 0 0 0 0xFF,
        rowOf 7 true false 0 0 0 0xFF, rowOf 8 true true 0 0 0 0xFF, rowOf 9 true true 0 0 0 0xFF,
        rowOf 10 true true 0xFF 0xFF 0xFF 0xFF, rowOf 11 true true 0 0 0xFF 0xFF,
        rowOf 12 true true 0xFF 0xFF 0xFF 0xFF] := by
  decide

/-- Masking a word field by field. -/
theorem append_and_eq_iff {m n : Nat} (x j p : BitVec m) (y k q : BitVec n) :
    (x ++ y) &&& (j ++ k) = p ++ q ↔ x &&& j = p ∧ y &&& k = q := by
  rw [BitVec.and_append, append_eq_append_iff]

/-- A word fits a row field by field. -/
theorem rowOf_fits (op : BitVec 4) (f v : Bool) (a b c d : Byte) (w : CmdWord) :
    (rowOf op f v a b c d).fits w = true ↔
      opField w = op ∧ zField w = 0 ∧ (fField w && f) = false ∧ (vField w && v) = false ∧
        aField w &&& a = 0 ∧ bField w &&& b = 0 ∧ cField w &&& c = 0 ∧ dField w &&& d = 0 := by
  rw [OpcodeRow.fits, beq_iff_eq]
  conv_lhs => rw [word_eq_fields w]
  refine (append_and_eq_iff _ _ _ _ _ _).trans ?_
  simp only [append_and_eq_iff, BitVec.and_allOnes, BitVec.ofBool_and_ofBool, BitVec.ofBool_eq_iff_eq, and_assoc]
  rfl

/-- The decoder accepts the words that fit the row of their opcode: for each opcode both sides ask the same of the other
fields. -/
theorem decode_iff_fits (w : CmdWord) : (∃ i, decode w = .ok i) ↔ ∃ r ∈ opcodeRows, r.fits w = true := by
  have hmsb : ∀ b : Byte, b &&& 0x80#8 = 0#8 ↔ b.msb = false := by decide
  have hones : ∀ b : Byte, b &&& 0xFF#8 = b := fun b => BitVec.and_allOnes
  obtain ⟨n, hn, hop⟩ : ∃ n < 16, opField w = BitVec.ofNat 4 n :=
    ⟨(opField w).toNat, (opField w).isLt, by simp⟩
  simp only [opcodeRows_eq, List.mem_cons, List.not_mem_nil, or_false, exists_eq_or_imp, exists_eq_left, rowOf_fits,
    decode, hop]
  interval_cases n <;> simp [rejectIf_eq_ok, hmsb, hones, and_assoc]

/-- The rows fix `OP`, each another value. -/
theorem opField_of_fits {r : OpcodeRow} {w : CmdWord} (hr : r ∈ opcodeRows) (h : r.fits w = true) :
    opField w = opField r.pattern := by
  have hmask : ∀ r ∈ opcodeRows, opField r.mask = BitVec.allOnes 4 := by decide
  have hand : opField w &&& opField r.mask = opField r.pattern := by
    rw [← beq_iff_eq.1 h]
    exact BitVec.extractLsb'_and.symm
  rw [← hand, hmask r hr, BitVec.and_allOnes]

/-- Settles O4: for each opcode the decoder asks of the other fields what the mask of its row asks, and the rows differ
in the opcode they fix. -/
theorem decoderAcceptsExactlyTheOpcodeMap : Obligations.DecoderAcceptsExactlyTheOpcodeMap := by
  unfold Obligations.DecoderAcceptsExactlyTheOpcodeMap
  refine ⟨decode_iff_fits, fun w r₁ hr₁ r₂ hr₂ h₁ h₂ => ?_⟩
  have hinj : ∀ r₁ ∈ opcodeRows, ∀ r₂ ∈ opcodeRows, opField r₁.pattern = opField r₂.pattern → r₁ = r₂ := by decide
  exact hinj r₁ hr₁ r₂ hr₂ ((opField_of_fits hr₁ h₁).symm.trans (opField_of_fits hr₂ h₂))

end Sys2Proof

/-! # How a command ends (R160, R165), and what it leaves of each half (R2) -/

namespace Sys2Proof.Machine

/-! ## The three outcomes -/

/-- How a command ends (R160, R165, R170): with a fault that changes, beside what fault entry writes, at most `FB` and
working registers; complete; or waiting for a sink. -/
inductive CommandEnd (i : Instr) (s : State) : State → Prop where
  | faulted (r : Raise) (m : Memory) (wk : Working) (hr : r.cause ≠ .illegal) :
      CommandEnd i s (faultEntry (opcode i) r { s with fb := m, work := wk })
  | completed {t : State} (hbusy : t.busy = false) (hfault : t.fault = s.fault) (hpending : t.pending = none)
      (herr : t.err = errOk ∨ t.err = errAllocation ∨ t.err = errInit) : CommandEnd i s t
  | waiting {t : State} (hbusy : t.busy = true) (hfault : t.fault = s.fault) (hpending : t.pending.isSome = true) :
      CommandEnd i s t

/-- A fault before any effect. -/
theorem CommandEnd.early {i : Instr} {s : State} (r : Raise) (hr : r.cause ≠ .illegal) :
    CommandEnd i s (faultEntry (opcode i) r s) :=
  .faulted r s.fb s.work hr

theorem DrawEnd.commandEnd {i : Instr} {ps : List Pixel} {s t : State} (h : DrawEnd (opcode i) ps s t) :
    CommandEnd i s t := by
  cases h with
  | early r hr => exact .early r hr.1
  | midway u r _ hr =>
    obtain ⟨m, wk, heq, -⟩ := faultMidway_eq u (opcode i) r ps s
    rw [heq]
    exact .faulted r m wk (by rcases hr with hr | hr <;> simp [hr])
  | drawn => exact .completed rfl rfl rfl (.inl rfl)

theorem emitBus_commandEnd (i : Instr) (d : BusEnd) (ts : List (List Byte)) {s s' : State} (hf : s'.fault = s.fault) :
    CommandEnd i s (emitBus d ts s') := by
  obtain ⟨r, sent, -, ⟨-, h⟩ | ⟨_, _, _, -, -, -, h⟩⟩ := emitBus_cases d ts s'
  · rw [h]
    cases d <;> exact .completed rfl hf rfl (.inl rfl)
  · rw [h]
    exact .waiting rfl hf rfl

theorem sendLed_commandEnd (i : Instr) (ws : List LedWord) {s s' : State} (hf : s'.fault = s.fault) :
    CommandEnd i s (sendLed ws s') := by
  obtain ⟨-, h⟩ | ⟨-, _, _, -, h⟩ := sendLed_cases ws s'
  · rw [h]
    exact .completed rfl hf rfl (.inl rfl)
  · rw [h]
    exact .waiting rfl hf rfl

/-- Every command ends in one of the three ways, and none stops the machine. -/
theorem exec_commandEnd (i : Instr) (s : State) : ∃ t, exec i s = .next t ∧ CommandEnd i s t := by
  by_cases hd : isDrawing i = true
  · obtain ⟨t, he, hend⟩ := exec_drawing i s hd
    exact ⟨t, he, hend.commandEnd⟩
  cases i with
  | dinit w h a b =>
    refine ⟨_, exec_dinit w h a b s, ?_⟩
    split_ifs
    · exact .early _ (by simp)
    · exact .early _ (by simp)
    · exact .completed rfl rfl rfl (.inr (.inl rfl))
    · exact emitBus_commandEnd _ _ _ rfl
  | flush =>
    refine ⟨_, exec_flush s, ?_⟩
    split_ifs
    · exact emitBus_commandEnd _ _ _ rfl
    · exact .early _ (by simp)
  | minit ch pin =>
    refine ⟨_, exec_minit ch pin s, ?_⟩
    split_ifs
    · exact .early _ (by simp)
    · exact .completed rfl rfl rfl (.inr (.inr rfl))
    · exact .completed rfl rfl rfl (.inr (.inr rfl))
    · exact .completed rfl rfl rfl (.inl rfl)
  | mdraw =>
    refine ⟨_, exec_mdraw s, ?_⟩
    split_ifs
    · exact sendLed_commandEnd _ _ rfl
    · exact .early _ (by simp)
  | _ => exact absurd rfl hd

theorem exec_eq_next (i : Instr) (s : State) : ∃ t, exec i s = .next t := by
  obtain ⟨t, he, -⟩ := exec_commandEnd i s
  exact ⟨t, he⟩

/-- How the command that led to `t` ended. -/
theorem commandEnd_of_exec {i : Instr} {s t : State} (he : exec i s = .next t) : CommandEnd i s t := by
  obtain ⟨t', he', hend⟩ := exec_commandEnd i s
  rw [he'] at he
  cases he
  exact hend

/-- The code of a cause (R164), 1 for an illegal word alone. -/
theorem FaultCause.code_bounds (c : FaultCause) :
    1 ≤ c.code.toNat ∧ c.code.toNat ≤ 6 ∧ (c ≠ .illegal → 2 ≤ c.code.toNat) := by
  cases c <;> decide

/-- Settles O10: the three outcomes of a command are the three cases. -/
theorem everyCommandHasExactlyOneOutcome : Obligations.EveryCommandHasExactlyOneOutcome := by
  unfold Obligations.EveryCommandHasExactlyOneOutcome
  intro i s hs
  obtain ⟨t, he, hend⟩ := exec_commandEnd i s
  refine ⟨t, he, ?_⟩
  cases hend with
  | faulted r m wk hr =>
    obtain ⟨-, hle, hge⟩ := r.cause.code_bounds
    exact .inr (.inr ⟨rfl, rfl, rfl, rfl, hge hr, hle⟩)
  | completed hb hf hp he => exact .inr (.inl ⟨hb, hf.trans hs, hp, he⟩)
  | waiting hb hf hp => exact .inl ⟨hb, hf.trans hs, hp⟩

/-- Settles O22: a command that faults changes only what fault entry writes, `FB` and working registers. -/
theorem faultKeepsConfigurationAndTraces : Obligations.FaultKeepsConfigurationAndTraces := by
  unfold Obligations.FaultKeepsConfigurationAndTraces
  intro i s t hs he hfault
  cases commandEnd_of_exec he with
  | faulted r m wk _ => exact ⟨rfl, rfl, rfl, rfl, rfl, rfl, rfl, rfl, rfl, rfl, rfl, rfl, rfl, rfl, rfl, rfl, rfl, rfl⟩
  | completed _ hf => rw [hf, hs] at hfault; cases hfault
  | waiting _ hf => rw [hf, hs] at hfault; cases hfault

/-- Settles O11: none of the ends of a drawing command touches a trace or a sink. -/
theorem drawingCommandsNeverWaitOrEmit : Obligations.DrawingCommandsNeverWaitOrEmit := by
  unfold Obligations.DrawingCommandsNeverWaitOrEmit
  intro i s t hd he
  obtain ⟨t', he', hend⟩ := exec_drawing i s hd
  rw [he'] at he
  cases he
  cases hend with
  | early => exact ⟨rfl, rfl, rfl, rfl, rfl, rfl⟩
  | midway u r =>
    obtain ⟨m, wk, heq, -⟩ := faultMidway_eq u (opcode i) r (commandPixels i s) s
    rw [heq]
    exact ⟨rfl, rfl, rfl, rfl, rfl, rfl⟩
  | drawn => exact ⟨rfl, rfl, rfl, rfl, rfl, rfl⟩

/-! ## What a command leaves of the other half (R2) -/

/-- What every command of the display half leaves as it is. -/
structure DisplayFrame (s t : State) : Prop where
  build : t.build = s.build
  mtxChan : t.mtxChan = s.mtxChan
  mtxPin : t.mtxPin = s.mtxPin
  mtxReady : t.mtxReady = s.mtxReady
  cbuf : t.cbuf = s.cbuf
  led : t.led = s.led
  ledQueue : t.ledQueue = s.ledQueue
  ledRoom : t.ledRoom = s.ledRoom
  mp : t.work.mp = s.work.mp

/-- What every command of the matrix half leaves as it is; `RESULT` too, if it does not fault. -/
structure MatrixFrame (s t : State) : Prop where
  build : t.build = s.build
  width : t.width = s.width
  height : t.height = s.height
  pages : t.pages = s.pages
  bufsize : t.bufsize = s.bufsize
  busAddr : t.busAddr = s.busAddr
  busSel : t.busSel = s.busSel
  dispReady : t.dispReady = s.dispReady
  fb : t.fb = s.fb
  strbuf : t.strbuf = s.strbuf
  bus : t.bus = s.bus
  busRoom : t.busRoom = s.busRoom
  line : t.work.line = s.work.line
  font : t.work.font = s.work.font
  text : t.work.text = s.work.text
  loop : t.work.loop = s.work.loop
  result : t.fault = false → t.rv0 = s.rv0 ∧ t.rv1 = s.rv1

theorem faultEntry_displayFrame (opc : BitVec 4) (r : Raise) (s : State) : DisplayFrame s (faultEntry opc r s) :=
  ⟨rfl, rfl, rfl, rfl, rfl, rfl, rfl, rfl, rfl⟩

theorem emitBus_displayFrame (d : BusEnd) (ts : List (List Byte)) (s : State) : DisplayFrame s (emitBus d ts s) := by
  obtain ⟨r, sent, -, ⟨-, h⟩ | ⟨_, _, _, -, -, -, h⟩⟩ := emitBus_cases d ts s
  · rw [h]
    cases d <;> exact ⟨rfl, rfl, rfl, rfl, rfl, rfl, rfl, rfl, rfl⟩
  · rw [h]
    exact ⟨rfl, rfl, rfl, rfl, rfl, rfl, rfl, rfl, rfl⟩

theorem DrawEnd.displayFrame {opc : BitVec 4} {ps : List Pixel} {s t : State} (h : DrawEnd opc ps s t) :
    DisplayFrame s t := by
  cases h with
  | early r => exact faultEntry_displayFrame opc r s
  | midway u r =>
    rw [faultMidway, someWrites_eq]
    exact ⟨rfl, rfl, rfl, rfl, rfl, rfl, rfl, rfl, scratch_mp ..⟩
  | drawn wk _ _ _ hmp => exact ⟨rfl, rfl, rfl, rfl, rfl, rfl, rfl, rfl, hmp⟩

theorem exec_displayFrame {i : Instr} {s t : State} (hi : isDisplayCommand i = true) (he : exec i s = .next t) :
    DisplayFrame s t := by
  by_cases hd : isDrawing i = true
  · obtain ⟨t', he', hend⟩ := exec_drawing i s hd
    rw [he'] at he
    cases he
    exact hend.displayFrame
  cases i with
  | dinit w h a b =>
    rw [exec_dinit] at he
    cases he
    split_ifs
    · exact faultEntry_displayFrame ..
    · exact faultEntry_displayFrame ..
    · exact ⟨rfl, rfl, rfl, rfl, rfl, rfl, rfl, rfl, rfl⟩
    · exact { emitBus_displayFrame _ _ (initialised w h a b s) with }
  | flush =>
    rw [exec_flush] at he
    cases he
    split_ifs
    · exact emitBus_displayFrame ..
    · exact faultEntry_displayFrame ..
  | minit | mdraw => cases hi
  | _ => exact absurd rfl hd

theorem sendLed_matrixFrame (ws : List LedWord) (s : State) : MatrixFrame s (sendLed ws s) := by
  obtain ⟨-, h⟩ | ⟨-, _, _, -, h⟩ := sendLed_cases ws s
  all_goals
    rw [h]
    exact ⟨rfl, rfl, rfl, rfl, rfl, rfl, rfl, rfl, rfl, rfl, rfl, rfl, rfl, rfl, rfl, rfl, fun _ => ⟨rfl, rfl⟩⟩

theorem faultEntry_matrixFrame (opc : BitVec 4) (r : Raise) (s : State) : MatrixFrame s (faultEntry opc r s) :=
  ⟨rfl, rfl, rfl, rfl, rfl, rfl, rfl, rfl, rfl, rfl, rfl, rfl, rfl, rfl, rfl, rfl, nofun⟩

theorem exec_matrixFrame {i : Instr} {s t : State} (hi : isDisplayCommand i = false) (he : exec i s = .next t) :
    MatrixFrame s t := by
  cases i with
  | minit ch pin =>
    rw [exec_minit] at he
    cases he
    split_ifs
    · exact faultEntry_matrixFrame ..
    all_goals
      exact ⟨rfl, rfl, rfl, rfl, rfl, rfl, rfl, rfl, rfl, rfl, rfl, rfl, rfl, rfl, rfl, rfl, fun _ => ⟨rfl, rfl⟩⟩
  | mdraw =>
    rw [exec_mdraw] at he
    cases he
    split_ifs
    · exact { sendLed_matrixFrame _ { s with fresh := s.fresh + 1 } with }
    · exact faultEntry_matrixFrame ..
  | _ => cases hi

/-- Settles O55: each half's commands keep the frame of the other half. -/
theorem halvesChangeOnlyTheirOwnState : Obligations.HalvesChangeOnlyTheirOwnState := by
  unfold Obligations.HalvesChangeOnlyTheirOwnState
  intro i s t he
  constructor
  · intro hi
    have f := exec_displayFrame hi he
    exact ⟨f.mtxChan, f.mtxPin, f.mtxReady, f.cbuf, f.led, f.ledQueue, f.ledRoom, f.mp⟩
  · intro hi
    have f := exec_matrixFrame hi he
    exact ⟨f.width, f.height, f.pages, f.bufsize, f.busAddr, f.busSel, f.dispReady, f.fb, f.strbuf, f.bus, f.busRoom,
      f.line, f.font, f.text, f.loop, f.result⟩

/-- No command changes the build (R6). -/
theorem exec_build {i : Instr} {s t : State} (he : exec i s = .next t) : t.build = s.build := by
  cases hi : isDisplayCommand i with
  | true => exact (exec_displayFrame hi he).build
  | false => exact (exec_matrixFrame hi he).build

end Sys2Proof.Machine

/-! # The invariant of the block -/

namespace Sys2Proof.Machine

/-! ## Reset -/

theorem blockInv_resetOf (P : Params) : BlockInv (State.resetOf P) :=
  ⟨⟨rfl, rfl⟩, ⟨rfl, rfl⟩, ⟨rfl, rfl⟩, nofun, rfl, nofun, fun _ => ⟨rfl, rfl, rfl, by simp⟩, nofun, nofun, nofun,
    List.suffix_refl _⟩

/-- Settles O59: every memory and trace is empty, and no flag is set. -/
theorem invariantHoldsAtReset : Obligations.InvariantHoldsAtReset :=
  ⟨blockInv_resetOf Config.params, blockInv_resetOf⟩

/-! ## A command under way: the invariant without `BUSY` and the waiting output -/

/-- What a command may rely on, and every end of it needs: the invariant of a block that is not faulted, `BUSY` and the
waiting output aside. -/
structure Accepted (s : State) : Prop where
  fb_wf : s.fb.wf = true ∧ cellsBelow s.build.fbCapacity s.fb = true
  cbuf_wf : s.cbuf.wf = true ∧ cellsBelow 25 s.cbuf = true
  strbuf_wf : s.strbuf.wf = true ∧ cellsBelow Config.strMax s.strbuf = true
  ready_geometry : s.dispReady = true → Geometry s
  not_fault : s.fault = false
  clean : s.cause = 0#4 ∧ s.op = 0#4 ∧ s.info = 0#16 ∧ s.err ≠ 3#2
  bus_framed : ∀ t ∈ s.bus, Framed t.bytes
  led_low : ∀ w ∈ s.led, w.extractLsb' 0 8 = 0#8
  queue_suffix : s.ledQueue <:+ s.led

theorem BlockInv.accepted {s : State} (h : BlockInv s) (hf : s.fault = false) : Accepted s :=
  { h with not_fault := hf, clean := h.clean hf }

/-- A waiting command is that of a block that is not faulted. -/
theorem BlockInv.not_fault_of_pending {s : State} {p : Pending} (h : BlockInv s) (hp : s.pending = some p) :
    s.fault = false := by
  have hbusy : s.busy = true := by rw [h.busy_iff, hp]; rfl
  cases hf : s.fault with
  | false => rfl
  | true =>
    rw [(h.faulted hf).1] at hbusy
    cases hbusy

/-- The geometry is read from the display registers, the build and the header byte. -/
theorem Geometry.congr {s t : State} (h : Geometry s) (hw : t.width = s.width) (hh : t.height = s.height)
    (hp : t.pages = s.pages) (hb : t.bufsize = s.bufsize) (hP : t.build = s.build)
    (hfb : cellRead t.fb 0 = cellRead s.fb 0) : Geometry t where
  height_multiple := by rw [hh]; exact h.height_multiple
  pages_eq := by rw [hp, hh]; exact h.pages_eq
  bufsize_eq := by rw [hb, hp, hw]; exact h.bufsize_eq
  fits := by rw [hb, hP]; exact h.fits
  header := hfb.trans h.header

/-! ## The ends of a command -/

/-- Completion keeps the invariant. -/
theorem Accepted.complete {s : State} (h : Accepted s) {code : BitVec 2} (hc : code ≠ 3#2) :
    BlockInv (complete code s) :=
  { h with
    ready_geometry := fun hr => { h.ready_geometry hr with }
    busy_iff := rfl
    pending_ok := nofun
    clean := fun _ => ⟨h.clean.1, h.clean.2.1, h.clean.2.2.1, hc⟩
    faulted := fun hf => absurd hf (by simp [h.not_fault]) }

/-- Fault entry keeps the invariant. -/
theorem Accepted.faultEntry {s : State} (h : Accepted s) (opc : BitVec 4) (r : Raise) :
    BlockInv (faultEntry opc r s) :=
  { h with
    ready_geometry := fun hr => { h.ready_geometry hr with }
    busy_iff := rfl
    pending_ok := nofun
    clean := nofun
    faulted := fun _ => ⟨rfl, r.cause.code_bounds.1, r.cause.code_bounds.2.1⟩ }

/-- A command that begins to wait keeps the invariant. -/
theorem Accepted.waiting {s : State} (h : Accepted s) {p : Pending}
    (hp : PendingOk { s with busy := true, pending := some p } p) :
    BlockInv { s with busy := true, pending := some p } :=
  { h with
    ready_geometry := fun hr => { h.ready_geometry hr with }
    busy_iff := rfl
    pending_ok := by rintro _ ⟨⟩; exact hp
    clean := fun _ => h.clean
    faulted := fun hf => absurd hf (by simp [h.not_fault]) }

/-! ## Drawing -/

/-- `FB` after the pixel writes of a command in a ready display, all or some of them. -/
theorem Accepted.drawing {s : State} (h : Accepted s) (hr : s.dispReady = true) (m : Memory) (wk : Working)
    (a b : Byte) (hm : m.wf = true ∧ cellsBelow s.build.fbCapacity m = true) (h0 : cellRead m 0 = cellRead s.fb 0) :
    Accepted { s with fb := m, work := wk, rv0 := a, rv1 := b } :=
  { h with
    fb_wf := hm
    ready_geometry := fun _ => (h.ready_geometry hr).congr rfl rfl rfl rfl rfl h0 }

theorem Accepted.drawEnd {opc : BitVec 4} {ps : List Pixel} {s t : State} (h : Accepted s)
    (hend : DrawEnd opc ps s t) : BlockInv t := by
  cases hend with
  | early r => exact h.faultEntry opc r
  | midway u r hr =>
    obtain ⟨m, wk, heq, rfl⟩ := faultMidway_eq u opc r ps s
    rw [heq]
    exact (h.drawing hr _ wk s.rv0 s.rv1 (wf_someWrites _ _ _ ps s (h.ready_geometry hr).fits h.fb_wf)
      (header_someWrites ..)).faultEntry opc r
  | drawn wk a b hr _ hok =>
    exact (h.drawing hr _ wk a b (wf_paintAll _ ps s hok (h.ready_geometry hr).fits h.fb_wf)
      (header_paintAll ps s hok)).complete (by decide)

/-! ## The bus -/

theorem framed_commandWrite (b : Byte) : Framed (commandWrite b) := .inl ⟨b, rfl⟩

/-- More framed writes in the trace. -/
theorem Accepted.emitted {s : State} (h : Accepted s) (r : Room) {ts : List (List Byte)} (hts : ∀ t ∈ ts, Framed t) :
    Accepted { s with busRoom := r, bus := s.bus ++ asWrites s ts } :=
  { h with
    ready_geometry := fun hr => { h.ready_geometry hr with }
    bus_framed := by
      intro t ht
      simp only [asWrites, List.mem_append, List.mem_map] at ht
      rcases ht with ht | ⟨t, ht, rfl⟩
      · exact h.bus_framed _ ht
      · exact hts t ht }

/-- The end of DINIT makes the display ready, whose geometry is set; that of FLUSH finds it so. -/
theorem Accepted.busDone {s : State} (h : Accepted s) (hg : Geometry s) (d : BusEnd) : BlockInv (busDone d s) := by
  cases d with
  | dinit =>
    have h' : Accepted { s with dispReady := true } := { h with ready_geometry := fun _ => { hg with } }
    exact h'.complete (by decide)
  | flush => exact h.complete (by decide)

/-- Framed output keeps the invariant, whether it completes or waits. -/
theorem Accepted.sendBus {s : State} (h : Accepted s) (hg : Geometry s) {d : BusEnd}
    (hready : s.dispReady = (d == .flush)) {sent todo : List Byte} {rest : List (List Byte)}
    (hfr : ∀ t ∈ (sent ++ todo) :: rest, Framed t) : BlockInv (sendBus d sent todo rest s) := by
  obtain ⟨r, ts, hpre, ⟨-, heq⟩ | ⟨sent', todo', rest', hsplit, -, -, heq⟩⟩ := sendBus_cases d sent todo rest s
  all_goals
    have h' := h.emitted r fun t ht => hfr t (hpre.subset ht)
    rw [heq]
  · exact h'.busDone { hg with } d
  · rw [hsplit] at hfr
    exact h'.waiting
      ⟨{ hg with }, hfr _ (by simp), fun t ht => hfr t (by simp [ht]), hready⟩

theorem Accepted.emitBus {s : State} (h : Accepted s) (hg : Geometry s) {d : BusEnd}
    (hready : s.dispReady = (d == .flush)) {ts : List (List Byte)} (hfr : ∀ t ∈ ts, Framed t) :
    BlockInv (emitBus d ts s) := by
  cases ts with
  | nil => exact h.busDone hg d
  | cons t ts => exact h.sendBus hg hready hfr

/-! ## The LED queue -/

theorem Accepted.sendLed {s : State} (h : Accepted s) (hm : s.mtxReady = true) {ws : List LedWord}
    (hws : ∀ w ∈ ws, w.extractLsb' 0 8 = 0#8) : BlockInv (sendLed ws s) := by
  have queued : ∀ (r : Room) (m : BitVec 5) (vs : List LedWord), vs ⊆ ws →
      Accepted { s with ledRoom := r, led := s.led ++ vs, ledQueue := s.ledQueue ++ vs, work := { s.work with mp := m } } := by
    intro r m vs hvs
    refine { h with ready_geometry := fun hr => { h.ready_geometry hr with }, led_low := ?_, queue_suffix := ?_ }
    · intro w hw
      rcases List.mem_append.1 hw with hw | hw
      · exact h.led_low w hw
      · exact hws w (hvs hw)
    · obtain ⟨l, hl⟩ := h.queue_suffix
      exact ⟨l, by rw [← List.append_assoc, hl]⟩
  obtain ⟨-, heq⟩ | ⟨-, n, m, -, heq⟩ := sendLed_cases ws s
  · rw [heq]
    exact (queued _ _ ws (List.Subset.refl ws)).complete (by decide)
  · rw [heq]
    exact (queued _ _ (ws.take n) (List.take_subset n ws)).waiting
      ⟨hm, fun w hw => hws w (List.drop_subset n ws hw)⟩

/-! ## Every command -/

/-- DINIT that fits leaves its geometry (R70). -/
theorem geometry_initialised (w h a b : Byte) {s : State} (hh : h.toNat % 8 = 0)
    (hfit : bufferSize w h ≤ s.build.fbCapacity) : Geometry (initialised w h a b s) := by
  have hh' := h.isLt
  have hsize : bufferSize w h < 8192 := by
    have hmul : h.toNat / 8 * w.toNat ≤ 31 * 255 := Nat.mul_le_mul (by omega) (by have := w.isLt; omega)
    rw [bufferSize_eq]
    omega
  have hpages : (initialised w h a b s).pages.toNat = h.toNat / 8 := by
    simp only [initialised, writeFb_pages, BitVec.toNat_setWidth, BitVec.toNat_ushiftRight, Nat.shiftRight_eq_div_pow]
    omega
  have hbuf : (initialised w h a b s).bufsize.toNat = bufferSize w h := Nat.mod_eq_of_lt hsize
  exact
    { height_multiple := hh
      pages_eq := hpages
      bufsize_eq := by rw [hbuf, hpages, bufferSize_eq]; rfl
      fits := hbuf.trans_le hfit
      header := cellRead_cellWrite_same .. }

theorem Accepted.initialised {s : State} (h : Accepted s) (w ht a b : Byte) (hr : s.dispReady = false)
    (hfit : bufferSize w ht ≤ s.build.fbCapacity) : Accepted (initialised w ht a b s) :=
  { h with
    fb_wf :=
      ⟨Memory.wf_cellWrite _ _ _ h.fb_wf.1,
        cellsBelow_cellWrite _ _ _ _ h.fb_wf.2 (lt_of_lt_of_le (Nat.succ_pos _) hfit)⟩
    ready_geometry := fun hr' => absurd (hr.symm.trans hr') (by simp) }

theorem framed_bulkBytes {s : State} (hg : Geometry s) : Framed (bulkBytes s) := by
  have hne : s.bufsize ≠ 0 := by
    intro h0
    have := hg.bufsize_eq
    rw [h0] at this
    exact absurd this (by simp)
  exact .inr (by rw [bulkBytes_head? s hne, fbByte, hg.header]; rfl)

theorem frameWords_low (s : State) : ∀ w ∈ frameWords s, w.extractLsb' 0 8 = 0#8 := by
  intro w hw
  obtain ⟨p, -, rfl⟩ := List.mem_map.1 hw
  exact encodeColour_low _ _

/-- Every command keeps the invariant. -/
theorem Accepted.exec {s t : State} (h : Accepted s) {i : Instr} (he : exec i s = .next t) : BlockInv t := by
  by_cases hd : isDrawing i = true
  · obtain ⟨t', he', hend⟩ := exec_drawing i s hd
    rw [he'] at he
    cases he
    exact h.drawEnd hend
  cases i with
  | dinit w ht a b =>
    rw [exec_dinit] at he
    cases he
    split_ifs with hr hh hsize
    · exact h.faultEntry ..
    · exact h.faultEntry ..
    · exact h.complete (by decide)
    · have hr : s.dispReady = false := by simpa using hr
      have hh : ht.toNat % 8 = 0 := (low3_eq_zero_iff ht).1 (not_not.1 hh)
      have hfit : bufferSize w ht ≤ s.build.fbCapacity := not_lt.1 hsize
      exact (h.initialised w ht a b hr hfit).emitBus (d := .dinit) (geometry_initialised w ht a b hh hfit) hr
        (by simp [framed_commandWrite])
  | flush =>
    rw [exec_flush] at he
    cases he
    split_ifs with hr
    · have hg := h.ready_geometry hr
      refine h.emitBus (d := .flush) hg hr ?_
      intro t ht
      rcases List.mem_append.1 ht with ht | ht
      · obtain ⟨c, -, rfl⟩ := List.mem_map.1 ht
        exact framed_commandWrite c
      · rw [List.mem_singleton.1 ht]
        exact framed_bulkBytes hg
    · exact h.faultEntry ..
  | minit ch pin =>
    rw [exec_minit] at he
    cases he
    split_ifs
    · exact h.faultEntry ..
    · exact h.complete (by decide)
    · exact h.complete (by decide)
    · have h' : Accepted { s with mtxChan := ch, mtxPin := pin, mtxReady := true } :=
        { h with ready_geometry := fun hr => { h.ready_geometry hr with } }
      exact h'.complete (by decide)
  | mdraw =>
    rw [exec_mdraw] at he
    cases he
    split_ifs with hm
    · have h' : Accepted { s with fresh := s.fresh + 1 } :=
        { h with ready_geometry := fun hr => { h.ready_geometry hr with } }
      exact h'.sendLed hm (frameWords_low s)
    · exact h.faultEntry ..
  | _ => exact absurd rfl hd

/-! ## Every input -/

/-- A command word keeps the invariant, whether it is ignored, illegal or run. -/
theorem BlockInv.issue {s t : State} (h : BlockInv s) {w : CmdWord} (hi : issue w s = .next t) : BlockInv t := by
  unfold Machine.issue at hi
  split_ifs at hi with hbf
  · cases hi
    exact h
  · have hf : s.fault = false := by
      simp only [Bool.or_eq_true, not_or, Bool.not_eq_true] at hbf
      exact hbf.2
    have h' : Accepted { s with busy := true, cmd := w } :=
      { h.accepted hf with ready_geometry := fun hr => { h.ready_geometry hr with } }
    simp only at hi
    split at hi
    · exact h'.exec hi
    · cases hi
      exact h'.faultEntry ..

/-- A waiting command that goes on keeps the invariant. -/
theorem BlockInv.resume {s : State} (h : BlockInv s) : BlockInv (resume s) := by
  unfold Machine.resume
  split
  next => exact h
  next sent todo rest d hp =>
    obtain ⟨hg, hfr, hrest, hr⟩ := h.pending_ok _ hp
    exact (h.accepted (h.not_fault_of_pending hp)).sendBus hg hr (by simpa using ⟨hfr, hrest⟩)
  next ws hp =>
    obtain ⟨hm, hws⟩ := h.pending_ok _ hp
    exact (h.accepted (h.not_fault_of_pending hp)).sendLed hm hws

/-- The waiting output is judged by the geometry and the two ready bits. -/
theorem PendingOk.congr {s t : State} {p : Pending} (h : PendingOk s p) (hg : Geometry s → Geometry t)
    (hd : t.dispReady = s.dispReady) (hm : t.mtxReady = s.mtxReady) : PendingOk t p := by
  cases p with
  | bus sent todo rest d =>
    obtain ⟨hgeo, hfr, hrest, hr⟩ := h
    exact ⟨hg hgeo, hfr, hrest, hd.trans hr⟩
  | led ws =>
    obtain ⟨hr, hws⟩ := h
    exact ⟨hm.trans hr, hws⟩

/-- The inputs to come, the host's read data and the environment are not the block's. -/
theorem BlockInv.environment {s : State} (h : BlockInv s) (es : List Input) (d : BitVec 48) (rb rl : Room)
    (ck sl : Bool) :
    BlockInv { s with inputs := es, hostData := d, busRoom := rb, ledRoom := rl, clkOk := ck, slotAvail := sl } :=
  { h with
    ready_geometry := fun hr => { h.ready_geometry hr with }
    pending_ok := fun p hp => (h.pending_ok p hp).congr (fun hg => { hg with }) rfl rfl }

/-- Words that leave the queue. -/
theorem BlockInv.ledShift {s : State} (h : BlockInv s) (n : Nat) :
    BlockInv { s with ledQueue := s.ledQueue.drop n } :=
  { h with
    ready_geometry := fun hr => { h.ready_geometry hr with }
    pending_ok := fun p hp => (h.pending_ok p hp).congr (fun hg => { hg with }) rfl rfl
    queue_suffix := (List.drop_suffix n s.ledQueue).trans h.queue_suffix }

/-- A torn frame still has bits 7:0 zero in every word. -/
theorem BlockInv.tearFrame {s : State} (h : BlockInv s) : BlockInv (tearFrame s) := by
  unfold Machine.tearFrame
  split
  next w ws hp =>
    obtain ⟨hm, hws⟩ := h.pending_ok _ hp
    refine
      { h with
        ready_geometry := fun hr => { h.ready_geometry hr with }
        busy_iff := by rw [h.busy_iff, hp]; rfl
        pending_ok := ?_ }
    rintro _ ⟨⟩
    refine ⟨hm, fun v hv => ?_⟩
    rcases List.mem_cons.1 hv with rfl | hv
    · exact hws v (List.mem_cons_self ..)
    · obtain ⟨k, -, rfl⟩ := List.mem_map.1 hv
      exact BitVec.extractLsb'_append_eq_right
  next => exact h

theorem BlockInv.writeCbuf {s : State} (h : BlockInv s) {k : Nat} (hk : k < 25) (v : ColourEntry) :
    BlockInv (writeCbuf k v s) := by
  have write : ∀ {s : State}, BlockInv s → BlockInv { s with cbuf := cellWrite s.cbuf k v } := fun h =>
    { h with
      cbuf_wf := ⟨ColourMemory.wf_cellWrite _ _ _ h.cbuf_wf.1, cellsBelow_cellWrite _ _ _ _ h.cbuf_wf.2 hk⟩
      ready_geometry := fun hr => { h.ready_geometry hr with }
      pending_ok := fun p hp => (h.pending_ok p hp).congr (fun hg => { hg with }) rfl rfl }
  unfold Machine.writeCbuf
  split_ifs
  · exact write h.tearFrame
  · exact write h

theorem BlockInv.writeStrbuf {s : State} (h : BlockInv s) {i : Nat} (hi : i < Config.strMax) (v : Byte) :
    BlockInv (writeStrbuf i v s) := by
  have write : ∀ {s : State}, BlockInv s → BlockInv { s with strbuf := cellWrite s.strbuf i v } := fun h =>
    { h with
      strbuf_wf := ⟨Memory.wf_cellWrite _ _ _ h.strbuf_wf.1, cellsBelow_cellWrite _ _ _ _ h.strbuf_wf.2 hi⟩
      ready_geometry := fun hr => { h.ready_geometry hr with }
      pending_ok := fun p hp => (h.pending_ok p hp).congr (fun hg => { hg with }) rfl rfl }
  unfold Machine.writeStrbuf
  split_ifs
  · exact write h.tearFrame
  · exact write h

theorem BlockInv.hostWrite {s t : State} (h : BlockInv s) {a : Nat} {v : BitVec 48} (ht : hostWrite a v s = .next t) :
    BlockInv t := by
  unfold Machine.hostWrite at ht
  split_ifs at ht with h0 h1 h2
  · exact h.issue ht
  · cases ht
    exact h.writeCbuf (by unfold cbufAddress at *; omega) v
  · cases ht
    exact h.writeStrbuf (by unfold strbufAddress Config.strMax at *; omega) _
  · cases ht
    exact h

/-- `rst` leaves the traces, whose transactions and words stay as they are. -/
theorem BlockInv.resetInput {s : State} (h : BlockInv s) : BlockInv (resetInput s) :=
  { blockInv_resetOf s.build with
    ready_geometry := nofun
    pending_ok := nofun
    bus_framed := h.bus_framed
    led_low := h.led_low
    queue_suffix := List.nil_suffix }

/-- Every input keeps the invariant. -/
theorem BlockInv.react {s t : State} (h : BlockInv s) {e : Input} (he : react e s = .next t) : BlockInv t := by
  cases e with
  | write a v => exact h.hostWrite he
  | read a => cases he; exact h.environment _ _ _ _ _ _
  | reset => cases he; exact h.resetInput
  | busRoom r => cases he; exact (h.environment _ _ r _ _ _).resume
  | ledRoom r => cases he; exact (h.environment _ _ _ r _ _).resume
  | clk ok => cases he; exact h.environment _ _ _ _ _ _
  | slot free => cases he; exact h.environment _ _ _ _ _ _
  | ledShift n => cases he; exact h.ledShift n

theorem BlockInv.step {s t : State} (h : BlockInv s) (hs : step s = .next t) : BlockInv t := by
  cases hin : s.inputs with
  | nil =>
    rw [step_of_no_input hin] at hs
    cases hs
    exact h.resume
  | cons e es =>
    rw [step_of_input hin] at hs
    exact (h.environment es _ _ _ _ _).react hs

/-! ## The build (R6) -/

theorem sendBus_build (d : BusEnd) (sent todo : List Byte) (rest : List (List Byte)) (s : State) :
    (sendBus d sent todo rest s).build = s.build := by
  obtain ⟨r, ts, -, ⟨-, h⟩ | ⟨_, _, _, -, -, -, h⟩⟩ := sendBus_cases d sent todo rest s
  · rw [h]
    cases d <;> rfl
  · rw [h]

theorem resume_build (s : State) : (resume s).build = s.build := by
  unfold resume
  split
  · rfl
  · exact sendBus_build ..
  · exact (sendLed_matrixFrame ..).build

theorem tearFrame_build (s : State) : (tearFrame s).build = s.build := by
  unfold tearFrame
  split <;> rfl

theorem issue_build {w : CmdWord} {s t : State} (h : issue w s = .next t) : t.build = s.build := by
  unfold issue at h
  split_ifs at h
  · cases h
    rfl
  · simp only at h
    split at h
    · exact exec_build (s := { s with busy := true, cmd := w }) h
    · cases h
      rfl

theorem hostWrite_build {a : Nat} {v : BitVec 48} {s t : State} (h : hostWrite a v s = .next t) :
    t.build = s.build := by
  unfold hostWrite at h
  split_ifs at h
  · exact issue_build h
  · cases h
    unfold writeCbuf
    split_ifs
    · exact tearFrame_build s
    · rfl
  · cases h
    unfold writeStrbuf
    split_ifs
    · exact tearFrame_build s
    · rfl
  · cases h
    rfl

theorem step_build {s t : State} (h : step s = .next t) : t.build = s.build := by
  cases hin : s.inputs with
  | nil =>
    rw [step_of_no_input hin] at h
    cases h
    exact resume_build s
  | cons e es =>
    rw [step_of_input hin] at h
    cases e with
    | write a v => exact hostWrite_build (s := { s with inputs := es }) h
    | busRoom r | ledRoom r => cases h; exact resume_build _
    | read | reset | clk | slot | ledShift => cases h; rfl

/-- Settles O60: a command keeps the invariant however it ends, a waiting one as far as its sink lets it go, and no
other input writes more than the memories of the host, the queue and the environment. -/
theorem everyStepKeepsTheInvariant : Obligations.EveryStepKeepsTheInvariant :=
  ⟨fun _ _ => BlockInv.step, fun _ _ => step_build⟩

end Sys2Proof.Machine

/-! # Stalls (R19, R38, R170): a refusing sink, and output cut into slices -/

namespace Sys2Proof.Machine

/-! ## A waiting command that goes on, by what waits -/

theorem resume_of_none {s : State} (hp : s.pending = none) : resume s = s := by
  rw [resume, hp]

theorem resume_of_bus {s : State} {sent todo : List Byte} {rest : List (List Byte)} {d : BusEnd}
    (hp : s.pending = some (.bus sent todo rest d)) : resume s = sendBus d sent todo rest s := by
  rw [resume, hp]

theorem resume_of_led {s : State} {ws : List LedWord} (hp : s.pending = some (.led ws)) :
    resume s = sendLed ws s := by
  rw [resume, hp]

/-! ## A sink that refuses -/

/-- Output to a bus sink without room stays where it is. -/
theorem sendBus_of_refused {d : BusEnd} {sent todo : List Byte} {rest : List (List Byte)} {s : State}
    (hroom : s.busRoom = .limited 0) (hne : todo ≠ []) (hbusy : s.busy = true)
    (hp : s.pending = some (.bus sent todo rest d)) : sendBus d sent todo rest s = s := by
  have hcov : ¬ s.busRoom.covers todo.length = true := by simpa [hroom] using hne
  have htake : s.busRoom.takes todo.length = 0 := by simp [hroom]
  have hafter : s.busRoom.after todo.length = s.busRoom := by simp [hroom]
  unfold sendBus
  rw [if_neg hcov, htake, hafter, List.take_zero, List.drop_zero, List.append_nil, ← hp, ← hbusy]

/-- Words offered to a queue without room stay where they are; only the position counter is written. -/
theorem sendLed_of_refused {w : LedWord} {ws : List LedWord} {s : State} (hroom : s.ledRoom = .limited 0)
    (hbusy : s.busy = true) (hp : s.pending = some (.led (w :: ws))) :
    ∃ m, sendLed (w :: ws) s = { s with work := { s.work with mp := m } } := by
  have hcov : ¬ s.ledRoom.covers (w :: ws).length = true := by simp [hroom]
  have htake : s.ledRoom.takes (w :: ws).length = 0 := by simp [hroom]
  have hafter : s.ledRoom.after (w :: ws).length = s.ledRoom := by simp [hroom]
  unfold sendLed
  rw [if_neg hcov, htake, hafter, List.take_zero, List.drop_zero, List.append_nil, List.append_nil, ← hp, ← hbusy]
  exact ⟨_, rfl⟩

/-- A busy block ignores a command word (R160). -/
theorem issue_of_busy (w : CmdWord) {s : State} (hb : s.busy = true) : issue w s = .next s :=
  if_pos (by simp [hb])

/-- A host write while a command waits reaches the host's buffers only, and may tear a waiting frame. -/
theorem hostWrite_of_busy (a : Nat) (v : BitVec 48) {s : State} (hb : s.busy = true) :
    ∃ u c m, hostWrite a v s = .next { u with cbuf := c, strbuf := m } ∧ (u = s ∨ u = tearFrame s) := by
  unfold hostWrite
  split_ifs
  · exact ⟨s, s.cbuf, s.strbuf, issue_of_busy _ hb, .inl rfl⟩
  · exact ⟨tearFrame s, _, (tearFrame s).strbuf, by rw [writeCbuf, if_pos hb], .inr rfl⟩
  · exact ⟨tearFrame s, (tearFrame s).cbuf, _, by rw [writeStrbuf, if_pos hb], .inr rfl⟩
  · exact ⟨s, s.cbuf, s.strbuf, rfl, .inl rfl⟩

/-- A run whose first step leads to `u` goes on from `u`. -/
theorem run_succ_of_next (M : Host.Core) {s u : M.State} (h : M.step s = .next u) (n : Nat) :
    M.run (n + 1) s = M.run n u := by
  rw [Host.Core.run, h]

/-- A state that every step leads to another of its kind is never left. -/
theorem run_of_step {P : State → Prop} (hstep : ∀ t, P t → ∃ u, step t = .next u ∧ P u) (n : Nat) {s : State}
    (hs : P s) : ∃ t, Host.Core.run Sys2Proof.core n s = .next t ∧ P t := by
  induction n generalizing s with
  | zero => exact ⟨s, rfl, hs⟩
  | succ n ih =>
    obtain ⟨u, hu, hPu⟩ := hstep s hs
    obtain ⟨t, ht, hPt⟩ := ih hPu
    exact ⟨t, (run_succ_of_next Sys2Proof.core hu n).trans ht, hPt⟩

/-- What a stall keeps: the command waits, and no trace and no fault flag changes. -/
structure Waits (s t : State) : Prop where
  busy : t.busy = true
  bus : t.bus = s.bus
  led : t.led = s.led
  fault : t.fault = s.fault

/-! ## A bus command that waits -/

/-- The bus command that waits in `s` waits in `t`, and its sink refuses. -/
structure BusHang (s t : State) : Prop extends Waits s t where
  pending : t.pending = s.pending
  room : t.busRoom = .limited 0
  inputs : ∀ e ∈ t.inputs, e ≠ .reset ∧ ∀ r, e ≠ .busRoom r

theorem tearFrame_of_bus {s : State} {sent todo : List Byte} {rest : List (List Byte)} {d : BusEnd}
    (hp : s.pending = some (.bus sent todo rest d)) : tearFrame s = s := by
  rw [tearFrame, hp]

theorem BusHang.resume {s t : State} {sent todo : List Byte} {rest : List (List Byte)} {d : BusEnd} (h : BusHang s t)
    (hp : s.pending = some (.bus sent todo rest d)) (hne : todo ≠ []) : resume t = t := by
  have hpt := h.pending.trans hp
  rw [resume_of_bus hpt, sendBus_of_refused h.room hne h.busy hpt]

theorem BusHang.step {s t : State} {sent todo : List Byte} {rest : List (List Byte)} {d : BusEnd} (h : BusHang s t)
    (hp : s.pending = some (.bus sent todo rest d)) (hne : todo ≠ []) : ∃ u, step t = .next u ∧ BusHang s u := by
  cases hin : t.inputs with
  | nil => exact ⟨t, by rw [step_of_no_input hin, h.resume hp hne], h⟩
  | cons e es =>
    have he := h.inputs e (by simp [hin])
    have h' : BusHang s { t with inputs := es } :=
      { h with inputs := fun e he => h.inputs e (by rw [hin]; exact List.mem_cons_of_mem _ he) }
    rw [step_of_input hin]
    cases e with
    | write a v =>
      obtain ⟨u, c, m, hw, hu⟩ := hostWrite_of_busy a v h'.busy
      have hu : u = { t with inputs := es } := by
        rcases hu with hu | hu
        · exact hu
        · rw [hu, tearFrame_of_bus (h'.pending.trans hp)]
      subst hu
      exact ⟨_, hw, { h' with }⟩
    | ledRoom r =>
      have h'' : BusHang s { t with inputs := es, ledRoom := r } := { h' with }
      exact ⟨_, rfl, by rw [h''.resume hp hne]; exact h''⟩
    | reset => exact absurd rfl he.1
    | busRoom r => exact absurd rfl (he.2 r)
    | read | clk | slot | ledShift => exact ⟨_, rfl, { h' with }⟩

/-! ## MDRAW that waits -/

/-- The MDRAW whose word `w` is on offer, `n` words after it, waits in `t`, and the queue refuses. -/
structure LedHang (w : LedWord) (n : Nat) (s t : State) : Prop extends Waits s t where
  pending : ∃ ws, t.pending = some (.led (w :: ws)) ∧ ws.length = n
  room : t.ledRoom = .limited 0
  inputs : ∀ e ∈ t.inputs, e ≠ .reset ∧ ∀ r, e ≠ .ledRoom r

theorem LedHang.resume {w : LedWord} {n : Nat} {s t : State} (h : LedHang w n s t) : LedHang w n s (resume t) := by
  obtain ⟨ws, hp, hlen⟩ := h.pending
  obtain ⟨m, hm⟩ := sendLed_of_refused h.room h.busy hp
  rw [resume_of_led hp, hm]
  exact { h with }

/-- A torn frame keeps the word on offer and the number of words. -/
theorem LedHang.tearFrame {w : LedWord} {n : Nat} {s t : State} (h : LedHang w n s t) :
    LedHang w n s (tearFrame t) := by
  obtain ⟨ws, hp, hlen⟩ := h.pending
  unfold Machine.tearFrame
  rw [hp]
  exact { h with pending := ⟨_, rfl, by simpa using hlen⟩ }

theorem LedHang.step {w : LedWord} {n : Nat} {s t : State} (h : LedHang w n s t) :
    ∃ u, step t = .next u ∧ LedHang w n s u := by
  cases hin : t.inputs with
  | nil => exact ⟨_, step_of_no_input hin, h.resume⟩
  | cons e es =>
    have he := h.inputs e (by simp [hin])
    have h' : LedHang w n s { t with inputs := es } :=
      { h with inputs := fun e he => h.inputs e (by rw [hin]; exact List.mem_cons_of_mem _ he) }
    rw [step_of_input hin]
    cases e with
    | write a v =>
      obtain ⟨u, c, m, hw, hu⟩ := hostWrite_of_busy a v h'.busy
      have hu : LedHang w n s u := by
        rcases hu with rfl | rfl
        · exact h'
        · exact h'.tearFrame
      exact ⟨_, hw, { hu with }⟩
    | busRoom r =>
      have h'' : LedHang w n s { t with inputs := es, busRoom := r } := { h' with }
      exact ⟨_, rfl, h''.resume⟩
    | reset => exact absurd rfl he.1
    | ledRoom r => exact absurd rfl (he.2 r)
    | read | clk | slot | ledShift => exact ⟨_, rfl, { h' with }⟩

/-- Settles O12: no step that is allowed leaves the states in which the command waits and its sink refuses. -/
theorem stalledCommandHangsForEver : Obligations.StalledCommandHangsForEver := by
  unfold Obligations.StalledCommandHangsForEver
  refine fun s hb => ⟨fun sent todo rest d hp hne hroom hin n => ?_, fun w ws hp hroom hin n => ?_⟩
  · have h : BusHang s s := ⟨⟨hb, rfl, rfl, rfl⟩, rfl, hroom, hin⟩
    obtain ⟨t, ht, h⟩ := run_of_step (fun t h => BusHang.step h hp hne) n h
    exact ⟨t, ht, h.busy, h.pending, h.bus, h.led, h.fault⟩
  · have h : LedHang w ws.length s s := ⟨⟨hb, rfl, rfl, rfl⟩, ⟨ws, hp, rfl⟩, hroom, hin⟩
    obtain ⟨t, ht, h⟩ := run_of_step (fun t => LedHang.step) n h
    obtain ⟨ws', hp', hlen⟩ := h.pending
    exact ⟨t, ws', ht, h.busy, hp', hlen, h.bus, h.led, h.fault⟩

/-! ## Output in two slices (R19, R38) -/

/-- What a bus command does depends neither on `BUSY` nor on what waited before. -/
theorem sendBus_busy_pending (d : BusEnd) (sent todo : List Byte) (rest : List (List Byte)) (s : State) (b : Bool)
    (p : Option Pending) :
    sendBus d sent todo rest { s with busy := b, pending := p } = sendBus d sent todo rest s := by
  induction rest generalizing sent todo s with
  | nil =>
    unfold sendBus
    split_ifs
    · cases d <;> rfl
    · rfl
  | cons t ts ih =>
    rw [sendBus, sendBus]
    simp only
    split_ifs
    · exact ih [] t { s with
        busRoom := s.busRoom.after todo.length
        bus := s.bus ++ [⟨s.busSel, s.busAddr, sent ++ todo⟩] }
    · rfl

/-- It does not depend on the inputs to come, which it keeps. -/
theorem sendBus_inputs (d : BusEnd) (sent todo : List Byte) (rest : List (List Byte)) (s : State) (es : List Input) :
    sendBus d sent todo rest { s with inputs := es } = { sendBus d sent todo rest s with inputs := es } := by
  induction rest generalizing sent todo s with
  | nil =>
    unfold sendBus
    split_ifs
    · cases d <;> rfl
    · rfl
  | cons t ts ih =>
    rw [sendBus, sendBus]
    simp only
    split_ifs
    · exact ih [] t { s with
        busRoom := s.busRoom.after todo.length
        bus := s.bus ++ [⟨s.busSel, s.busAddr, sent ++ todo⟩] }
    · rfl

/-- A transaction the sink takes in full joins the trace, and the command goes on. -/
theorem sendBus_of_covers_head {d : BusEnd} {sent todo : List Byte} {rest : List (List Byte)} {s : State}
    (h : s.busRoom.covers todo.length = true) :
    sendBus d sent todo rest s =
      emitBus d rest { s with
        busRoom := s.busRoom.after todo.length
        bus := s.bus ++ [⟨s.busSel, s.busAddr, sent ++ todo⟩] } := by
  cases rest <;> rw [sendBus, if_pos h] <;> rfl

/-- A transaction the sink does not take in full is cut, and the command waits. -/
theorem sendBus_of_not_covers {d : BusEnd} {sent todo : List Byte} {rest : List (List Byte)} {s : State} {k : Nat}
    (hroom : s.busRoom = .limited k) (h : k < todo.length) :
    sendBus d sent todo rest s =
      { s with
        busRoom := .limited 0, busy := true
        pending := some (.bus (sent ++ todo.take k) (todo.drop k) rest d) } := by
  have hcov : s.busRoom.covers todo.length = false := by simpa [hroom] using h
  have htakes : s.busRoom.takes todo.length = k := by
    rw [hroom, Room.takes_limited]
    omega
  unfold sendBus
  rw [hcov, Room.after_of_not_covers hcov, htakes]
  rfl

/-- A bus command that waits with room for `j` bytes and goes on with room for `k` has the outcome it has with room for
`j + k` at once. -/
theorem sendBus_slice (d : BusEnd) (sent todo : List Byte) (rest : List (List Byte)) (s : State) (j k : Nat)
    (h : (sendBus d sent todo rest { s with busRoom := .limited j }).pending.isSome = true) :
    resume { sendBus d sent todo rest { s with busRoom := .limited j } with busRoom := .limited k } =
      sendBus d sent todo rest { s with busRoom := .limited (j + k) } := by
  by_cases hj : todo.length ≤ j
  · have hcov : ∀ n, todo.length ≤ n → (Room.limited n).covers todo.length = true := by simp
    rw [sendBus_of_covers_head (hcov j hj)] at h ⊢
    rw [sendBus_of_covers_head (hcov (j + k) (by omega))]
    simp only [Room.after_limited] at h ⊢
    rw [show j + k - todo.length = j - todo.length + k by omega]
    cases rest with
    | nil => cases d <;> cases h
    | cons t ts =>
      exact sendBus_slice d [] t ts { s with bus := s.bus ++ [⟨s.busSel, s.busAddr, sent ++ todo⟩] } _ k h
  · have hj : j < todo.length := not_le.1 hj
    rw [sendBus_of_not_covers rfl hj, resume_of_bus rfl]
    refine (sendBus_busy_pending d _ _ rest { s with busRoom := .limited k } true _).trans ?_
    by_cases hjk : todo.length ≤ j + k
    · rw [sendBus_of_covers_head (by simp; omega), sendBus_of_covers_head (by simpa using hjk)]
      simp only [Room.after_limited, List.append_assoc, List.take_append_drop, List.length_drop]
      rw [show k - (todo.length - j) = j + k - todo.length by omega]
    · rw [sendBus_of_not_covers rfl (by simp; omega), sendBus_of_not_covers rfl (not_le.1 hjk)]
      simp only [List.append_assoc, List.take_add, List.drop_drop]

theorem emitBus_slice (d : BusEnd) (ts : List (List Byte)) (s : State) (j k : Nat)
    (h : (emitBus d ts { s with busRoom := .limited j }).pending.isSome = true) :
    resume { emitBus d ts { s with busRoom := .limited j } with busRoom := .limited k } =
      emitBus d ts { s with busRoom := .limited (j + k) } := by
  cases ts with
  | nil => cases d <;> cases h
  | cons t ts => exact sendBus_slice d [] t ts s j k h

/-- How a waiting command goes on does not depend on the inputs to come, which it keeps. -/
theorem resume_inputs (s : State) (es : List Input) :
    resume { s with inputs := es } = { resume s with inputs := es } := by
  rcases Option.eq_none_or_eq_some s.pending with hp | ⟨⟨sent, todo, rest, d⟩ | ⟨ws⟩, hp⟩
  · rw [resume_of_none hp, resume_of_none (s := { s with inputs := es }) hp]
  · rw [resume_of_bus hp, resume_of_bus (s := { s with inputs := es }) hp, sendBus_inputs]
  · rw [resume_of_led hp, resume_of_led (s := { s with inputs := es }) hp, sendLed, sendLed]
    simp only
    split_ifs <;> rfl

/-- A step with another list of inputs, put back after it. -/
theorem resume_restore_inputs {s : State} {is : List Input} (h : s.inputs = is) (es : List Input) :
    { resume { s with inputs := es } with inputs := is } = resume s := by
  subst h
  rw [resume_inputs]
  exact (resume_inputs s s.inputs).symm

/-- A display command that waits is one that emits, the same whatever room the sink has. -/
theorem exec_of_waits {i : Instr} (hi : isDisplayCommand i = true) {s t : State} (he : exec i s = .next t)
    (hp : t.pending.isSome = true) :
    ∃ (d : BusEnd) (ts : List (List Byte)) (f : State), f.inputs = s.inputs ∧
      ∀ r, exec i { s with busRoom := r } = .next (emitBus d ts { f with busRoom := r }) := by
  by_cases hd : isDrawing i = true
  · obtain ⟨t', he', hend⟩ := exec_drawing i s hd
    rw [he'] at he
    cases he
    cases hend <;> cases hp
  cases i with
  | dinit w h a b =>
    rw [exec_dinit] at he
    cases he
    split_ifs at hp with hr hh hsize
    · cases hp
    · cases hp
    · cases hp
    · refine ⟨.dinit, s.build.initCmds.map commandWrite, initialised w h a b s, rfl, fun r => ?_⟩
      rw [exec_dinit, if_neg hr, if_neg hh, if_neg hsize]
      rfl
  | flush =>
    rw [exec_flush] at he
    cases he
    split_ifs at hp with hr
    · refine ⟨.flush, (s.build.flushCmds s.width s.pages).map commandWrite ++ [bulkBytes s], s, rfl, fun r => ?_⟩
      rw [exec_flush, if_pos hr]
      rfl
    · cases hp
  | minit | mdraw => cases hi
  | _ => exact absurd rfl hd

theorem emitBus_inputs (d : BusEnd) (ts : List (List Byte)) (s : State) : (emitBus d ts s).inputs = s.inputs := by
  obtain ⟨r, sent, -, ⟨-, h⟩ | ⟨_, _, _, -, -, -, h⟩⟩ := emitBus_cases d ts s
  · rw [h]
    cases d <;> rfl
  · rw [h]

/-- Settles O13: a command that waits has emitted a part of its transactions, and the rest follows as it would have at
once. -/
theorem busStallLosesNothing : Obligations.BusStallLosesNothing := by
  unfold Obligations.BusStallLosesNothing
  intro i s t u j k es hi he hp hu
  obtain ⟨d, ts, f, hf, hemit⟩ := exec_of_waits hi he hp
  have ht : emitBus d ts { f with busRoom := .limited j } = t :=
    Host.Outcome.next.inj ((hemit (.limited j)).symm.trans he)
  have hin : t.inputs = s.inputs := by rw [← ht, emitBus_inputs, hf]
  rw [← ht] at hp
  have hslice := emitBus_slice d ts f j k hp
  rw [ht] at hslice
  rw [step_of_input rfl] at hu
  cases hu
  have hemit := hemit (.limited (j + k))
  rw [← hslice, ← resume_restore_inputs (s := { t with busRoom := .limited k }) hin es] at hemit
  exact hemit

/-- A queue that does not take all words: some join the trace, and the command waits with the rest. -/
theorem sendLed_of_not_covers {ws : List LedWord} {s : State} {k : Nat} (hroom : s.ledRoom = .limited k)
    (h : k < ws.length) :
    sendLed ws s =
      { s with
        ledRoom := .limited 0, led := s.led ++ ws.take k, ledQueue := s.ledQueue ++ ws.take k
        work := { s.work with mp := BitVec.ofNat 5 (min 24 (25 - (ws.length - k))) }
        busy := true, pending := some (.led (ws.drop k)) } := by
  have hcov : s.ledRoom.covers ws.length = false := by simpa [hroom] using h
  have htakes : s.ledRoom.takes ws.length = k := by
    rw [hroom, Room.takes_limited]
    omega
  unfold sendLed
  rw [hcov, Room.after_of_not_covers hcov, htakes]
  rfl

/-- MDRAW in two slices: the position counter is that of the words still to come. -/
theorem sendLed_slice (ws : List LedWord) (s : State) (j k : Nat)
    (h : (sendLed ws { s with ledRoom := .limited j }).pending.isSome = true) :
    resume { sendLed ws { s with ledRoom := .limited j } with ledRoom := .limited k } =
      sendLed ws { s with ledRoom := .limited (j + k) } := by
  have hj : j < ws.length := by
    by_contra hj
    rw [sendLed_of_covers _ _ (by simpa using hj)] at h
    cases h
  rw [sendLed_of_not_covers rfl hj, resume_of_led rfl]
  by_cases hjk : ws.length ≤ j + k
  · rw [sendLed_of_covers _ _ (by simp; omega), sendLed_of_covers _ _ (by simpa using hjk)]
    simp only [Room.after_limited, List.append_assoc, List.take_append_drop, List.length_drop]
    rw [show k - (ws.length - j) = j + k - ws.length by omega]
    rfl
  · rw [sendLed_of_not_covers rfl (by simp; omega), sendLed_of_not_covers rfl (not_le.1 hjk)]
    simp only [List.append_assoc, List.take_add, List.drop_drop, List.length_drop, Nat.sub_sub]

theorem sendLed_inputs (ws : List LedWord) (s : State) : (sendLed ws s).inputs = s.inputs := by
  obtain ⟨-, h⟩ | ⟨-, _, _, -, h⟩ := sendLed_cases ws s
  · rw [h]
    rfl
  · rw [h]

/-- MDRAW that waits has offered its frame, the same whatever room the queue has. -/
theorem exec_mdraw_of_waits {s t : State} (he : exec .mdraw s = .next t) (hp : t.pending.isSome = true) :
    ∃ (ws : List LedWord) (f : State), f.inputs = s.inputs ∧
      ∀ r, exec .mdraw { s with ledRoom := r } = .next (sendLed ws { f with ledRoom := r }) := by
  rw [exec_mdraw] at he
  cases he
  split_ifs at hp with hm
  · refine ⟨frameWords s, { s with fresh := s.fresh + 1 }, rfl, fun r => ?_⟩
    rw [exec_mdraw, if_pos hm]
    rfl
  · cases hp

/-- Settles O14: MDRAW that waits has put a part of its frame in the queue, and the rest follows as it would have at
once. -/
theorem ledStallLosesNothing : Obligations.LedStallLosesNothing := by
  unfold Obligations.LedStallLosesNothing
  intro s t u j k es he hp hu
  obtain ⟨ws, f, hf, hoffer⟩ := exec_mdraw_of_waits he hp
  have ht : sendLed ws { f with ledRoom := .limited j } = t :=
    Host.Outcome.next.inj ((hoffer (.limited j)).symm.trans he)
  have hin : t.inputs = s.inputs := by rw [← ht, sendLed_inputs, hf]
  rw [← ht] at hp
  have hslice := sendLed_slice ws f j k hp
  rw [ht] at hslice
  rw [step_of_input rfl] at hu
  cases hu
  have hoffer := hoffer (.limited (j + k))
  rw [← hslice, ← resume_restore_inputs (s := { t with ledRoom := .limited k }) hin es] at hoffer
  exact hoffer

end Sys2Proof.Machine

/-! # Acceptance (R160) and the faults of a command (R164, R165, R167) -/

namespace Sys2Proof.Machine

/-! ## Command words -/

theorem step_of_command {s : State} {v : BitVec 48} {es : List Input} (h : s.inputs = .write cmdAddress v :: es) :
    step s = issue (v.setWidth 40) { s with inputs := es } :=
  step_of_input h

/-- An idle block runs the command that a word decodes to. -/
theorem issue_of_decode {w : CmdWord} {i : Instr} {s : State} (hb : s.busy = false) (hf : s.fault = false)
    (hd : decode w = .ok i) : issue w s = exec i { s with busy := true, cmd := w } := by
  rw [issue, if_neg (by simp [hb, hf]), hd]

/-- An idle block takes `F_ILLEGAL` on a word that does not decode. -/
theorem issue_of_illegal {w : CmdWord} {r : Reject} {s : State} (hb : s.busy = false) (hf : s.fault = false)
    (hd : decode w = .error r) :
    issue w s = .next (faultEntry (opField w) ⟨.illegal, illegalInfo w⟩ { s with busy := true, cmd := w }) := by
  rw [issue, if_neg (by simp [hb, hf]), hd]

/-- Settles O7: the write is an `issue` of its low 40 bits, which an idle block runs. -/
theorem stepRunsTheDecodedCommand : Obligations.StepRunsTheDecodedCommand :=
  fun s _ es _ hin hb hf hd => (step_of_command hin).trans (issue_of_decode (s := { s with inputs := es }) hb hf hd)

/-- Settles O8: the write is an `issue` of its low 40 bits, which takes the fault; its `BUSY` is cleared by fault
entry. -/
theorem illegalWordTakesFault : Obligations.IllegalWordTakesFault :=
  fun s _ es _ hin hb hf hd =>
    ⟨_, (step_of_command hin).trans (issue_of_illegal (s := { s with inputs := es }) hb hf hd), ⟨_, _, _, rfl⟩⟩

/-- Settles O9: a command word has no effect while the block is busy or faulted. -/
theorem commandIgnoredWhileBusyOrFaulted : Obligations.CommandIgnoredWhileBusyOrFaulted := by
  unfold Obligations.CommandIgnoredWhileBusyOrFaulted
  intro s v es hin h
  rw [step_of_command hin]
  rcases h with hb | hf
  · exact issue_of_busy _ hb
  · exact issue_of_fault _ hf

/-! ## `F_STATE` -/

/-- Every display command but DINIT checks `DISP_READY` first. -/
theorem exec_of_not_ready {i : Instr} (hi : isDisplayCommand i = true) (hop : opcode i ≠ 1#4) {s : State}
    (hr : s.dispReady = false) : exec i s = .next (faultEntry (opcode i) ⟨.state, 0⟩ s) := by
  have hbody : ∀ (opc : BitVec 4) (body : State → State),
      whenDisplayReady opc body s = faultEntry opc ⟨.state, 0⟩ s := fun opc body =>
    if_neg (by simp [hr])
  cases i with
  | dinit => exact absurd rfl hop
  | minit | mdraw => cases hi
  | setpix | fill | rect | line | hline | vline | char | string | flush => exact congrArg Host.Outcome.next (hbody ..)

theorem exec_mdraw_of_not_ready {s : State} (hr : s.mtxReady = false) :
    exec .mdraw s = .next (faultEntry 12#4 ⟨.state, 1⟩ s) := by
  rw [exec_mdraw, if_neg (by simp [hr])]

/-- Settles O15: the ready bit of a half is the first check of each of its commands. -/
theorem uninitialisedOrReinitialisedHalfFaults : Obligations.UninitialisedOrReinitialisedHalfFaults :=
  ⟨fun _ _ hi hop hr => ⟨_, exec_of_not_ready hi hop hr, entersFault_faultEntry ..⟩,
    fun w h a b _ hr => ⟨_, exec_dinit_of_ready w h a b hr, entersFault_faultEntry ..⟩,
    fun _ hr => ⟨_, exec_mdraw_of_not_ready hr, entersFault_faultEntry ..⟩,
    fun ch pin _ hr => ⟨_, exec_minit_of_ready ch pin hr, entersFault_faultEntry ..⟩⟩

/-! ## Drawing commands in a ready display -/

section
variable {s : State} (hr : s.dispReady = true)
include hr

theorem exec_setpix_of_ok {x y : Byte} {on : Bool} (h : pixelOk s ⟨zext x, zext y, on⟩ = true) :
    exec (.setpix x y on) s = .next (complete errOk (writePixel ⟨zext x, zext y, on⟩ s)) := by
  rw [exec, execSetpix, whenDisplayReady_of_ready hr, pixel, if_pos h]

theorem exec_setpix_of_bad {x y : Byte} {on : Bool} (h : pixelOk s ⟨zext x, zext y, on⟩ = false) :
    exec (.setpix x y on) s = .next (faultEntry 2#4 (coordRaise ⟨zext x, zext y, on⟩) s) := by
  rw [exec, execSetpix, whenDisplayReady_of_ready hr, pixel, if_neg (by simp [h])]

theorem exec_fill_of_ready (on : Bool) :
    exec (.fill on) s = .next (drawAnyOrder .loops 3#4 (fillPixels s.width s.height on)
      (fun s' => complete errOk (setLoop (fillPixels s.width s.height on) s')) s) := by
  rw [exec, execFill, whenDisplayReady_of_ready hr]

theorem exec_rect_of_empty {w h : Byte} (hz : w = 0#8 ∨ h = 0#8) (top left : Byte) (on filled : Bool) :
    exec (.rect top left w h on filled) s = .next (faultEntry 4#4 ⟨.range, infoPair h w⟩ s) := by
  rw [exec, execRect, whenDisplayReady_of_ready hr, if_pos hz]

theorem exec_rect_of_nonempty {w h : Byte} (hz : ¬(w = 0#8 ∨ h = 0#8)) (top left : Byte) (on filled : Bool) :
    exec (.rect top left w h on filled) s =
      .next (drawAnyOrder .loops 4#4 (commandPixels (.rect top left w h on filled) s)
        (fun s' => complete errOk (setLoop (commandPixels (.rect top left w h on filled) s) s')) s) := by
  rw [exec, execRect, whenDisplayReady_of_ready hr, if_neg hz]
  simp only [commandPixels, if_neg hz]

theorem exec_line_of_ready (x0 y0 x1 y1 : Byte) (on : Bool) :
    exec (.line x0 y0 x1 y1 on) s =
      .next (draw .line 5#4 (linePixels (zext x0) (zext y0) (zext x1) (zext y1) on) none
        (fun s' =>
          complete errOk (setLine (lineRun (zext x0) (zext y0) (zext x1) (zext y1) s.work.line.le2.toInt) s')) s) := by
  rw [exec, execLine, whenDisplayReady_of_ready hr]

theorem exec_hline_of_reversed {x0 x1 : Byte} (h : x1 < x0) (y : Byte) (on : Bool) :
    exec (.hline x0 x1 y on) s = .next (faultEntry 6#4 ⟨.range, infoPair x1 x0⟩ s) := by
  rw [exec, execHline, whenDisplayReady_of_ready hr, if_pos h]

theorem exec_hline_of_range {x0 x1 : Byte} (h : ¬x1 < x0) (y : Byte) (on : Bool) :
    exec (.hline x0 x1 y on) s =
      .next (draw .loops 6#4 (hlinePixels (zext x0) (zext x1) (zext y) on) none
        (fun s' => complete errOk (setLoop (hlinePixels (zext x0) (zext x1) (zext y) on) s')) s) := by
  rw [exec, execHline, whenDisplayReady_of_ready hr, if_neg h]

theorem exec_vline_of_reversed {y0 y1 : Byte} (h : y1 < y0) (x : Byte) (on : Bool) :
    exec (.vline x y0 y1 on) s = .next (faultEntry 7#4 ⟨.range, infoPair y1 y0⟩ s) := by
  rw [exec, execVline, whenDisplayReady_of_ready hr, if_pos h]

theorem exec_vline_of_range {y0 y1 : Byte} (h : ¬y1 < y0) (x : Byte) (on : Bool) :
    exec (.vline x y0 y1 on) s =
      .next (draw .loops 7#4 (vlinePixels (zext x) (zext y0) (zext y1) on) none
        (fun s' => complete errOk (setLoop (vlinePixels (zext x) (zext y0) (zext y1) on) s')) s) := by
  rw [exec, execVline, whenDisplayReady_of_ready hr, if_neg h]

theorem exec_char_of_draws {c x y : Byte} {w : Nat} {ps : List Pixel}
    (hd : drawChar s.build c (zext x) (zext y) = .ok (w, ps)) :
    exec (.char c x y) s =
      .next (draw .font 8#4 ps none
        (fun s' =>
          complete errOk
            { s' with
              rv0 := BitVec.ofNat 8 w, rv1 := 0
              work := { s'.work with font := fontAfter s.build c s'.work.font } }) s) := by
  rw [exec_char_of_ready c x y hr, char, hd]

end

/-! ## `F_RANGE` and `F_CONFIG` -/

/-- Settles O16: the operand checks come before any pixel write. -/
theorem emptyOrReversedRangeFaults : Obligations.EmptyOrReversedRangeFaults :=
  fun _ hr =>
    ⟨fun top left _ _ on filled hz => ⟨_, exec_rect_of_empty hr hz top left on filled, entersFault_faultEntry ..⟩,
      fun _ _ y on h => ⟨_, exec_hline_of_reversed hr (BitVec.lt_def.2 h) y on, entersFault_faultEntry ..⟩,
      fun x _ _ on h => ⟨_, exec_vline_of_reversed hr (BitVec.lt_def.2 h) x on, entersFault_faultEntry ..⟩⟩

/-- Settles O17: DINIT checks the height right after the ready bit. -/
theorem heightNotMultipleOf8Faults : Obligations.HeightNotMultipleOf8Faults :=
  fun w h a b _ hr hh => ⟨_, exec_dinit_of_badHeight w h a b hr hh, entersFault_faultEntry ..⟩

/-! ## `F_COORD` -/

/-- The low 8 bits of a zero-extended operand are the operand. -/
@[simp] theorem ofInt_zext (b : Byte) : BitVec.ofInt 8 (zext b) = b := by
  simp [zext]

/-- A fault before any pixel write is one that leaves every framebuffer bit. -/
theorem entersFaultMidway_faultEntry (opc : BitVec 4) (r : Raise) (ps : List Pixel) (s : State) :
    entersFaultMidway opc r ps s (faultEntry opc r s) :=
  ⟨⟨s.fb, s.work, rfl, entersFault_faultEntry ..⟩, fun _ _ _ => .inl rfl⟩

theorem mem_hlinePixels {x0 x1 y : Int} {on : Bool} {p : Pixel} :
    p ∈ hlinePixels x0 x1 y on ↔ (x0 ≤ p.x ∧ p.x ≤ x1) ∧ p.y = y ∧ p.on = on := by
  simp only [hlinePixels, List.mem_map, mem_span]
  constructor
  · rintro ⟨x, hx, rfl⟩
    exact ⟨hx, rfl, rfl⟩
  · rintro ⟨hx, rfl, rfl⟩
    exact ⟨p.x, hx, rfl⟩

theorem mem_vlinePixels {x y0 y1 : Int} {on : Bool} {p : Pixel} :
    p ∈ vlinePixels x y0 y1 on ↔ (y0 ≤ p.y ∧ p.y ≤ y1) ∧ p.x = x ∧ p.on = on := by
  simp only [vlinePixels, List.mem_map, mem_span]
  constructor
  · rintro ⟨y, hy, rfl⟩
    exact ⟨hy, rfl, rfl⟩
  · rintro ⟨hy, rfl, rfl⟩
    exact ⟨p.y, hy, rfl⟩

theorem zext_le_zext_iff {a b : Byte} : zext a ≤ zext b ↔ ¬ b < a := by
  rw [BitVec.not_lt, BitVec.le_def, zext, zext, Int.ofNat_le]

/-- HLINE with a pixel has its operands in order. -/
theorem not_reversed_of_mem_hlinePixels {x0 x1 : Byte} {y : Int} {on : Bool} {p : Pixel}
    (h : p ∈ hlinePixels (zext x0) (zext x1) y on) : ¬ x1 < x0 := by
  obtain ⟨⟨h0, h1⟩, -⟩ := mem_hlinePixels.1 h
  exact zext_le_zext_iff.1 (h0.trans h1)

/-- VLINE with a pixel has its operands in order. -/
theorem not_reversed_of_mem_vlinePixels {y0 y1 : Byte} {x : Int} {on : Bool} {p : Pixel}
    (h : p ∈ vlinePixels x (zext y0) (zext y1) on) : ¬ y1 < y0 := by
  obtain ⟨⟨h0, h1⟩, -⟩ := mem_vlinePixels.1 h
  exact zext_le_zext_iff.1 (h0.trans h1)

/-- Settles O18: SETPIX tests its one pixel; the others draw their pixels in order, up to the first that offends. -/
theorem firstOffendingPixelFaults : Obligations.FirstOffendingPixelFaults := by
  unfold Obligations.FirstOffendingPixelFaults
  intro i s p hi hfill hrect hr hbad
  have drawn : ∀ {u opc ps stop fin}, ps.find? (fun q => !pixelOk s q) = some p →
      exec i s = .next (draw u opc ps stop fin s) →
      ∃ t, exec i s = .next t ∧
        entersFaultMidway opc ⟨.coord, BitVec.ofInt 8 p.y ++ BitVec.ofInt 8 p.x⟩ ps s t := by
    intro u opc ps stop fin hbad he
    rw [draw_of_bad u opc ps stop fin s p hbad] at he
    exact ⟨_, he, entersFaultMidway_faultMidway ..⟩
  cases i with
  | dinit | flush | minit | mdraw => cases hi
  | fill => exact absurd rfl hfill
  | rect => exact absurd rfl hrect
  | setpix x y on =>
    have hp : p = ⟨zext x, zext y, on⟩ := by simpa [commandPixels] using List.mem_of_find?_eq_some hbad
    have hok : pixelOk s p = false := by simpa using List.find?_some hbad
    rw [hp] at hok ⊢
    exact ⟨_, exec_setpix_of_bad hr hok, entersFaultMidway_faultEntry ..⟩
  | line x0 y0 x1 y1 on => exact drawn hbad (exec_line_of_ready hr x0 y0 x1 y1 on)
  | hline x0 x1 y on =>
    exact drawn hbad (exec_hline_of_range hr (not_reversed_of_mem_hlinePixels (List.mem_of_find?_eq_some hbad)) y on)
  | vline x y0 y1 on =>
    exact drawn hbad (exec_vline_of_range hr (not_reversed_of_mem_vlinePixels (List.mem_of_find?_eq_some hbad)) x on)
  | char c x y =>
    simp only [commandPixels] at hbad ⊢
    cases hd : drawChar s.build c (zext x) (zext y) with
    | error r => simp [hd] at hbad
    | ok wp =>
      simp only [hd] at hbad ⊢
      exact drawn hbad (exec_char_of_draws hr hd)
  | string x y len => exact drawn hbad (exec_string_of_ready x y len hr)

/-- Settles O19: FILL and RECT report a pixel that offends, whichever it is. -/
theorem fillOrRectOffendingPixelFaults : Obligations.FillOrRectOffendingPixelFaults := by
  unfold Obligations.FillOrRectOffendingPixelFaults
  intro i s hop hr hbad
  have drawn : ∀ {u opc ps fin}, (∃ p ∈ ps, pixelOk s p = false) →
      exec i s = .next (drawAnyOrder u opc ps fin s) →
      ∃ t, ∃ p ∈ ps, exec i s = .next t ∧ pixelOk s p = false ∧
        entersFaultMidway opc ⟨.coord, BitVec.ofInt 8 p.y ++ BitVec.ofInt 8 p.x⟩ ps s t := by
    intro u opc ps fin ⟨q, hq, hqbad⟩ he
    rcases drawAnyOrder_cases u opc ps fin s with ⟨hall, -⟩ | ⟨p, hp, hpbad, h⟩
    · rw [hall q hq] at hqbad
      cases hqbad
    · exact ⟨_, p, hp, he.trans (congrArg _ h), hpbad, entersFaultMidway_faultMidway ..⟩
  cases i with
  | fill on => exact drawn hbad (exec_fill_of_ready hr on)
  | rect top left w h on filled =>
    refine drawn hbad (exec_rect_of_nonempty hr ?_ top left on filled)
    intro hz
    simp [commandPixels, if_pos hz] at hbad
  | _ => simp [opcode] at hop

/-- The tests of R32 on a pixel of two operands. -/
theorem pixelOk_zext_iff (s : State) (x y : Byte) (on : Bool) :
    pixelOk s ⟨zext x, zext y, on⟩ = true ↔
      x.toNat < s.width.toNat ∧ y.toNat < s.height.toNat ∧ y.toNat / 8 + x.toNat * 8 + 1 < s.bufsize.toNat := by
  rw [pixelOk_iff]
  simp only [zext, pixelAddr]
  omega

/-- Settles O20: SETPIX tests its one pixel before it writes. -/
theorem setpixOutsideWritesNothing : Obligations.SetpixOutsideWritesNothing := by
  unfold Obligations.SetpixOutsideWritesNothing
  intro x y on s hr hout
  have hbad : pixelOk s ⟨zext x, zext y, on⟩ = false := by
    rw [Bool.eq_false_iff, ne_eq, pixelOk_zext_iff]
    omega
  refine ⟨_, exec_setpix_of_bad hr hbad, ?_⟩
  simp only [coordRaise, coordInfo, infoPair, ofInt_zext]
  exact entersFault_faultEntry ..

end Sys2Proof.Machine

/-! # Drawing commands that complete: SETPIX, FILL, RECT, HLINE, VLINE (R71, R72, R90, R92, R93) -/

namespace Sys2Proof.Machine

/-! ## SETPIX -/

/-- A pixel write that passes paints its pixel. -/
theorem paints_writePixel {p : Pixel} {s : State} (h : pixelOk s p = true) :
    paints s (writePixel p s) p.on (fun x y => x = p.x ∧ y = p.y) :=
  paints_paintAll [p] s p.on _ (by simpa using h) (by simp) fun x y => by simp [eq_comm]

/-- Settles O28: the byte and the bit of the pixel, written out. -/
theorem setpixCompletes : Obligations.SetpixCompletes := by
  unfold Obligations.SetpixCompletes
  intro x y on s hr hx hy hb
  have hok : pixelOk s ⟨zext x, zext y, on⟩ = true := (pixelOk_zext_iff s x y on).2 ⟨hx, hy, hb⟩
  have haddr : (pixelAddr (zext x) (zext y)).toNat = y.toNat / 8 + x.toNat * 8 + 1 := by
    simp only [pixelAddr, zext]
    omega
  have hbit : pixelBit (zext y) = y.toNat % 8 := by
    simp only [pixelBit, zext]
    omega
  refine ⟨(writePixel ⟨zext x, zext y, on⟩ s).fb, exec_setpix_of_ok hr hok, ?_, paints_writePixel hok⟩
  simp only [writePixel, writeFb_fb, haddr, pixelMask, hbit]

theorem cellWrite_cellWrite_same {w : Nat} (m : List (Nat × BitVec w)) (a : Nat) (u v : BitVec w) :
    cellWrite (cellWrite m a u) a v = cellWrite m a v := by
  induction m with
  | nil => simp [cellWrite]
  | cons c m ih =>
    obtain ⟨k, x⟩ := c
    rcases lt_trichotomy a k with h | h | h
    · simp [cellWrite, h]
    · simp [cellWrite, h]
    · simp [cellWrite, h.not_gt, h.ne', ih]

/-- A pixel write done twice. -/
theorem writePixel_writePixel_same (p : Pixel) (s : State) : writePixel p (writePixel p s) = writePixel p s := by
  have hread : ∀ a v, fbByte (writeFb a v s) a = v := fun a v => by rw [fbByte_writeFb, if_pos rfl]
  have hwrite : ∀ a u v, writeFb a v (writeFb a u s) = writeFb a v s := fun a u v => by
    simp only [writeFb, cellWrite_cellWrite_same]
  simp only [writePixel, hread, hwrite]
  congr 1
  cases p.on <;> simp [BitVec.or_assoc, BitVec.and_assoc]

/-- What is painted twice has the later value. -/
theorem paints_trans {s t u : State} {on on' : Bool} {S : Int → Int → Prop} (h : paints s t on S)
    (h' : paints t u on' S) : paints s u on' S :=
  fun a b hb => ⟨(h' a b hb).1, fun hno => ((h' a b hb).2 hno).trans ((h a b hb).2 hno)⟩

/-- Settles O29: the second of two pixel writes decides the bit and both leave every other, and a write done twice is
one done once. -/
theorem setThenClearAndRepeatedSetpix : Obligations.SetThenClearAndRepeatedSetpix := by
  unfold Obligations.SetThenClearAndRepeatedSetpix
  intro x y on s t u hr hok
  have hok' : ∀ v, pixelOk s ⟨zext x, zext y, v⟩ = true := fun _ => hok
  have twice : ∀ v w, exec (.setpix x y v) s = .next t → exec (.setpix x y w) t = .next u →
      t = complete errOk (writePixel ⟨zext x, zext y, v⟩ s) ∧
        u = complete errOk (writePixel ⟨zext x, zext y, w⟩ (writePixel ⟨zext x, zext y, v⟩ s)) := by
    intro v w ht hu
    rw [exec_setpix_of_ok hr (hok' v)] at ht
    cases ht
    rw [exec_setpix_of_ok (s := complete errOk (writePixel ⟨zext x, zext y, v⟩ s)) hr (hok' w)] at hu
    cases hu
    exact ⟨rfl, rfl⟩
  constructor
  · intro ht hu
    obtain ⟨-, rfl⟩ := twice true false ht hu
    have hset := paints_writePixel (hok' true)
    exact paints_trans hset (paints_writePixel (s := writePixel ⟨zext x, zext y, true⟩ s) (hok' false))
  · intro ht hu
    obtain ⟨rfl, rfl⟩ := twice on on ht hu
    rw [writePixel_writePixel_same]

/-! ## Pixel writes of one value -/

/-- Pixel writes of the value `on`, one for each pixel of `S`, paint `S`. -/
theorem paints_of_mem_iff {ps : List Pixel} {s : State} {on : Bool} {S : Int → Int → Prop}
    (hmem : ∀ p, p ∈ ps ↔ S p.x p.y ∧ p.on = on) (hok : ∀ x y, S x y → pixelOk s ⟨x, y, on⟩ = true) :
    (∀ p ∈ ps, pixelOk s p = true) ∧ paints s { s with fb := (paintAll ps s).fb } on S := by
  have hps : ∀ p ∈ ps, pixelOk s p = true := by
    rintro ⟨x, y, v⟩ hp
    obtain ⟨hS, rfl⟩ := (hmem _).1 hp
    exact hok x y hS
  refine ⟨hps, ?_⟩
  rw [← paintAll_eq]
  refine paints_paintAll ps s on S hps (fun p hp => ((hmem p).1 hp).2) fun x y => ⟨fun hS => ?_, ?_⟩
  · exact ⟨⟨x, y, on⟩, (hmem _).2 ⟨hS, rfl⟩, rfl, rfl⟩
  · rintro ⟨p, hp, rfl, rfl⟩
    exact ((hmem p).1 hp).1

/-- The same for a command that leaves its last pixel in the loop counters. -/
theorem loops_complete {ps : List Pixel} {s : State} {on : Bool} {S : Int → Int → Prop}
    (hmem : ∀ p, p ∈ ps ↔ S p.x p.y ∧ p.on = on) (hok : ∀ x y, S x y → pixelOk s ⟨x, y, on⟩ = true) :
    (∀ p ∈ ps, pixelOk s p = true) ∧
      ∃ m lp, complete errOk (setLoop ps (paintAll ps s)) =
          { s with fb := m, work := { s.work with loop := lp }, err := 0, busy := false, pending := none } ∧
        paints s { s with fb := m } on S := by
  obtain ⟨hps, hpaint⟩ := paints_of_mem_iff hmem hok
  obtain ⟨lp, hlp⟩ := setLoop_eq ps (paintAll ps s)
  refine ⟨hps, _, lp, ?_, hpaint⟩
  rw [hlp, paintAll_eq]
  rfl

/-! ## FILL -/

theorem mem_fillPixels {width height : Byte} {on : Bool} {p : Pixel} :
    p ∈ fillPixels width height on ↔
      (0 ≤ p.x ∧ p.x < zext width ∧ 0 ≤ p.y ∧ p.y < zext height) ∧ p.on = on := by
  simp only [fillPixels, List.mem_flatMap, List.mem_map, mem_span, Int.le_sub_one_iff]
  constructor
  · rintro ⟨x, ⟨hx0, hx1⟩, y, ⟨hy0, hy1⟩, rfl⟩
    exact ⟨⟨hx0, hx1, hy0, hy1⟩, rfl⟩
  · rintro ⟨⟨hx0, hx1, hy0, hy1⟩, rfl⟩
    exact ⟨p.x, ⟨hx0, hx1⟩, p.y, ⟨hy0, hy1⟩, rfl⟩

/-- Settles O30: the pixel writes of FILL are those of the display. -/
theorem fillCompletes : Obligations.FillCompletes := by
  unfold Obligations.FillCompletes
  intro on s hr hok
  obtain ⟨hps, m, lp, heq, hpaint⟩ := loops_complete
    (S := fun x y => 0 ≤ x ∧ x < zext s.width ∧ 0 ≤ y ∧ y < zext s.height)
    (fun p => mem_fillPixels (on := on)) (fun x y ⟨hx0, hx, hy0, hy⟩ => hok x y hx0 hx hy0 hy)
  rw [exec_fill_of_ready hr, drawAnyOrder_of_ok _ _ _ _ _ hps]
  exact ⟨m, lp, congrArg _ heq, hpaint⟩

/-- At `HEIGHT` = 64 every pixel inside the display passes (R5, R35). -/
theorem pixelOk_of_height64 {s : State} (h : Height64 s) {x y : Int} {on : Bool} (hx0 : 0 ≤ x)
    (hx : x < zext s.width) (hy0 : 0 ≤ y) (hy : y < 64) : pixelOk s ⟨x, y, on⟩ = true := by
  obtain ⟨hheight, hbuf⟩ := h
  have hh : zext s.height = 64 := by rw [hheight]; rfl
  rw [pixelOk_iff, hh]
  refine ⟨hx0, hy0, hx, hy, ?_⟩
  simp only [zext, pixelAddr] at *
  omega

/-- The pixel of a bit of a byte, at eight rows of pages a column (R30, R31). -/
theorem hits_of_byte {a b : Nat} (ha : 1 ≤ a) (hb : b < 8) :
    hits (((a - 1) / 8 : Nat) : Int) (((a - 1) % 8 * 8 + b : Nat) : Int) a b := by
  simp only [hits, pixelAddr, pixelBit]
  omega

/-- Settles O31: every bit of every pixel byte is that of a pixel of the display. -/
theorem fillAtHeight64WritesEveryPixelByte : Obligations.FillAtHeight64WritesEveryPixelByte := by
  unfold Obligations.FillAtHeight64WritesEveryPixelByte
  intro on s hr h64
  have hh : zext s.height = 64 := by rw [h64.1]; rfl
  obtain ⟨m, lp, he, hpaint⟩ := fillCompletes on s hr fun x y hx0 hx hy0 hy =>
    pixelOk_of_height64 h64 hx0 hx hy0 (hh ▸ hy)
  refine ⟨_, he, rfl, rfl, rfl, exec_header_of_ne_dinit _ (by simp [opcode]) he, fun a ha1 ha => ?_⟩
  have hbyte : ∀ v : Bool, ∀ b < 8, (if v then 0xFF#8 else 0x00#8).getLsbD b = v := by decide
  have hbuf := h64.2
  apply BitVec.eq_of_getLsbD_eq
  intro b hb
  rw [hbyte on b hb]
  refine (hpaint a b hb).1 ⟨_, _, ⟨?_, ?_, ?_, ?_⟩, hits_of_byte ha1 hb⟩
  · omega
  · unfold zext
    omega
  · omega
  · rw [hh]
    omega

/-- A buffer of `p` ≤ 7 bytes a column ends before the last pixel of a second column, at 8 bytes a column (R35). -/
theorem bytes_le_last_pixel {p w : Nat} (hp1 : 1 ≤ p) (hp7 : p ≤ 7) (hw : 2 ≤ w) :
    p * w + 1 ≤ p - 1 + (w - 1) * 8 + 1 := by
  interval_cases p <;> omega

/-- Settles O32: the last pixel of the last column lies beyond a buffer with fewer than 8 bytes a column. -/
theorem fillFaultsOnLowDisplays : Obligations.FillFaultsOnLowDisplays := by
  unfold Obligations.FillFaultsOnLowDisplays
  intro on s hr hg hp1 hp7 hw
  have hbad : ∃ p ∈ commandPixels (.fill on) s, pixelOk s p = false := by
    have hmul : s.height.toNat % 8 = 0 := hg.height_multiple
    have hpages : s.pages.toNat = s.height.toNat / 8 := hg.pages_eq
    refine ⟨⟨zext s.width - 1, zext s.height - 1, on⟩, mem_fillPixels.2 ⟨?_, rfl⟩, ?_⟩
    · simp only [zext]
      omega
    · have hsize : s.pages.toNat * s.width.toNat + 1 ≤ s.pages.toNat - 1 + (s.width.toNat - 1) * 8 + 1 :=
        bytes_le_last_pixel hp1 hp7 hw
      rw [Bool.eq_false_iff, ne_eq, pixelOk_iff, hg.bufsize_eq]
      simp only [zext, pixelAddr]
      omega
  obtain ⟨t, p, -, he, -, ⟨m, wk, -, e, v0, v1, rfl⟩, -⟩ := fillOrRectOffendingPixelFaults (.fill on) s (.inl rfl) hr hbad
  exact ⟨_, he, rfl, rfl, rfl⟩

/-! ## RECT -/

theorem mem_rectPixels {top left x1 y1 : Int} {on filled : Bool} {p : Pixel} :
    p ∈ rectPixels top left x1 y1 on filled ↔
      ((left ≤ p.x ∧ p.x ≤ x1) ∧ (p.y = top ∨ p.y = y1) ∨ (top ≤ p.y ∧ p.y ≤ y1) ∧ (p.x = left ∨ p.x = x1) ∨
        filled = true ∧ (left < p.x ∧ p.x < x1) ∧ top < p.y ∧ p.y < y1) ∧ p.on = on := by
  obtain ⟨x, y, v⟩ := p
  have rows : (⟨x, y, v⟩ : Pixel) ∈ (span left x1).flatMap (fun x => [⟨x, top, on⟩, ⟨x, y1, on⟩]) ↔
      (left ≤ x ∧ x ≤ x1) ∧ (y = top ∨ y = y1) ∧ v = on := by
    simp only [List.mem_flatMap, mem_span, List.mem_cons, Pixel.mk.injEq, List.not_mem_nil, or_false]
    grind
  have columns : (⟨x, y, v⟩ : Pixel) ∈ (span top y1).flatMap (fun y => [⟨left, y, on⟩, ⟨x1, y, on⟩]) ↔
      (top ≤ y ∧ y ≤ y1) ∧ (x = left ∨ x = x1) ∧ v = on := by
    simp only [List.mem_flatMap, mem_span, List.mem_cons, Pixel.mk.injEq, List.not_mem_nil, or_false]
    grind
  have inside : (⟨x, y, v⟩ : Pixel) ∈ (if filled then
        (span (left + 1) (x1 - 1)).flatMap fun x => (span (top + 1) (y1 - 1)).map fun y => ⟨x, y, on⟩ else []) ↔
      filled = true ∧ (left < x ∧ x < x1) ∧ (top < y ∧ y < y1) ∧ v = on := by
    cases filled
    · simp
    · simp only [if_true, List.mem_flatMap, List.mem_map, mem_span, Pixel.mk.injEq]
      grind
  rw [rectPixels, List.mem_append, List.mem_append, rows, columns, inside]
  simp only [or_and_right, and_assoc, or_assoc]

/-- The pixel writes of RECT with sizes that are not 0 are those of its border and, when filled, its inside. -/
theorem mem_rectPixels_iff_inRect {top left w h : Int} (hw : 0 < w) (hh : 0 < h) {on filled : Bool} {p : Pixel} :
    p ∈ rectPixels top left (left + w - 1) (top + h - 1) on filled ↔
      inRect top left w h filled p.x p.y ∧ p.on = on := by
  rw [mem_rectPixels, inRect]
  refine and_congr_left' ?_
  cases filled
  · simp only [Bool.false_eq_true, false_and, or_false, false_or]
    omega
  · simp only [true_and, true_or, and_true]
    omega

theorem zext_pos_of_ne_zero {b : Byte} (h : b ≠ 0) : 0 < zext b := by
  have : b.toNat ≠ 0 := fun h0 => h (BitVec.eq_of_toNat_eq h0)
  unfold zext
  omega

/-- Settles O33: the pixel writes of RECT are those of its border or of all of it. -/
theorem rectCompletes : Obligations.RectCompletes := by
  unfold Obligations.RectCompletes
  intro top left w h on filled s hr hw hh hok
  have hz : ¬(w = 0#8 ∨ h = 0#8) := not_or.2 ⟨hw, hh⟩
  have hmem : ∀ p, p ∈ commandPixels (.rect top left w h on filled) s ↔
      inRect (zext top) (zext left) (zext w) (zext h) filled p.x p.y ∧ p.on = on := fun p => by
    rw [commandPixels, if_neg hz]
    exact mem_rectPixels_iff_inRect (zext_pos_of_ne_zero hw) (zext_pos_of_ne_zero hh)
  obtain ⟨hps, m, lp, heq, hpaint⟩ := loops_complete hmem hok
  rw [exec_rect_of_nonempty hr hz, drawAnyOrder_of_ok _ _ _ _ _ hps]
  exact ⟨m, lp, congrArg _ heq, hpaint⟩

/-! ## HLINE and VLINE -/

/-- Settles O34: the pixel writes are those of the inclusive range. -/
theorem hlineAndVlineComplete : Obligations.HlineAndVlineComplete := by
  unfold Obligations.HlineAndVlineComplete
  constructor
  · intro x0 x1 y on s hr hle hok
    have hmem : ∀ p, p ∈ hlinePixels (zext x0) (zext x1) (zext y) on ↔
        (zext x0 ≤ p.x ∧ p.x ≤ zext x1 ∧ p.y = zext y) ∧ p.on = on := fun p => by
      rw [mem_hlinePixels, and_assoc, and_assoc, and_assoc]
    obtain ⟨hps, m, lp, heq, hpaint⟩ := loops_complete
      (S := fun x' y' => zext x0 ≤ x' ∧ x' ≤ zext x1 ∧ y' = zext y) hmem fun x y' ⟨h0, h1, hy⟩ => hy ▸ hok x h0 h1
    rw [exec_hline_of_range hr (not_lt.2 hle), draw_of_ok _ _ _ _ _ hps]
    exact ⟨m, lp, congrArg _ heq, hpaint⟩
  · intro x y0 y1 on s hr hle hok
    have hmem : ∀ p, p ∈ vlinePixels (zext x) (zext y0) (zext y1) on ↔
        (p.x = zext x ∧ zext y0 ≤ p.y ∧ p.y ≤ zext y1) ∧ p.on = on := fun p => by
      rw [mem_vlinePixels, ← and_assoc, and_comm (a := p.x = _)]
    obtain ⟨hps, m, lp, heq, hpaint⟩ := loops_complete
      (S := fun x' y' => x' = zext x ∧ zext y0 ≤ y' ∧ y' ≤ zext y1) hmem fun x' y ⟨hx, h0, h1⟩ => hx ▸ hok y h0 h1
    rw [exec_vline_of_range hr (not_lt.2 hle), draw_of_ok _ _ _ _ _ hps]
    exact ⟨m, lp, congrArg _ heq, hpaint⟩

end Sys2Proof.Machine

/-! # LINE (R91 to R95): the loop of R91 ends at the second endpoint -/

namespace Sys2Proof.Machine

/-! ## One iteration -/

/-- The end test of the loop. -/
def LineVars.atEnd (x1 y1 : Int) (v : LineVars) : Prop := v.lx = x1 ∧ v.ly = y1

theorem lineStep_lx (v : LineVars) : (lineStep v).lx = v.lx + if 2 * v.lerr > -v.ldy then v.lsx else 0 := by
  unfold lineStep
  dsimp only
  split_ifs <;> simp

theorem lineStep_ly (v : LineVars) : (lineStep v).ly = v.ly + if 2 * v.lerr < v.ldx then v.lsy else 0 := by
  unfold lineStep
  dsimp only
  split_ifs <;> simp

theorem lineStep_lerr (v : LineVars) :
    (lineStep v).lerr =
      v.lerr - (if 2 * v.lerr > -v.ldy then v.ldy else 0) + if 2 * v.lerr < v.ldx then v.ldx else 0 := by
  unfold lineStep
  dsimp only
  split_ifs <;> simp

@[simp] theorem lineStep_le2 (v : LineVars) : (lineStep v).le2 = 2 * v.lerr := rfl

@[simp] theorem lineStep_ldx (v : LineVars) : (lineStep v).ldx = v.ldx := by
  unfold lineStep
  dsimp only
  split_ifs <;> rfl

@[simp] theorem lineStep_ldy (v : LineVars) : (lineStep v).ldy = v.ldy := by
  unfold lineStep
  dsimp only
  split_ifs <;> rfl

@[simp] theorem lineStep_lsx (v : LineVars) : (lineStep v).lsx = v.lsx := by
  unfold lineStep
  dsimp only
  split_ifs <;> rfl

@[simp] theorem lineStep_lsy (v : LineVars) : (lineStep v).lsy = v.lsy := by
  unfold lineStep
  dsimp only
  split_ifs <;> rfl

/-! ## The loop with the axes exchanged -/

/-- The variables with x and y exchanged; the error changes its sign. -/
def LineVars.swap (v : LineVars) : LineVars :=
  { lx := v.ly, ly := v.lx, ldx := v.ldy, ldy := v.ldx, lsx := v.lsy, lsy := v.lsx, lerr := -v.lerr, le2 := -v.le2 }

theorem LineVars.ext_fields {u v : LineVars} (h1 : u.lx = v.lx) (h2 : u.ly = v.ly) (h3 : u.ldx = v.ldx)
    (h4 : u.ldy = v.ldy) (h5 : u.lsx = v.lsx) (h6 : u.lsy = v.lsy) (h7 : u.lerr = v.lerr) (h8 : u.le2 = v.le2) :
    u = v := by
  cases u
  cases v
  simp_all

theorem lineStep_swap (v : LineVars) : lineStep v.swap = (lineStep v).swap := by
  have hx : (2 * -v.lerr > -v.ldx) ↔ 2 * v.lerr < v.ldx := by omega
  have hy : (2 * -v.lerr < v.ldy) ↔ 2 * v.lerr > -v.ldy := by omega
  apply LineVars.ext_fields <;>
    simp only [LineVars.swap, lineStep_lx, lineStep_ly, lineStep_lerr, lineStep_le2, lineStep_ldx, lineStep_ldy,
      lineStep_lsx, lineStep_lsy, hx, hy]
  · ring
  · ring

theorem lineVisits_swap (x1 y1 : Int) (n : Nat) (v : LineVars) :
    lineVisits y1 x1 n v.swap = (lineVisits x1 y1 n v).map LineVars.swap := by
  induction n generalizing v with
  | zero => rfl
  | succ n ih =>
    have hend : (v.swap.lx = y1 ∧ v.swap.ly = x1) ↔ (v.lx = x1 ∧ v.ly = y1) := and_comm
    rw [lineVisits, lineVisits, lineStep_swap, ih]
    simp only [hend]
    split_ifs <;> rfl

theorem lineRun_swap (x0 y0 x1 y1 le2 : Int) :
    lineRun y0 x0 y1 x1 (-le2) = (lineRun x0 y0 x1 y1 le2).map LineVars.swap := by
  have hstart : lineStart y0 x0 y1 x1 (-le2) = (lineStart x0 y0 x1 y1 le2).swap := by
    apply LineVars.ext_fields <;> simp [lineStart, LineVars.swap]
  unfold lineRun
  simp only [hstart, lineVisits_swap]
  rw [show max (lineStart x0 y0 x1 y1 le2).swap.ldx (lineStart x0 y0 x1 y1 le2).swap.ldy =
    max (lineStart x0 y0 x1 y1 le2).ldx (lineStart x0 y0 x1 y1 le2).ldy from max_comm _ _]

/-! ## What the loop visits -/

/-- What holds at every visit: the constants of the loop, the cursor between the endpoints, the bound of the error
(R95), and that the next iteration moves. -/
structure Visit (x0 y0 x1 y1 : Int) (v : LineVars) : Prop where
  ldx : v.ldx = |x1 - x0|
  ldy : v.ldy = |y1 - y0|
  lsx : v.lsx = if x0 < x1 then 1 else -1
  lsy : v.lsy = if y0 < y1 then 1 else -1
  lx_between : min x0 x1 ≤ v.lx ∧ v.lx ≤ max x0 x1
  ly_between : min y0 y1 ≤ v.ly ∧ v.ly ≤ max y0 y1
  lerr_bound : 2 * |v.lerr| ≤ 3 * max v.ldx v.ldy - 3 ∨ |v.lerr| ≤ max v.ldx v.ldy
  moves : v.atEnd x1 y1 ∨ 2 * v.lerr > -v.ldy ∨ 2 * v.lerr < v.ldx

/-- What holds of the visits of a whole run. -/
structure Traced (x0 y0 x1 y1 : Int) (vs : List LineVars) : Prop where
  last : ∃ v, vs.getLast? = some v ∧ v.atEnd x1 y1
  length : (vs.length : Int) = max |x1 - x0| |y1 - y0| + 1
  visit : ∀ v ∈ vs, Visit x0 y0 x1 y1 v
  chain : List.IsChain (fun u v => ¬u.atEnd x1 y1 ∧ v = lineStep u) vs

theorem Visit.swap {x0 y0 x1 y1 : Int} {v : LineVars} (h : Visit x0 y0 x1 y1 v) : Visit y0 x0 y1 x1 v.swap where
  ldx := h.ldy
  ldy := h.ldx
  lsx := h.lsy
  lsy := h.lsx
  lx_between := h.ly_between
  ly_between := h.lx_between
  lerr_bound := by simpa [LineVars.swap, max_comm] using h.lerr_bound
  moves := by
    rcases h.moves with h | h | h
    · exact .inl h.symm
    · exact .inr (.inr (by simp only [LineVars.swap]; omega))
    · exact .inr (.inl (by simp only [LineVars.swap]; omega))

theorem Traced.swap {x0 y0 x1 y1 : Int} {vs : List LineVars} (h : Traced x0 y0 x1 y1 vs) :
    Traced y0 x0 y1 x1 (vs.map LineVars.swap) where
  last := by
    obtain ⟨v, hv, hend⟩ := h.last
    exact ⟨v.swap, by simp [hv], hend.symm⟩
  length := by rw [List.length_map, h.length, max_comm]
  visit := by
    intro v hv
    obtain ⟨u, hu, rfl⟩ := List.mem_map.1 hv
    exact (h.visit u hu).swap
  chain := by
    rw [List.isChain_map]
    refine h.chain.imp ?_
    rintro u _ ⟨hend, rfl⟩
    exact ⟨fun he => hend he.symm, (lineStep_swap u).symm⟩

/-! ## The loop along the longer axis -/

/-- With x the longer axis, after `i` iterations: x has gone `i` steps and y has gone `j`, the error is what R91 adds
up to, and lies in a band. -/
structure OnTrack (x0 y0 x1 y1 i j : Int) (v : LineVars) : Prop where
  ldx : v.ldx = |x1 - x0|
  ldy : v.ldy = |y1 - y0|
  lsx : v.lsx = if x0 < x1 then 1 else -1
  lsy : v.lsy = if y0 < y1 then 1 else -1
  lx : v.lx = x0 + i * v.lsx
  ly : v.ly = y0 + j * v.lsy
  lerr : v.lerr = (j + 1) * v.ldx - (i + 1) * v.ldy
  i_bounds : 0 ≤ i ∧ i ≤ v.ldx
  j_bounds : 0 ≤ j ∧ j ≤ v.ldy
  band : 0 < v.ldx → -v.ldy < 2 * v.lerr ∧ 2 * v.lerr < 3 * v.ldx - 2 * v.ldy

/-- The band bounds how far y has gone. -/
theorem j_le_of_band {dx dy i j e : Int} (hdx : 0 < dx) (hdy : 0 ≤ dy) (hi : i ≤ dx)
    (he : e = (j + 1) * dx - (i + 1) * dy) (hband : 2 * e < 3 * dx - 2 * dy) : j ≤ dy := by
  by_contra hj
  have h1 : dx * (dy + 1) ≤ dx * j := Int.mul_le_mul_of_nonneg_left (by omega) hdx.le
  have h2 : i * dy ≤ dx * dy := Int.mul_le_mul_of_nonneg_right hi hdy
  nlinarith

/-- At the last column the band leaves y no row but the last. -/
theorem j_ge_of_band {dx dy j e : Int} (hdx : 0 < dx) (he : e = (j + 1) * dx - (dx + 1) * dy)
    (hdy : 0 ≤ dy) (hband : -dy < 2 * e) : dy ≤ j := by
  by_contra hj
  have h1 : dx * (j + 1) ≤ dx * dy := Int.mul_le_mul_of_nonneg_left (by omega) hdx.le
  nlinarith

theorem signed_abs_sub (a b : Int) : a + |b - a| * (if a < b then 1 else -1) = b := by
  split_ifs with h
  · rw [abs_of_pos (by omega)]
    omega
  · rw [abs_of_nonpos (by omega)]
    omega

/-- A coordinate some of the steps of its axis away from the first endpoint lies between the endpoints. -/
theorem between_of_steps {a b k : Int} (h0 : 0 ≤ k) (h1 : k ≤ |b - a|) :
    min a b ≤ a + k * (if a < b then 1 else -1) ∧ a + k * (if a < b then 1 else -1) ≤ max a b := by
  split_ifs with h
  · rw [abs_of_pos (by omega)] at h1
    omega
  · rw [abs_of_nonpos (by omega)] at h1
    omega

theorem lineVisits_head? (x1 y1 : Int) (n : Nat) (v : LineVars) : (lineVisits x1 y1 n v).head? = some v := by
  cases n with
  | zero => rfl
  | succ n =>
    rw [lineVisits]
    split_ifs <;> rfl

theorem lineVisits_of_not_atEnd {x1 y1 : Int} {v : LineVars} (h : ¬v.atEnd x1 y1) (n : Nat) :
    lineVisits x1 y1 (n + 1) v = v :: lineVisits x1 y1 n (lineStep v) :=
  if_neg h

section
variable {x0 y0 x1 y1 : Int} (hmajor : |y1 - y0| ≤ |x1 - x0|)
include hmajor

/-- The second endpoint is reached with the last step along x. -/
theorem OnTrack.atEnd_iff {i j : Int} {v : LineVars} (h : OnTrack x0 y0 x1 y1 i j v) :
    v.atEnd x1 y1 ↔ i = v.ldx := by
  have hx := signed_abs_sub x0 x1
  have hy := signed_abs_sub y0 y1
  rw [← h.ldx, ← h.lsx] at hx
  rw [← h.ldy, ← h.lsy] at hy
  constructor
  · rintro ⟨hlx, -⟩
    have hsx : v.lsx ≠ 0 := by rw [h.lsx]; split_ifs <;> decide
    rw [h.lx, ← hx] at hlx
    exact mul_right_cancel₀ hsx (add_left_cancel hlx)
  · intro hi
    have hmaj : v.ldy ≤ v.ldx := by rw [h.ldx, h.ldy]; exact hmajor
    have hj : j = v.ldy := by
      obtain ⟨hj0, hj1⟩ := h.j_bounds
      rcases lt_or_ge 0 v.ldx with hpos | hzero
      · have := j_ge_of_band hpos (hi ▸ h.lerr) (by omega) (h.band hpos).1
        omega
      · omega
    exact ⟨by rw [h.lx, hi, hx], by rw [h.ly, hj, hy]⟩

theorem OnTrack.visit {i j : Int} {v : LineVars} (h : OnTrack x0 y0 x1 y1 i j v) : Visit x0 y0 x1 y1 v where
  ldx := h.ldx
  ldy := h.ldy
  lsx := h.lsx
  lsy := h.lsy
  lx_between := by
    rw [h.lx, h.lsx]
    exact between_of_steps h.i_bounds.1 (h.ldx ▸ h.i_bounds.2)
  ly_between := by
    rw [h.ly, h.lsy]
    exact between_of_steps h.j_bounds.1 (h.ldy ▸ h.j_bounds.2)
  lerr_bound := by
    have hmaj : v.ldy ≤ v.ldx := by rw [h.ldx, h.ldy]; exact hmajor
    obtain ⟨hj0, hj1⟩ := h.j_bounds
    rw [max_eq_left hmaj]
    rcases (hj0.trans hj1).eq_or_lt with hdy | hdy
    · have hj : j = 0 := by omega
      right
      rw [h.lerr, ← hdy, hj, zero_add, one_mul, mul_zero, sub_zero, abs_of_nonneg (by omega)]
    · obtain ⟨hlow, hhigh⟩ := h.band (by omega)
      left
      rcases abs_cases v.lerr with ⟨habs, -⟩ | ⟨habs, -⟩ <;> omega
  moves := by
    rcases lt_or_ge 0 v.ldx with hpos | hzero
    · exact .inr (.inl (h.band hpos).1)
    · obtain ⟨hi0, hi1⟩ := h.i_bounds
      exact .inl ((h.atEnd_iff hmajor).2 (by omega))

theorem onTrack_lineStart (le2 : Int) : OnTrack x0 y0 x1 y1 0 0 (lineStart x0 y0 x1 y1 le2) where
  ldx := rfl
  ldy := rfl
  lsx := rfl
  lsy := rfl
  lx := by simp [lineStart]
  ly := by simp [lineStart]
  lerr := by simp [lineStart]
  i_bounds := ⟨le_refl 0, abs_nonneg _⟩
  j_bounds := ⟨le_refl 0, abs_nonneg _⟩
  band := by
    simp only [lineStart]
    omega

/-- While x has steps to go, an iteration takes one, and one along y if the error asks for it. -/
theorem OnTrack.step {i j : Int} {v : LineVars} (h : OnTrack x0 y0 x1 y1 i j v) (hi : i < v.ldx) :
    ∃ j', OnTrack x0 y0 x1 y1 (i + 1) j' (lineStep v) := by
  have hmaj : v.ldy ≤ v.ldx := by rw [h.ldx, h.ldy]; exact hmajor
  have hpos : 0 < v.ldx := h.i_bounds.1.trans_lt hi
  have hdy : 0 ≤ v.ldy := by rw [h.ldy]; exact abs_nonneg _
  obtain ⟨hlow, hhigh⟩ := h.band hpos
  obtain ⟨d, hd, hly, herr⟩ : ∃ d : Int, (d = 0 ∧ v.ldx ≤ 2 * v.lerr ∨ d = 1 ∧ 2 * v.lerr < v.ldx) ∧
      (lineStep v).ly = v.ly + d * v.lsy ∧ (lineStep v).lerr = v.lerr - v.ldy + d * v.ldx := by
    rw [lineStep_ly, lineStep_lerr, if_pos hlow]
    split_ifs with hy
    · exact ⟨1, .inr ⟨rfl, hy⟩, by ring, by ring⟩
    · exact ⟨0, .inl ⟨rfl, not_lt.1 hy⟩, by ring, by ring⟩
  have hband : -v.ldy < 2 * (lineStep v).lerr ∧ 2 * (lineStep v).lerr < 3 * v.ldx - 2 * v.ldy := by
    rw [herr]
    rcases hd with ⟨rfl, hy⟩ | ⟨rfl, hy⟩ <;> omega
  have hsum : (lineStep v).lerr = (j + d + 1) * v.ldx - (i + 1 + 1) * v.ldy := by
    rw [herr, h.lerr]
    ring
  refine ⟨j + d, ?_⟩
  exact
    { ldx := by simpa using h.ldx
      ldy := by simpa using h.ldy
      lsx := by simpa using h.lsx
      lsy := by simpa using h.lsy
      lx := by rw [lineStep_lx, if_pos hlow, h.lx, lineStep_lsx]; ring
      ly := by rw [hly, h.ly, lineStep_lsy]; ring
      lerr := by simpa using hsum
      i_bounds := by
        have := h.i_bounds.1
        rw [lineStep_ldx]
        omega
      j_bounds := by
        have := h.j_bounds.1
        rw [lineStep_ldy]
        exact ⟨by omega, j_le_of_band hpos hdy (by omega) hsum hband.2⟩
      band := fun _ => by simpa using hband }

/-- The visits from `i` steps along x on. -/
theorem OnTrack.lineVisits {n : Nat} {i j : Int} {v : LineVars} (h : OnTrack x0 y0 x1 y1 i j v) (hn : i + n = v.ldx) :
    (∃ u, (lineVisits x1 y1 n v).getLast? = some u ∧ u.atEnd x1 y1) ∧
    (lineVisits x1 y1 n v).length = n + 1 ∧ (∀ u ∈ lineVisits x1 y1 n v, Visit x0 y0 x1 y1 u) ∧
    List.IsChain (fun u v => ¬u.atEnd x1 y1 ∧ v = lineStep u) (lineVisits x1 y1 n v) := by
  induction n generalizing i j v with
  | zero =>
    have hend := (h.atEnd_iff hmajor).2 (by simpa using hn)
    exact ⟨⟨v, rfl, hend⟩, rfl, by simpa [Machine.lineVisits] using h.visit hmajor, List.isChain_singleton _⟩
  | succ n ih =>
    have hi : i < v.ldx := by omega
    have hend : ¬ v.atEnd x1 y1 := fun he => hi.ne ((h.atEnd_iff hmajor).1 he)
    obtain ⟨j', h'⟩ := h.step hmajor hi
    obtain ⟨⟨u, hu, huend⟩, hlen, hvisit, hchain⟩ := ih h' (by rw [lineStep_ldx]; omega)
    rw [lineVisits_of_not_atEnd hend]
    refine ⟨⟨u, ?_, huend⟩, by simp [hlen], by simpa using ⟨h.visit hmajor, hvisit⟩, ?_⟩
    · rw [List.getLast?_cons, hu]
      rfl
    · rw [List.isChain_cons]
      refine ⟨fun u hu => ⟨hend, ?_⟩, hchain⟩
      rw [lineVisits_head?] at hu
      exact (Option.some.inj hu).symm

theorem lineRun_traced_of_le (le2 : Int) : Traced x0 y0 x1 y1 (lineRun x0 y0 x1 y1 le2) := by
  have h := onTrack_lineStart hmajor le2
  have hmax : max |x1 - x0| |y1 - y0| = |x1 - x0| := max_eq_left hmajor
  have hn : (0 : Int) + (max (lineStart x0 y0 x1 y1 le2).ldx (lineStart x0 y0 x1 y1 le2).ldy).toNat =
      (lineStart x0 y0 x1 y1 le2).ldx := by
    rw [h.ldx, h.ldy, hmax, zero_add, Int.toNat_of_nonneg (abs_nonneg _)]
  obtain ⟨hlast, hlen, hvisit, hchain⟩ := h.lineVisits hmajor hn
  refine ⟨hlast, ?_, hvisit, hchain⟩
  rw [lineRun, hlen, hmax]
  push_cast
  rw [← h.ldx]
  omega

end

/-- Every run of the loop: the longer axis is x, or y with the axes exchanged. -/
theorem lineRun_traced (x0 y0 x1 y1 le2 : Int) : Traced x0 y0 x1 y1 (lineRun x0 y0 x1 y1 le2) := by
  rcases le_total |y1 - y0| |x1 - x0| with h | h
  · exact lineRun_traced_of_le h le2
  · have hswap := lineRun_swap y0 x0 y1 x1 (-le2)
    rw [neg_neg] at hswap
    rw [hswap]
    exact (lineRun_traced_of_le h (-le2)).swap

theorem lineRun_head? (x0 y0 x1 y1 le2 : Int) :
    (lineRun x0 y0 x1 y1 le2).head? = some (lineStart x0 y0 x1 y1 le2) :=
  lineVisits_head? ..

/-- Settles O37: the length and the last visit of a run. -/
theorem lineLoopEndsAtTheSecondEndpoint : Obligations.LineLoopEndsAtTheSecondEndpoint := by
  unfold Obligations.LineLoopEndsAtTheSecondEndpoint
  intro x0 y0 x1 y1 le2
  have h := lineRun_traced x0 y0 x1 y1 le2
  obtain ⟨v, hv, hx, hy⟩ := h.last
  exact ⟨_, v, lineRun_head? .., hv, rfl, rfl, hx, hy, h.length⟩

/-- An iteration goes to one of the eight neighbours. -/
theorem Visit.neighbour {x0 y0 x1 y1 : Int} {u : LineVars} (h : Visit x0 y0 x1 y1 u) (hend : ¬u.atEnd x1 y1) :
    |(lineStep u).lx - u.lx| ≤ 1 ∧ |(lineStep u).ly - u.ly| ≤ 1 ∧
      ¬((lineStep u).lx = u.lx ∧ (lineStep u).ly = u.ly) := by
  have hsx : u.lsx = 1 ∨ u.lsx = -1 := by rw [h.lsx]; split_ifs <;> simp
  have hsy : u.lsy = 1 ∨ u.lsy = -1 := by rw [h.lsy]; split_ifs <;> simp
  have hmoves := h.moves.resolve_left hend
  rw [lineStep_lx, lineStep_ly, abs_le, abs_le]
  split_ifs <;> omega

/-- Settles O38: every visit lies between the endpoints, and an iteration away from the second endpoint moves. -/
theorem lineStaysBetweenItsEndpointsAndIsConnected : Obligations.LineStaysBetweenItsEndpointsAndIsConnected := by
  unfold Obligations.LineStaysBetweenItsEndpointsAndIsConnected
  intro x0 y0 x1 y1 le2
  have h := lineRun_traced x0 y0 x1 y1 le2
  constructor
  · intro v hv
    have hvisit := h.visit v hv
    exact ⟨hvisit.lx_between.1, hvisit.lx_between.2, hvisit.ly_between⟩
  · exact List.IsChain.imp_of_mem_imp
      (fun u v hu _ ⟨hend, hv⟩ => hv ▸ (h.visit u hu).neighbour hend) h.chain

/-! ## The registers of the line unit (R20, R95) -/

/-- Every element of a chain is its first or follows another. -/
theorem eq_head_or_follows_of_isChain {α : Type} {R : α → α → Prop} {l : List α} (h : List.IsChain R l) :
    ∀ b ∈ l, l.head? = some b ∨ ∃ a ∈ l, R a b := by
  induction l with
  | nil => simp
  | cons a l ih =>
    rw [List.isChain_cons] at h
    obtain ⟨hfirst, htail⟩ := h
    intro b hb
    rcases List.mem_cons.1 hb with rfl | hb
    · exact .inl rfl
    · rcases ih htail b hb with hhead | ⟨c, hc, hR⟩
      · exact .inr ⟨a, List.mem_cons_self .., hfirst b hhead⟩
      · exact .inr ⟨c, List.mem_cons_of_mem _ hc, hR⟩

theorem abs_zext_sub_le (a b : Byte) : |zext a - zext b| ≤ 255 := by
  have ha := a.isLt
  have hb := b.isLt
  rw [abs_le]
  simp only [zext]
  omega

/-- With 8-bit operands the error stays within 381 of 0. -/
theorem Visit.lerr_le {x0 y0 x1 y1 : Byte} {v : LineVars} (h : Visit (zext x0) (zext y0) (zext x1) (zext y1) v) :
    -381 ≤ v.lerr ∧ v.lerr ≤ 381 := by
  have hmax : max v.ldx v.ldy ≤ 255 := by
    rw [h.ldx, h.ldy]
    exact max_le (abs_zext_sub_le x1 x0) (abs_zext_sub_le y1 y0)
  have habs : |v.lerr| ≤ 381 := by
    rcases h.lerr_bound with hb | hb <;> omega
  exact abs_le.1 habs

/-- Settles O39: the bound of every visit; the doubled error is 0 or that of the visit before. -/
theorem lineErrorFitsItsRegister : Obligations.LineErrorFitsItsRegister := by
  unfold Obligations.LineErrorFitsItsRegister
  intro x0 y0 x1 y1 v hv
  have h := lineRun_traced (zext x0) (zext y0) (zext x1) (zext y1) 0
  have hvisit := h.visit v hv
  obtain ⟨hlow, hhigh⟩ := hvisit.lerr_le
  have hle2 : -762 ≤ v.le2 ∧ v.le2 ≤ 762 := by
    rcases eq_head_or_follows_of_isChain h.chain v hv with hhead | ⟨u, hu, -, rfl⟩
    · rw [lineRun_head?] at hhead
      cases hhead
      simp [lineStart]
    · have := (h.visit u hu).lerr_le
      rw [lineStep_le2]
      omega
  obtain ⟨hx0, hx1⟩ := hvisit.lx_between
  obtain ⟨hy0, hy1⟩ := hvisit.ly_between
  simp only [zext] at hx0 hx1 hy0 hy1
  exact ⟨hlow, hhigh, BitVec.toInt_ofInt_eq_self (by decide) (by omega) (by omega),
    BitVec.toInt_ofInt_eq_self (by decide) (by omega) (by omega),
    BitVec.toInt_ofInt_eq_self (by decide) (by omega) (by omega),
    BitVec.toInt_ofInt_eq_self (by decide) (by omega) (by omega)⟩

/-! ## LINE -/

theorem mem_linePixels {x0 y0 x1 y1 : Int} {on : Bool} {p : Pixel} :
    p ∈ linePixels x0 y0 x1 y1 on ↔ onLine x0 y0 x1 y1 p.x p.y ∧ p.on = on := by
  simp only [linePixels, List.mem_map, onLine]
  constructor
  · rintro ⟨v, hv, rfl⟩
    exact ⟨⟨v, hv, rfl, rfl⟩, rfl⟩
  · rintro ⟨⟨v, hv, hx, hy⟩, rfl⟩
    exact ⟨v, hv, by rw [hx, hy]⟩

/-- LINE all of whose pixels pass. -/
theorem exec_line_of_ok {x0 y0 x1 y1 : Byte} {on : Bool} {s : State} (hr : s.dispReady = true)
    (hok : ∀ x y, onLine (zext x0) (zext y0) (zext x1) (zext y1) x y → pixelOk s ⟨x, y, on⟩ = true) :
    ∃ m ln, exec (.line x0 y0 x1 y1 on) s = .next
        { s with fb := m, work := { s.work with line := ln }, err := 0, busy := false, pending := none } ∧
      paints s { s with fb := m } on (onLine (zext x0) (zext y0) (zext x1) (zext y1)) := by
  obtain ⟨hps, hpaint⟩ := paints_of_mem_iff (fun p => mem_linePixels) hok
  obtain ⟨ln, hln⟩ := setLine_eq (lineRun (zext x0) (zext y0) (zext x1) (zext y1) s.work.line.le2.toInt)
    (paintAll (linePixels (zext x0) (zext y0) (zext x1) (zext y1) on) s)
  refine ⟨_, ln, ?_, hpaint⟩
  rw [exec_line_of_ready hr, draw_of_ok _ _ _ _ _ hps, hln, paintAll_eq]
  rfl

/-- Settles O35: the run is a chain of iterations between visits away from the second endpoint, and the pixel writes of
LINE are its visits. -/
theorem lineCompletes : Obligations.LineCompletes := by
  unfold Obligations.LineCompletes
  refine ⟨fun x0 y0 x1 y1 le2 => ?_, fun x0 y0 x1 y1 on s hr hok => exec_line_of_ok hr hok⟩
  have h := lineRun_traced x0 y0 x1 y1 le2
  obtain ⟨v, hv, hend⟩ := h.last
  refine ⟨⟨_, lineRun_head? .., rfl, rfl, rfl, rfl, rfl, rfl, rfl⟩, ⟨v, hv, hend⟩, h.chain.imp ?_⟩
  rintro u _ ⟨hend, rfl⟩
  exact ⟨hend, lineStep_le2 u, lineStep_ldx u, lineStep_ldy u, lineStep_lsx u, lineStep_lsy u, lineStep_lx u,
    lineStep_ly u, lineStep_lerr u⟩

/-- Both endpoints of a line are on it. -/
theorem onLine_endpoints (x0 y0 x1 y1 : Int) : onLine x0 y0 x1 y1 x0 y0 ∧ onLine x0 y0 x1 y1 x1 y1 := by
  obtain ⟨v, hv, hend⟩ := (lineRun_traced x0 y0 x1 y1 0).last
  exact ⟨⟨_, List.mem_of_mem_head? (lineRun_head? ..), rfl, rfl⟩, ⟨v, List.mem_of_getLast? hv, hend⟩⟩

/-- A pixel of a painted set that passes is on or off as painted. -/
theorem pixelOn_of_paints {s t : State} {on : Bool} {S : Int → Int → Prop} (h : paints s t on S) {x y : Int}
    (hS : S x y) (hok : pixelOk s ⟨x, y, on⟩ = true) : pixelOn t x y = on :=
  (h _ _ (pixelBit_lt y)).1 ⟨x, y, hS, (hits_iff s ⟨x, y, on⟩ hok _ _).2 ⟨rfl, rfl⟩⟩

/-- Settles O36: the visits lie between the endpoints, and so inside the display. -/
theorem lineInsideDisplayPaintsBothEndpoints : Obligations.LineInsideDisplayPaintsBothEndpoints := by
  unfold Obligations.LineInsideDisplayPaintsBothEndpoints
  intro x0 y0 x1 y1 on s hr h64 hx0 hx1 hy0 hy1
  have hok : ∀ x y, onLine (zext x0) (zext y0) (zext x1) (zext y1) x y → pixelOk s ⟨x, y, on⟩ = true := by
    rintro _ _ ⟨v, hv, rfl, rfl⟩
    have hvisit := (lineRun_traced (zext x0) (zext y0) (zext x1) (zext y1) 0).visit v hv
    obtain ⟨hx, hx'⟩ := hvisit.lx_between
    obtain ⟨hy, hy'⟩ := hvisit.ly_between
    apply pixelOk_of_height64 h64 <;> simp only [zext] at * <;> omega
  obtain ⟨m, ln, he, hpaint⟩ := exec_line_of_ok hr hok
  obtain ⟨hfirst, hlast⟩ := onLine_endpoints (zext x0) (zext y0) (zext x1) (zext y1)
  exact ⟨_, he, rfl, rfl, rfl, pixelOn_of_paints hpaint hfirst (hok _ _ hfirst),
    pixelOn_of_paints hpaint hlast (hok _ _ hlast)⟩

/-! ## Lines along an axis (R57) -/

/-- The visits of a line along x: one step along x each. -/
theorem lineVisits_horizontal {y : Int} (on : Bool) {n : Nat} {v : LineVars} (hy : v.ly = y) (hdy : v.ldy = 0)
    (herr : v.lerr = v.ldx) (hn : n ≤ v.ldx) (hsx : n ≠ 0 → v.lsx = 1) :
    (lineVisits (v.lx + n) y n v).map (fun v => (⟨v.lx, v.ly, on⟩ : Pixel)) =
      (List.range (n + 1)).map fun (k : Nat) => ⟨v.lx + k, y, on⟩ := by
  induction n generalizing v with
  | zero => simp [lineVisits, hy]
  | succ n ih =>
    have hend : ¬v.atEnd (v.lx + (n + 1 : Nat)) y := fun h => by
      have := h.1
      omega
    have hx : 2 * v.lerr > -v.ldy := by omega
    have hy' : ¬2 * v.lerr < v.ldx := by omega
    have hlx : (lineStep v).lx = v.lx + 1 := by rw [lineStep_lx, if_pos hx, hsx (by omega)]
    have hrest := ih (v := lineStep v) (by rw [lineStep_ly, if_neg hy', add_zero, hy]) (by simpa using hdy)
      (by rw [lineStep_lerr, if_pos hx, if_neg hy', hdy, lineStep_ldx]; omega) (by rw [lineStep_ldx]; omega)
      (fun _ => by rw [lineStep_lsx, hsx (by omega)])
    rw [hlx, show v.lx + 1 + (n : Int) = v.lx + (n + 1 : Nat) by push_cast; ring] at hrest
    rw [lineVisits_of_not_atEnd hend, List.map_cons, hrest, List.range_succ_eq_map (n := n + 1), List.map_cons,
      List.map_map, hy]
    simp only [Nat.cast_zero, add_zero, List.cons.injEq, true_and]
    refine List.map_congr_left fun k _ => ?_
    simp only [Function.comp, Pixel.mk.injEq, and_true]
    push_cast
    ring

theorem hlinePixels_eq_linePixels {x0 x1 : Int} (h : x0 ≤ x1) (y : Int) (on : Bool) :
    hlinePixels x0 x1 y on = linePixels x0 y x1 y on := by
  have hdx : |x1 - x0| = x1 - x0 := abs_of_nonneg (by omega)
  have hrun : lineRun x0 y x1 y 0 = lineVisits x1 y (x1 - x0).toNat (lineStart x0 y x1 y 0) := by
    simp [lineRun, lineStart, hdx, h]
  have hvisits := lineVisits_horizontal on (n := (x1 - x0).toNat) (v := lineStart x0 y x1 y 0) (y := y) rfl
    (by simp [lineStart]) (by simp [lineStart]) (by simp only [lineStart]; omega)
    (fun hn => if_pos (by omega))
  have hx1 : (lineStart x0 y x1 y 0).lx + ((x1 - x0).toNat : Int) = x1 := by
    simp only [lineStart]
    omega
  rw [hx1] at hvisits
  rw [linePixels, hrun, hvisits, hlinePixels, span, List.map_map,
    show (x1 + 1 - x0).toNat = (x1 - x0).toNat + 1 by omega]
  rfl

/-- VLINE is HLINE with the axes exchanged, and so is its line. -/
theorem vlinePixels_eq_linePixels {y0 y1 : Int} (h : y0 ≤ y1) (x : Int) (on : Bool) :
    vlinePixels x y0 y1 on = linePixels x y0 x y1 on := by
  have hswap : linePixels x y0 x y1 on = (linePixels y0 x y1 x on).map fun p => ⟨p.y, p.x, p.on⟩ := by
    have hrun := lineRun_swap y0 x y1 x 0
    rw [neg_zero] at hrun
    simp only [linePixels, hrun, List.map_map]
    rfl
  rw [hswap, ← hlinePixels_eq_linePixels h, hlinePixels, List.map_map]
  rfl

/-- Settles O40: with equal rows every iteration goes one column on. -/
theorem axisAlignedLinesAgree : Obligations.AxisAlignedLinesAgree := by
  unfold Obligations.AxisAlignedLinesAgree
  exact ⟨fun _ _ y on h => hlinePixels_eq_linePixels h y on, fun x _ _ on h => vlinePixels_eq_linePixels h x on⟩

end Sys2Proof.Machine

/-! # CHAR and STRING (R112, R125 to R128): the cell of a glyph, and the layout -/

namespace Sys2Proof.Machine

/-! ## The cell of a glyph -/

theorem mem_cellPixels {P : Params} {g : Nat} {x y : Int} {p : Pixel} :
    p ∈ cellPixels P g x y ↔
      ∃ i j : Nat, i < 8 ∧ j < 8 ∧ p = ⟨x + i, y + j, (P.glyph (8 * g + i)).getLsbD j⟩ := by
  simp only [cellPixels, List.mem_flatMap, List.mem_map, List.mem_range, glyphColumn]
  constructor
  · rintro ⟨i, hi, j, hj, rfl⟩
    exact ⟨i, j, hi, hj, rfl⟩
  · rintro ⟨i, j, hi, hj, rfl⟩
    exact ⟨i, hi, j, hj, rfl⟩

/-- Two pixels fewer than eight rows apart that share a framebuffer bit are one pixel. -/
theorem eq_of_hits {x y x' y' : Int} {a b : Nat} (hy : |y - y'| < 8) (h : hits x y a b) (h' : hits x' y' a b) :
    x = x' ∧ y = y' := by
  obtain ⟨haddr, hbit⟩ := h
  obtain ⟨haddr', hbit'⟩ := h'
  rw [abs_lt] at hy
  simp only [pixelAddr, pixelBit] at *
  omega

section
variable {P : Params} {g : Nat} {x y : Int} {s : State}
  (hok : ∀ i j : Nat, i < 8 → j < 8 → pixelOk s ⟨x + i, y + j, true⟩ = true)
include hok

/-- Whether a pixel passes does not depend on the value written. -/
theorem pixelOk_of_mem_cellPixels : ∀ p ∈ cellPixels P g x y, pixelOk s p = true := by
  intro p hp
  obtain ⟨i, j, hi, hj, rfl⟩ := mem_cellPixels.1 hp
  exact hok i j hi hj

/-- A cell that passes is painted opaquely (R112). -/
theorem pixelOn_paintAll_cellPixels {i j : Nat} (hi : i < 8) (hj : j < 8) :
    pixelOn (paintAll (cellPixels P g x y) s) (x + i) (y + j) = (P.glyph (8 * g + i)).getLsbD j := by
  have hself : hits (x + i) (y + j) _ _ := (hits_iff s _ (hok i j hi hj) _ _).2 ⟨rfl, rfl⟩
  refine fbBit_paintAll_hit _ _ _ _ _ (pixelBit_lt _) ?_ ⟨_, mem_cellPixels.2 ⟨i, j, hi, hj, rfl⟩, rfl, rfl⟩
  intro p hp hit
  obtain ⟨i', j', hi', hj', rfl⟩ := mem_cellPixels.1 hp
  have hit' : hits (x + i') (y + j') _ _ := (hits_iff s _ (hok i' j' hi' hj') _ _).2 hit
  obtain ⟨hx, hy⟩ := eq_of_hits (abs_lt.2 ⟨by omega, by omega⟩) hit' hself
  have hi'i : i' = i := by omega
  have hj'j : j' = j := by omega
  rw [hi'i, hj'j]

end

/-- A bit that no pixel of a sequence of passing writes hits is as before. -/
theorem fbBit_paintAll_of_not_hits {ps : List Pixel} {s : State} (hok : ∀ p ∈ ps, pixelOk s p = true) {a b : Nat}
    (hb : b < 8) (hno : ¬∃ p ∈ ps, hits p.x p.y a b) : fbBit (paintAll ps s) a b = fbBit s a b :=
  fbBit_paintAll_miss ps s a b hb fun p hp hit => hno ⟨p, hp, (hits_iff s p (hok p hp) a b).2 hit⟩

theorem exec_char_of_ok {c x y : Byte} {w : Nat} {ps : List Pixel} {s : State} (hr : s.dispReady = true)
    (hd : drawChar s.build c (zext x) (zext y) = .ok (w, ps)) (hps : ∀ p ∈ ps, pixelOk s p = true) :
    exec (.char c x y) s = .next
      { s with
        fb := (paintAll ps s).fb, rv0 := BitVec.ofNat 8 w, rv1 := 0
        work := { s.work with font := fontAfter s.build c s.work.font }
        err := 0, busy := false, pending := none } := by
  rw [exec_char_of_draws hr hd, draw_of_ok _ _ _ _ _ hps, paintAll_eq]
  rfl

/-- Settles O43: within one cell no two pixels share a bit, so each pixel keeps the value written to it. -/
theorem charCompletes : Obligations.CharCompletes := by
  unfold Obligations.CharCompletes
  intro c x y g s hr hc hg hok
  have hps := pixelOk_of_mem_cellPixels (P := s.build) (g := g) hok
  refine ⟨(paintAll (cellPixels s.build g (zext x) (zext y)) s).fb, fontAfter s.build c s.work.font, ?_, ?_, ?_⟩
  · exact exec_char_of_ok hr (drawChar_of_glyph hc hg _ _) hps
  · rw [← paintAll_eq]
    exact fun i j => pixelOn_paintAll_cellPixels hok
  · rw [← paintAll_eq]
    intro a b hb hno
    refine fbBit_paintAll_of_not_hits hps hb ?_
    rintro ⟨p, hp, hit⟩
    obtain ⟨i, j, hi, hj, rfl⟩ := mem_cellPixels.1 hp
    exact hno ⟨i, j, hi, hj, hit⟩

/-- The pixel writes of a character are those of a glyph's cell. -/
theorem mem_cellPixels_of_drawChar {P : Params} {c : Byte} {x y : Int} {d : Nat × List Pixel}
    (hd : drawChar P c x y = .ok d) {p : Pixel} (hp : p ∈ d.2) : ∃ g, p ∈ cellPixels P g x y := by
  by_cases hc : c = 0x20#8
  · rw [hc, drawChar_space] at hd
    cases hd
    cases hp
  · cases hg : glyphIndex c with
    | none =>
      rw [drawChar_of_unsupported hg] at hd
      cases hd
    | some g =>
      rw [drawChar_of_glyph hc hg] at hd
      cases hd
      exact ⟨g, hp⟩

/-! ## One character of the layout (R125 to R127) -/

/-- The variables after a character of width `w` drawn at the cursor. -/
def nextChar (s : State) (w : Nat) (v : TextVars) : TextVars :=
  advance s w { v with font := fontAfter s.build (strbufByte s v.ti) v.font }

@[simp] theorem nextChar_ti (s : State) (w : Nat) (v : TextVars) : (nextChar s w v).ti = v.ti + 1 := by
  unfold nextChar advance
  dsimp only
  split_ifs <;> rfl

theorem nextChar_of_fits {s : State} {w : Nat} {v : TextVars} (h : v.tx + w + 2 ≤ zext s.width - 8) :
    (nextChar s w v).tx = v.tx + w + 2 ∧ (nextChar s w v).ty = v.ty := by
  have hif : nextChar s w v =
      { v with
        tx := v.tx + w + 2, ti := v.ti + 1, font := fontAfter s.build (strbufByte s v.ti) v.font } :=
    if_neg (not_lt.2 h)
  rw [hif]
  exact ⟨rfl, rfl⟩

theorem nextChar_of_wraps {s : State} {w : Nat} {v : TextVars} (h : zext s.width - 8 < v.tx + w + 2) :
    (nextChar s w v).tx = 0 ∧ (nextChar s w v).ty = v.ty + 8 := by
  have hif : nextChar s w v =
      { v with
        tx := 0, ty := v.ty + 8, ti := v.ti + 1, font := fontAfter s.build (strbufByte s v.ti) v.font } :=
    if_pos h
  rw [hif]
  exact ⟨rfl, rfl⟩

@[simp] theorem layout_zero (s : State) (v : TextVars) : layout s 0 v = ⟨[], none, v⟩ := rfl

theorem layout_of_row_beyond {s : State} {v : TextVars} (h : zext s.height ≤ v.ty + 8) (n : Nat) :
    layout s n v = ⟨[], none, v⟩ := by
  have hrow : ¬rowFits s v.ty = true := by simpa [rowFits] using h
  cases n with
  | zero => rfl
  | succ n => rw [layout, if_neg hrow]

theorem layout_of_draws {s : State} {v : TextVars} {w : Nat} {ps : List Pixel} (hrow : v.ty + 8 < zext s.height)
    (hd : drawChar s.build (strbufByte s v.ti) v.tx v.ty = .ok (w, ps)) (n : Nat) :
    layout s (n + 1) v =
      { layout s n (nextChar s w v) with writes := ps ++ (layout s n (nextChar s w v)).writes } := by
  have hfits : rowFits s v.ty = true := decide_eq_true hrow
  rw [layout, if_pos hfits]
  simp only [hd]
  rfl

theorem layout_of_error {s : State} {v : TextVars} {r : Raise} (hrow : v.ty + 8 < zext s.height)
    (hd : drawChar s.build (strbufByte s v.ti) v.tx v.ty = .error r) (n : Nat) :
    layout s (n + 1) v = ⟨[], some r, v⟩ := by
  have hfits : rowFits s v.ty = true := decide_eq_true hrow
  rw [layout, if_pos hfits]
  simp only [hd]

/-- STRING whose layout nothing stops and whose pixel writes all pass. -/
theorem exec_string_of_ok {x y len : Byte} {s : State} {plan : TextPlan} (hr : s.dispReady = true)
    (hplan : stringPlan x y len s = plan) (hstop : plan.stop = none) (hps : ∀ p ∈ plan.writes, pixelOk s p = true) :
    exec (.string x y len) s = .next
      { s with
        fb := (paintAll plan.writes s).fb, rv0 := BitVec.ofInt 8 plan.vars.tx, rv1 := BitVec.ofInt 8 plan.vars.ty
        work :=
          { s.work with
            font := plan.vars.font
            text := ⟨BitVec.ofInt 10 plan.vars.tx, BitVec.ofInt 10 plan.vars.ty, BitVec.ofNat 8 plan.vars.ti⟩ }
        err := 0, busy := false, pending := none } := by
  rw [exec_string_of_ready x y len hr, string, hplan, hstop, draw_of_ok _ _ _ _ _ hps, paintAll_eq]
  rfl

theorem ofInt_zext_eq_setWidth (n : Nat) (b : Byte) : BitVec.ofInt n (zext b) = b.setWidth n := by
  rw [zext, BitVec.ofInt_natCast, BitVec.ofNat_toNat]

/-- Settles O46: with no character drawn the layout is empty, and STRING returns its operands. -/
theorem stringOutsideTheGuardDrawsNothing : Obligations.StringOutsideTheGuardDrawsNothing := by
  unfold Obligations.StringOutsideTheGuardDrawsNothing
  have hempty : ∀ (s : State) (n : Nat) (v : TextVars),
      zext s.height ≤ v.ty + 8 ∨ n = 0 → layout s n v = ⟨[], none, v⟩ := by
    rintro s n v (hrow | rfl)
    · exact layout_of_row_beyond hrow n
    · rfl
  refine ⟨fun x y len s hr hout => ?_, hempty⟩
  have hplan : stringPlan x y len s = ⟨[], none, ⟨zext x, zext y, 0, s.work.font⟩⟩ := by
    refine hempty s _ _ (hout.imp (fun hrow => ?_) fun hlen => by rw [hlen]; rfl)
    simp only [zext]
    omega
  rw [exec_string_of_ok hr hplan rfl (by simp)]
  simp [ofInt_zext_eq_setWidth]

/-- Settles O47: the rest is laid out from the advanced cursor. -/
theorem layoutAdvancesByWidthPlusTwoAndWraps : Obligations.LayoutAdvancesByWidthPlusTwoAndWraps := by
  unfold Obligations.LayoutAdvancesByWidthPlusTwoAndWraps
  intro s n v w ps hrow hd
  refine ⟨nextChar s w v, nextChar_ti s w v, nextChar_of_fits, nextChar_of_wraps, ?_⟩
  rw [layout_of_draws hrow hd]
  exact ⟨rfl, rfl, rfl⟩

/-! ## What holds throughout a layout -/

section
variable {s : State} {Q : Nat → TextVars → Prop}
  (hnext : ∀ n w v, Q (n + 1) v → v.ty + 8 < zext s.height → Q n (nextChar s w v))
include hnext

/-- A property of the characters left and the variables that every drawn character keeps holds at the end, with some
characters left. -/
theorem layout_vars_of_next {n : Nat} {v : TextVars} (h : Q n v) : ∃ k, Q k (layout s n v).vars := by
  induction n generalizing v with
  | zero => exact ⟨0, h⟩
  | succ n ih =>
    rcases le_or_gt (zext s.height) (v.ty + 8) with hrow | hrow
    · rw [layout_of_row_beyond hrow]
      exact ⟨_, h⟩
    · cases hd : drawChar s.build (strbufByte s v.ti) v.tx v.ty with
      | error r =>
        rw [layout_of_error hrow hd]
        exact ⟨_, h⟩
      | ok d =>
        rw [layout_of_draws hrow hd]
        exact ih (hnext n d.1 v h hrow)

/-- And it holds where the character was drawn that wrote a pixel. -/
theorem layout_writes_of_next {n : Nat} {v : TextVars} (h : Q n v) {p : Pixel} (hp : p ∈ (layout s n v).writes) :
    ∃ k u g, Q k u ∧ u.ty + 8 < zext s.height ∧ p ∈ cellPixels s.build g u.tx u.ty := by
  induction n generalizing v with
  | zero => simp at hp
  | succ n ih =>
    rcases le_or_gt (zext s.height) (v.ty + 8) with hrow | hrow
    · simp [layout_of_row_beyond hrow] at hp
    · cases hd : drawChar s.build (strbufByte s v.ti) v.tx v.ty with
      | error r => simp [layout_of_error hrow hd] at hp
      | ok d =>
        rw [layout_of_draws hrow hd] at hp
        rcases List.mem_append.1 hp with hp | hp
        · obtain ⟨g, hg⟩ := mem_cellPixels_of_drawChar hd hp
          exact ⟨n + 1, v, g, h, hrow, hg⟩
        · exact ih (hnext n d.1 v h hrow) hp

end

/-- What holds of the variables with `n` characters left, from a start at row `y` and character 0 (R128). -/
structure Cursor (y : Int) (len n : Nat) (v : TextVars) : Prop where
  tx : 0 ≤ v.tx ∧ v.tx ≤ 255
  ty : 0 ≤ v.ty ∧ v.ty ≤ 255
  rows : (v.ty - y) % 8 = 0 ∧ y ≤ v.ty
  ti : v.ti + n ≤ len

theorem Cursor.next {y : Int} {len n : Nat} {s : State} {v : TextVars} (h : Cursor y len (n + 1) v)
    (hrow : v.ty + 8 < zext s.height) (w : Nat) : Cursor y len n (nextChar s w v) := by
  have hti : (nextChar s w v).ti + n ≤ len := by
    have := h.ti
    rw [nextChar_ti]
    omega
  have hw := s.width.isLt
  have hh := s.height.isLt
  obtain ⟨⟨hx0, hx1⟩, ⟨hy0, hy1⟩, ⟨hmod, hle⟩, -⟩ := h
  rcases le_or_gt (v.tx + w + 2) (zext s.width - 8) with hfits | hwraps
  · obtain ⟨htx, hty⟩ := nextChar_of_fits hfits
    refine ⟨?_, ?_, ?_, hti⟩ <;> simp only [htx, hty, zext] at * <;> omega
  · obtain ⟨htx, hty⟩ := nextChar_of_wraps hwraps
    refine ⟨?_, ?_, ?_, hti⟩ <;> simp only [htx, hty, zext] at * <;> omega

theorem cursor_start (x y len : Byte) (f : FontRegs) : Cursor (zext y) len.toNat len.toNat ⟨zext x, zext y, 0, f⟩ := by
  have hx := x.isLt
  have hy := y.isLt
  constructor <;> simp only [zext] <;> omega

/-- Settles O48: every drawn character keeps the cursor in range and its row in step. -/
theorem stringCursorFitsAndRowsAreEightApart : Obligations.StringCursorFitsAndRowsAreEightApart := by
  unfold Obligations.StringCursorFitsAndRowsAreEightApart
  intro x y len s
  obtain ⟨k, h⟩ := layout_vars_of_next (s := s) (fun _ w _ h hrow => Cursor.next h hrow w)
    (cursor_start x y len s.work.font)
  exact ⟨h.tx.1, h.tx.2, h.ty.1, h.ty.2, h.rows.1, h.rows.2, (Nat.le_add_right _ k).trans h.ti⟩

/-- The cursor leaves room for a cell in its row: the wrap test sees to it, if the start does. -/
def CellFits (s : State) (v : TextVars) : Prop := 0 ≤ v.tx ∧ v.tx + 8 ≤ zext s.width ∧ 0 ≤ v.ty

theorem CellFits.next {s : State} {v : TextVars} (h : CellFits s v) (w : Nat) : CellFits s (nextChar s w v) := by
  obtain ⟨hx0, hx, hy0⟩ := h
  rcases le_or_gt (v.tx + w + 2) (zext s.width - 8) with hfits | hwraps
  · obtain ⟨htx, hty⟩ := nextChar_of_fits hfits
    rw [CellFits, htx, hty]
    omega
  · obtain ⟨htx, hty⟩ := nextChar_of_wraps hwraps
    rw [CellFits, htx, hty]
    omega

theorem pixelOk_of_cellFits {s : State} (h64 : Height64 s) {v : TextVars} (h : CellFits s v)
    (hrow : v.ty + 8 < zext s.height) {g : Nat} : ∀ p ∈ cellPixels s.build g v.tx v.ty, pixelOk s p = true := by
  have hh : zext s.height = 64 := by rw [h64.1]; rfl
  obtain ⟨hx0, hx, hy0⟩ := h
  exact pixelOk_of_mem_cellPixels fun i j hi hj =>
    pixelOk_of_height64 h64 (by omega) (by omega) (by omega) (by omega)

/-- Settles O45: the pixel writes of STRING are those of its layout; only an unsupported character stops the layout;
and at `HEIGHT` = 64 the guard and the wrap test keep every cell inside. -/
theorem stringCompletes : Obligations.StringCompletes := by
  unfold Obligations.StringCompletes
  refine ⟨fun x y len s hr hstop hps => ?_, fun _ _ _ _ => rfl, fun x y len s hall => ?_, fun x y len s h64 hx p hp => ?_⟩
  · refine ⟨(paintAll (stringPlan x y len s).writes s).fb, ?_, exec_string_of_ok hr rfl hstop hps, ?_⟩
    · rw [← paintAll_eq]
      exact pixels_of_ok _ s hps
    · rw [← paintAll_eq]
      exact fun a b hb hno => fbBit_paintAll_of_not_hits hps hb hno
  · cases hstop : (stringPlan x y len s).stop with
    | none => rfl
    | some r =>
      obtain ⟨i, hi, hg, -⟩ := stringPlan_stop hstop
      exact absurd hg (hall i hi)
  · have hstart : CellFits s ⟨zext x, zext y, 0, s.work.font⟩ := by
      simp only [CellFits, zext]
      omega
    obtain ⟨-, v, g, hv, hrow, hcell⟩ :=
      layout_writes_of_next (Q := fun _ => CellFits s) (fun _ w _ h _ => h.next w) hstart hp
    exact pixelOk_of_cellFits h64 hv hrow p hcell

end Sys2Proof.Machine

/-! # The registers the host sees (R13, R14): after reset, read and written -/

namespace Sys2Proof.Machine

/-! ## After reset (R185) -/

/-- Settles O5: the registers of `State.resetOf` are 0, and its memories hold no written entry. -/
theorem resetStateIsAsSpecified : Obligations.ResetStateIsAsSpecified := by
  unfold Obligations.ResetStateIsAsSpecified
  refine ⟨⟨rfl, rfl⟩, fun P => ?_⟩
  have hstatus : statusWord (State.resetOf P) = 0 := by
    simp only [statusWord, State.resetOf_err, State.resetOf_fault, State.resetOf_mtxReady, State.resetOf_dispReady,
      State.resetOf_busy]
    rfl
  have hresult : resultWord (State.resetOf P) = 0 := by
    simp only [resultWord, State.resetOf_rv1, State.resetOf_rv0]
    rfl
  have hcause : fcauseWord (State.resetOf P) = 0 := by
    simp only [fcauseWord, State.resetOf_info, State.resetOf_op, State.resetOf_cause]
    rfl
  exact ⟨rfl, rfl, rfl, rfl, rfl, rfl, rfl, rfl, rfl, hstatus, hresult, hcause, rfl, rfl, rfl, rfl, fun _ => rfl,
    fun _ => rfl, fun _ => rfl⟩

/-! ## Reads -/

theorem hostRead_cbuf {k : Nat} (hk : k < 25) (s : State) : hostRead (0x40 + k) s = cbufEntry s k := by
  unfold hostRead cbufAddress
  rw [if_neg (by omega), if_neg (by omega), if_neg (by omega), if_neg (by omega), if_neg (by omega),
    if_neg (by omega), if_pos (by omega), show 0x40 + k - (0x40 + 0) = k by omega]

theorem hostRead_strbuf {i : Nat} (hi : i < 255) (s : State) :
    hostRead (0x100 + i) s = (strbufByte s i).setWidth 48 := by
  unfold hostRead cbufAddress strbufAddress
  rw [if_neg (by omega), if_neg (by omega), if_neg (by omega), if_neg (by omega), if_neg (by omega),
    if_neg (by omega), if_neg (by omega), if_pos (by omega), show 0x100 + i - (0x100 + 0) = i by omega]

theorem hostRead_unmapped {a : Nat} (ha : (6 < a ∧ a < 0x40) ∨ (0x58 < a ∧ a < 0x100) ∨ 0x1FE < a) (s : State) :
    hostRead a s = 0 := by
  unfold hostRead cbufAddress strbufAddress
  rw [if_neg (by omega), if_neg (by omega), if_neg (by omega), if_neg (by omega), if_neg (by omega),
    if_neg (by omega), if_neg (by omega), if_neg (by omega)]

theorem statusWord_toNat (s : State) :
    (statusWord s).toNat =
      s.busy.toNat + 2 * s.dispReady.toNat + 4 * s.mtxReady.toNat + 8 * s.fault.toNat + 16 * s.err.toNat := by
  simp only [statusWord, toNat_append_eq_add, BitVec.toNat_ofBool, BitVec.toNat_zero]
  omega

theorem resultWord_toNat (s : State) : (resultWord s).toNat = s.rv0.toNat + 256 * s.rv1.toNat := by
  simp only [resultWord, toNat_append_eq_add]
  omega

theorem fcauseWord_toNat (s : State) :
    (fcauseWord s).toNat = s.cause.toNat + 16 * s.op.toNat + 256 * s.info.toNat := by
  simp only [fcauseWord, toNat_append_eq_add]
  omega

theorem cfg0_toNat (s : State) :
    (cfg0 s).toNat =
      s.width.toNat + 2 ^ 8 * s.height.toNat + 2 ^ 16 * s.pages.toNat + 2 ^ 24 * s.busAddr.toNat := by
  simp only [cfg0, toNat_append_eq_add, BitVec.toNat_zero]
  omega

theorem cfg1_toNat (s : State) :
    (cfg1 s).toNat = s.busSel.toNat + 2 ^ 8 * s.mtxChan.toNat + 2 ^ 16 * s.mtxPin.toNat := by
  simp only [cfg1, toNat_append_eq_add, BitVec.toNat_zero]
  omega

theorem cfg2_toNat (s : State) : (cfg2 s).toNat = s.bufsize.toNat := by
  simp only [cfg2, toNat_append_eq_add, BitVec.toNat_zero]
  omega

/-- Settles O57: each register word is the sum of its fields in their places. -/
theorem hostReadsTheRegisterMap : Obligations.HostReadsTheRegisterMap := by
  unfold Obligations.HostReadsTheRegisterMap
  intro s a es hin
  refine ⟨hostRead a s, by rw [step_of_input hin]; rfl, ?_, ?_, ?_, ?_, ?_, ?_, ?_, ?_, ?_, fun ha => ?_⟩
  · rintro rfl
    rfl
  · rintro rfl
    exact (BitVec.toNat_setWidth_of_le (by decide)).trans (statusWord_toNat s)
  · rintro rfl
    exact (BitVec.toNat_setWidth_of_le (by decide)).trans (resultWord_toNat s)
  · rintro rfl
    exact (BitVec.toNat_setWidth_of_le (by decide)).trans (fcauseWord_toNat s)
  · rintro rfl
    exact (BitVec.toNat_setWidth_of_le (by decide)).trans (cfg0_toNat s)
  · rintro rfl
    exact (BitVec.toNat_setWidth_of_le (by decide)).trans (cfg1_toNat s)
  · rintro rfl
    exact (BitVec.toNat_setWidth_of_le (by decide)).trans (cfg2_toNat s)
  · rintro k hk rfl
    exact hostRead_cbuf hk s
  · rintro i hi rfl
    rw [hostRead_strbuf hi]
    exact BitVec.toNat_setWidth_of_le (by decide)
  · exact hostRead_unmapped ha s

/-! ## Writes -/

theorem hostWrite_cbuf {k : Nat} (hk : k < 25) (v : BitVec 48) (s : State) :
    hostWrite (0x40 + k) v s = .next (writeCbuf k v s) := by
  unfold hostWrite cmdAddress cbufAddress
  rw [if_neg (by omega), if_pos (by omega), show 0x40 + k - (0x40 + 0) = k by omega]

theorem hostWrite_strbuf {i : Nat} (hi : i < 255) (v : BitVec 48) (s : State) :
    hostWrite (0x100 + i) v s = .next (writeStrbuf i (v.setWidth 8) s) := by
  unfold hostWrite cmdAddress cbufAddress strbufAddress
  rw [if_neg (by omega), if_neg (by omega), if_pos (by omega), show 0x100 + i - (0x100 + 0) = i by omega]

theorem hostWrite_unmapped {a : Nat} (ha : (1 ≤ a ∧ a < 0x40) ∨ (0x58 < a ∧ a < 0x100) ∨ 0x1FE < a) (v : BitVec 48)
    (s : State) : hostWrite a v s = .next s := by
  unfold hostWrite cmdAddress cbufAddress strbufAddress
  rw [if_neg (by omega), if_neg (by omega), if_neg (by omega)]

theorem writeCbuf_of_not_busy {s : State} (hb : s.busy = false) (k : Nat) (v : ColourEntry) :
    writeCbuf k v s = { s with cbuf := cellWrite s.cbuf k v } := by
  simp [writeCbuf, hb]

theorem writeStrbuf_of_not_busy {s : State} (hb : s.busy = false) (i : Nat) (v : Byte) :
    writeStrbuf i v s = { s with strbuf := cellWrite s.strbuf i v } := by
  simp [writeStrbuf, hb]

/-- Settles O58: a buffer write while not busy is one entry's write, and every other address but `CMD` is ignored. -/
theorem hostWritesTheRegisterMap : Obligations.HostWritesTheRegisterMap := by
  unfold Obligations.HostWritesTheRegisterMap
  intro s a v es hin
  rw [step_of_input hin, react]
  refine ⟨?_, ?_, fun ha => hostWrite_unmapped ha v _⟩
  · rintro hb k hk rfl
    rw [hostWrite_cbuf hk, writeCbuf_of_not_busy (s := { s with inputs := es }) hb]
    refine ⟨_, rfl, ?_, fun k' hk' => ?_⟩
    · simp [cbufEntry]
    · simp [cbufEntry, cellRead_cellWrite_of_ne _ _ hk']
  · rintro hb i hi rfl
    rw [hostWrite_strbuf hi, writeStrbuf_of_not_busy (s := { s with inputs := es }) hb]
    refine ⟨_, rfl, ?_, fun i' hi' => ?_⟩
    · simp [strbufByte]
    · simp [strbufByte, cellRead_cellWrite_of_ne _ _ hi']

end Sys2Proof.Machine

/-! # Commands that complete: DINIT and FLUSH on the bus, MINIT and MDRAW on the matrix (R70, R73, R140, R142) -/

namespace Sys2Proof.Machine

/-! ## The bus -/

/-- Command writes as the `BUS` trace records them (R74). -/
theorem asWrites_map_commandWrite (s : State) (cs : List Byte) :
    asWrites s (cs.map commandWrite) = cs.map fun c => ⟨s.busSel, s.busAddr, [0x80#8, c]⟩ := by
  rw [asWrites, List.map_map]
  rfl

theorem asWrites_append (s : State) (ts us : List (List Byte)) :
    asWrites s (ts ++ us) = asWrites s ts ++ asWrites s us :=
  List.map_append

/-- `HEIGHT >> 3` is `HEIGHT / 8` (R70). -/
theorem shiftRight3_setWidth (h : Byte) : (h >>> 3).setWidth 5 = BitVec.ofNat 5 (h.toNat / 8) := by
  apply BitVec.eq_of_toNat_eq
  simp [Nat.shiftRight_eq_div_pow]

theorem emitBus_dinit_of_covers (w h a b : Byte) {s : State}
    (hroom : s.busRoom.covers (2 * s.build.initCmds.length) = true) :
    emitBus .dinit (s.build.initCmds.map commandWrite) (initialised w h a b s) =
      { s with
        width := w, height := h, pages := BitVec.ofNat 5 (h.toNat / 8)
        bufsize := BitVec.ofNat 13 (h.toNat / 8 * w.toNat + 1), busAddr := a.setWidth 7, busSel := b
        fb := cellWrite s.fb 0 0x40#8
        bus := s.bus ++ s.build.initCmds.map fun c => ⟨b, a.setWidth 7, [0x80#8, c]⟩
        busRoom := s.busRoom.after (2 * s.build.initCmds.length)
        dispReady := true, err := 0, busy := false, pending := none } := by
  rw [emitBus_of_covers _ _ _ (by rwa [totalBytes_map_commandWrite]), totalBytes_map_commandWrite,
    asWrites_map_commandWrite, ← shiftRight3_setWidth, ← bufferSize_eq]
  rfl

/-- Settles O24: the power-on writes are two bytes each, and `FB[0]` is the only byte written. -/
theorem dinitCompletes : Obligations.DinitCompletes := by
  unfold Obligations.DinitCompletes
  intro w h a b s hr hh hfit hroom
  refine ⟨_, exec_dinit_of_fits w h a b hr hh hfit, emitBus_dinit_of_covers w h a b hroom, ?_, fun i hi => ?_⟩
  · rw [fbByte_emitBus, fbByte_initialised_header]
  · rw [fbByte_emitBus, initialised, fbByte_writeFb, if_neg hi]
    rfl

/-- Settles O26: the output of FLUSH is its command writes and the bulk write. -/
theorem flushCompletes : Obligations.FlushCompletes := by
  unfold Obligations.FlushCompletes
  intro s hr hroom
  have htotal : totalBytes ((s.build.flushCmds s.width s.pages).map commandWrite ++ [bulkBytes s]) =
      2 * (s.build.flushCmds s.width s.pages).length + s.bufsize.toNat := by
    simp
  rw [exec_flush, if_pos hr, emitBus_of_covers _ _ _ (by rwa [htotal]), htotal, asWrites_append,
    asWrites_map_commandWrite, ← List.append_assoc]
  rfl

/-! ## The matrix -/

/-- Settles O51: each byte of the word is that of its own component. -/
theorem outOfRangeComponentSpoilsOnlyItsByte : Obligations.OutOfRangeComponentSpoilsOnlyItsByte := by
  unfold Obligations.OutOfRangeComponentSpoilsOnlyItsByte
  intro free r g b
  refine ⟨encodeColour_low _ _, fun hg => ?_, fun hr => ?_, fun hb => ?_⟩
  · rw [encodeColour_green, greenOf_append, componentByte_toNat_of_le hg]
  · rw [encodeColour_red, redOf_append, componentByte_toNat_of_le hr]
  · rw [encodeColour_blue, blueOf_append, componentByte_toNat_of_le hb]

/-- Settles O52: with clock and slot MINIT completes. -/
theorem minitCompletes : Obligations.MinitCompletes := by
  unfold Obligations.MinitCompletes
  intro ch pin s hr hclk hslot
  rw [exec_minit_of_available ch pin hr (by simp [hclk, hslot])]
  rfl

theorem frameWords_getElem? (s : State) {p : Nat} (hp : p < 25) : (frameWords s)[p]? = some (ledWordAt s p) := by
  simp [frameWords, hp]

/-- Settles O54: the queue takes the 25 words of the frame. -/
theorem mdrawCompletes : Obligations.MdrawCompletes := by
  unfold Obligations.MdrawCompletes
  intro s hr hroom
  refine ⟨frameWords s, fun p c => Config.freeLedByte s.fresh (3 * p + c), ?_, frameWords_length s,
    fun p hp => frameWords_getElem? s hp⟩
  rw [exec_mdraw, if_pos hr, sendLed_of_covers _ _ (by rwa [frameWords_length]), frameWords_length]
  rfl

end Sys2Proof.Machine

/-! # What a command reads of the other half: nothing (R2) -/

namespace Sys2Proof.Machine

/-! ## The matrix half replaced -/

/-- The state of the matrix half (R2): its memory, registers, traces and working register. -/
structure MatrixHalf where
  cbuf : ColourMemory
  mtxChan : Byte
  mtxPin : Byte
  mtxReady : Bool
  led : List LedWord
  ledQueue : List LedWord
  mp : BitVec 5

/-- The state with another matrix half. -/
def State.withMatrix (m : MatrixHalf) (s : State) : State :=
  { s with
    cbuf := m.cbuf, mtxChan := m.mtxChan, mtxPin := m.mtxPin, mtxReady := m.mtxReady
    led := m.led, ledQueue := m.ledQueue
    work := { s.work with mp := m.mp } }

section
variable (m : MatrixHalf) (s : State)

@[simp] theorem withMatrix_dispReady : (s.withMatrix m).dispReady = s.dispReady := rfl

@[simp] theorem withMatrix_build : (s.withMatrix m).build = s.build := rfl

@[simp] theorem withMatrix_busRoom : (s.withMatrix m).busRoom = s.busRoom := rfl

@[simp] theorem pixelOk_withMatrix (p : Pixel) : pixelOk (s.withMatrix m) p = pixelOk s p := rfl

theorem complete_withMatrix (code : BitVec 2) : complete code (s.withMatrix m) = (complete code s).withMatrix m := rfl

theorem setLoop_withMatrix (ps : List Pixel) : setLoop ps (s.withMatrix m) = (setLoop ps s).withMatrix m := by
  unfold setLoop
  split <;> rfl

theorem setLine_withMatrix (vs : List LineVars) : setLine vs (s.withMatrix m) = (setLine vs s).withMatrix m := by
  unfold setLine
  split <;> rfl

theorem pixel_withMatrix (p : Pixel) : pixel p (s.withMatrix m) = (pixel p s).map (State.withMatrix m) := by
  rw [pixel, pixel, pixelOk_withMatrix]
  split_ifs <;> rfl

theorem pixels_withMatrix (ps : List Pixel) :
    pixels ps (s.withMatrix m) = (pixels ps s).map (State.withMatrix m) := by
  induction ps generalizing s with
  | nil => rfl
  | cons p ps ih =>
    rw [pixels, pixels, pixel_withMatrix]
    cases pixel p s with
    | error r => rfl
    | ok t => exact ih t

theorem someWrites_withMatrix (d i : Nat) (ps : List Pixel) :
    someWrites d i ps (s.withMatrix m) = (someWrites d i ps s).withMatrix m := by
  induction ps generalizing i s with
  | nil => rfl
  | cons p ps ih =>
    rw [someWrites, someWrites, pixelOk_withMatrix, ← ih]
    split_ifs <;> rfl

theorem faultMidway_withMatrix (u : DrawUnit) (opc : BitVec 4) (r : Raise) (ps : List Pixel) :
    faultMidway u opc r ps (s.withMatrix m) = (faultMidway u opc r ps s).withMatrix m := by
  rw [faultMidway, faultMidway, someWrites_withMatrix]
  cases u <;> rfl

theorem draw_withMatrix (u : DrawUnit) (opc : BitVec 4) (ps : List Pixel) (stop : Option Raise) {fin : State → State}
    (hfin : ∀ t, fin (t.withMatrix m) = (fin t).withMatrix m) :
    draw u opc ps stop fin (s.withMatrix m) = (draw u opc ps stop fin s).withMatrix m := by
  rw [draw, draw, pixels_withMatrix]
  cases pixels ps s with
  | error r => exact faultMidway_withMatrix m s u opc r ps
  | ok t =>
    cases stop with
    | some r => exact faultMidway_withMatrix m s u opc r ps
    | none => exact hfin t

theorem drawAnyOrder_withMatrix (u : DrawUnit) (opc : BitVec 4) (ps : List Pixel) {fin : State → State}
    (hfin : ∀ t, fin (t.withMatrix m) = (fin t).withMatrix m) :
    drawAnyOrder u opc ps fin (s.withMatrix m) = (drawAnyOrder u opc ps fin s).withMatrix m := by
  rw [drawAnyOrder, drawAnyOrder, pixels_withMatrix]
  cases pixels ps s with
  | error r => exact faultMidway_withMatrix m s u opc _ ps
  | ok t => exact hfin t

theorem whenDisplayReady_withMatrix (opc : BitVec 4) {body : State → State}
    (hbody : body (s.withMatrix m) = (body s).withMatrix m) :
    whenDisplayReady opc body (s.withMatrix m) = (whenDisplayReady opc body s).withMatrix m := by
  rw [whenDisplayReady, whenDisplayReady, withMatrix_dispReady]
  split_ifs
  · exact hbody
  · rfl

theorem layout_withMatrix (n : Nat) (v : TextVars) : layout (s.withMatrix m) n v = layout s n v := by
  induction n generalizing v with
  | zero => rfl
  | succ n ih =>
    rw [layout, layout]
    simp only [ih]
    rfl

theorem sendBus_withMatrix (d : BusEnd) (sent todo : List Byte) (rest : List (List Byte)) :
    sendBus d sent todo rest (s.withMatrix m) = (sendBus d sent todo rest s).withMatrix m := by
  induction rest generalizing sent todo s with
  | nil =>
    rw [sendBus, sendBus, withMatrix_busRoom]
    split_ifs
    · cases d <;> rfl
    · rfl
  | cons t ts ih =>
    rw [sendBus, sendBus, withMatrix_busRoom]
    split_ifs
    · exact ih { s with
        busRoom := s.busRoom.after todo.length
        bus := s.bus ++ [⟨s.busSel, s.busAddr, sent ++ todo⟩] } [] t
    · rfl

theorem emitBus_withMatrix (d : BusEnd) (ts : List (List Byte)) :
    emitBus d ts (s.withMatrix m) = (emitBus d ts s).withMatrix m := by
  cases ts with
  | nil => cases d <;> rfl
  | cons t ts => exact sendBus_withMatrix m s d [] t ts

end

/-- A command of the display half reads none of the matrix half, and keeps it. -/
theorem exec_withMatrix {i : Instr} (hi : isDisplayCommand i = true) (m : MatrixHalf) {s t : State}
    (he : exec i s = .next t) : exec i (s.withMatrix m) = .next (t.withMatrix m) := by
  have hloop : ∀ (ps : List Pixel) (u : State),
      complete errOk (setLoop ps (u.withMatrix m)) = (complete errOk (setLoop ps u)).withMatrix m := fun ps u => by
    rw [setLoop_withMatrix, complete_withMatrix]
  cases i with
  | minit | mdraw => cases hi
  | dinit w h a b =>
    rw [exec_dinit] at he ⊢
    cases he
    rw [withMatrix_dispReady, withMatrix_build]
    split_ifs
    · rfl
    · rfl
    · rfl
    · exact congrArg _ (emitBus_withMatrix m (initialised w h a b s) _ _)
  | setpix x y on =>
    cases he
    refine congrArg Host.Outcome.next (whenDisplayReady_withMatrix m s _ ?_)
    simp only [pixel_withMatrix]
    cases pixel ⟨zext x, zext y, on⟩ s <;> rfl
  | fill on =>
    cases he
    exact congrArg Host.Outcome.next
      (whenDisplayReady_withMatrix m s _ (drawAnyOrder_withMatrix m s _ _ _ (hloop _)))
  | rect top left w h on filled =>
    cases he
    refine congrArg Host.Outcome.next (whenDisplayReady_withMatrix m s _ ?_)
    dsimp only
    split_ifs
    · rfl
    · exact drawAnyOrder_withMatrix m s _ _ _ (hloop _)
  | line x0 y0 x1 y1 on =>
    cases he
    refine congrArg Host.Outcome.next (whenDisplayReady_withMatrix m s _ (draw_withMatrix m s _ _ _ _ fun u => ?_))
    rw [setLine_withMatrix, complete_withMatrix]
  | hline x0 x1 y on =>
    cases he
    refine congrArg Host.Outcome.next (whenDisplayReady_withMatrix m s _ ?_)
    dsimp only
    split_ifs
    · rfl
    · exact draw_withMatrix m s _ _ _ _ (hloop _)
  | vline x y0 y1 on =>
    cases he
    refine congrArg Host.Outcome.next (whenDisplayReady_withMatrix m s _ ?_)
    dsimp only
    split_ifs
    · rfl
    · exact draw_withMatrix m s _ _ _ _ (hloop _)
  | char c x y =>
    cases he
    refine congrArg Host.Outcome.next (whenDisplayReady_withMatrix m s _ ?_)
    rw [char, char, withMatrix_build]
    cases drawChar s.build c (zext x) (zext y) with
    | error r => exact draw_withMatrix m s _ _ _ _ fun u => rfl
    | ok d => exact draw_withMatrix m s _ _ _ _ fun u => rfl
  | string x y len =>
    cases he
    have hplan : stringPlan x y len (s.withMatrix m) = stringPlan x y len s := layout_withMatrix m s _ _
    refine congrArg Host.Outcome.next (whenDisplayReady_withMatrix m s _ ?_)
    rw [string, string, hplan]
    exact draw_withMatrix m s _ _ _ _ fun u => rfl
  | flush =>
    cases he
    exact congrArg Host.Outcome.next (whenDisplayReady_withMatrix m s _ (emitBus_withMatrix m s _ _))

/-! ## The display half replaced -/

/-- The state of the display half (R2): its registers, memories, traces and working registers. -/
structure DisplayHalf where
  width : Byte
  height : Byte
  pages : BitVec 5
  bufsize : BitVec 13
  busAddr : BitVec 7
  busSel : Byte
  dispReady : Bool
  fb : Memory
  strbuf : Memory
  bus : List BusWrite
  busCut : List BusWrite
  line : LineRegs
  font : FontRegs
  text : TextRegs
  loop : LoopRegs

/-- The state with another display half. -/
def State.withDisplay (d : DisplayHalf) (s : State) : State :=
  { s with
    width := d.width, height := d.height, pages := d.pages, bufsize := d.bufsize, busAddr := d.busAddr
    busSel := d.busSel, dispReady := d.dispReady, fb := d.fb, strbuf := d.strbuf, bus := d.bus, busCut := d.busCut
    work := { line := d.line, font := d.font, text := d.text, loop := d.loop, mp := s.work.mp } }

section
variable (d : DisplayHalf) (s : State)

@[simp] theorem withDisplay_mtxReady : (s.withDisplay d).mtxReady = s.mtxReady := rfl

@[simp] theorem withDisplay_clkOk : (s.withDisplay d).clkOk = s.clkOk := rfl

@[simp] theorem withDisplay_slotAvail : (s.withDisplay d).slotAvail = s.slotAvail := rfl

@[simp] theorem withDisplay_ledRoom : (s.withDisplay d).ledRoom = s.ledRoom := rfl

/-- A frame is the colours of `CBUF`. -/
theorem frameWords_withDisplay : frameWords (s.withDisplay d) = frameWords s := rfl

theorem sendLed_withDisplay (ws : List LedWord) : sendLed ws (s.withDisplay d) = (sendLed ws s).withDisplay d := by
  unfold sendLed
  dsimp only
  rw [withDisplay_ledRoom]
  split_ifs <;> rfl

end

/-- A command of the matrix half reads none of the display half, and keeps it. -/
theorem exec_withDisplay {i : Instr} (hi : isDisplayCommand i = false) (d : DisplayHalf) {s t : State}
    (he : exec i s = .next t) : exec i (s.withDisplay d) = .next (t.withDisplay d) := by
  cases i with
  | minit ch pin =>
    rw [exec_minit] at he ⊢
    cases he
    rw [withDisplay_mtxReady, withDisplay_clkOk, withDisplay_slotAvail]
    split_ifs <;> rfl
  | mdraw =>
    rw [exec_mdraw] at he ⊢
    cases he
    rw [withDisplay_mtxReady, frameWords_withDisplay]
    split_ifs
    · exact congrArg _ (sendLed_withDisplay d { s with fresh := s.fresh + 1 } _)
    · rfl
  | _ => cases hi

/-- Settles O56: replacing the other half commutes with every command. -/
theorem halvesReadOnlyTheirOwnState : Obligations.HalvesReadOnlyTheirOwnState := by
  unfold Obligations.HalvesReadOnlyTheirOwnState
  refine ⟨fun i s c ch pin rdy l q mp hi => ?_,
    fun i s w h sel pg n addr rdy fb str bs cut ln fn tx lp hi => ?_⟩
  · obtain ⟨t, he⟩ := exec_eq_next i s
    exact ⟨t, he, exec_withMatrix hi ⟨c, ch, pin, rdy, l, q, mp⟩ he⟩
  · obtain ⟨t, he⟩ := exec_eq_next i s
    exact ⟨t, he, exec_withDisplay hi ⟨w, h, pg, n, addr, sel, rdy, fb, str, bs, cut, ln, fn, tx, lp⟩ he⟩

end Sys2Proof.Machine
